-- ==== Sys2Proof/Word.lean ====
section
/-! DEFINITION. The two word types of the block: 00_scope.md rule R8. -/

namespace Sys2Proof

/-- A word is 32 bits (00_scope.md rule R8): every register is one word wide (10_state.md rule R23). -/
abbrev Word := BitVec 32

/-- A byte is 8 bits (00_scope.md rule R8): MEM is byte-addressed (20_memory.md rule R61). -/
abbrev Byte := BitVec 8

end Sys2Proof
end

