-- ==== Sys2Proof/Syntax.lean ====
section
/-! DEFINITION. The commands of the block (30_encoding.md rule R92), the names of its registers (10_state.md rule
R23) and the host's accesses to its port (20_memory.md rule R60). -/

namespace Sys2Proof

/-- An LFSR unit: field U of the command word, "0 selects U0, 1 selects U1" (30_encoding.md rule R90). -/
inductive UnitSel where
  | u0
  | u1
deriving DecidableEq, Repr

/-- The commands: one constructor per row of spec/opcode_table.json (30_encoding.md rule R92). The only operand in a
command word is the unit (rule R95), and its type holds exactly its two values. -/
inductive Instr where
  | nop
  | lfsrFibStep (u : UnitSel)
  | lfsrFibGen (u : UnitSel)
  | lfsrGalStep (u : UnitSel)
  | lfsrGalGen (u : UnitSel)
  | rcgInfo
  | rcgBuild
  | bchParity
  | bchEncode
  | bchEncodeIl
  | hamCheck
  | convEncode
  | convRelease
  | muxDual
  | muxAltboc
  | altModidx
  | altSegment
deriving DecidableEq, Repr

/-- Why the decoder rejects a command word: the three conditions of 30_encoding.md rule R91. Each is E_OPCODE. -/
inductive DecodeReject where
  /-- OP is not one of the opcodes of rule R92. -/
  | unknownOpcode
  /-- U is 1 and OP is no LFSR opcode. -/
  | unitOnUnitlessCommand
  /-- Bits [31:9] are not all 0. -/
  | reservedBitsSet
deriving DecidableEq, Repr

/-- The named registers of the register window (10_state.md rule R23). -/
inductive Reg where
  | id | ctrl | status | cmd
  | arg0 | arg1 | arg2 | arg3 | arg4 | arg5 | arg6 | arg7
  | res0 | res1 | res2 | res3
  | memsize | nsig | ndual
  | l0cfg | l0state | l0fb | l0ot
  | l1cfg | l1state | l1fb | l1ot
  | cvpoly | cvcap
deriving DecidableEq, Repr

/-- A host access at the port: a byte offset from the block's base address, a width in bytes and, for a write, the
value (20_memory.md rules R60 and R62). A write of fewer than 4 bytes stores the low bits of `value`. -/
inductive Access where
  | read (offset : Nat) (width : Nat)
  | write (offset : Nat) (width : Nat) (value : Word)
deriving DecidableEq, Repr

/-- The offset an access names. -/
def Access.offset : Access → Nat
  | .read o _ => o
  | .write o _ _ => o

/-- The width of an access, in bytes. -/
def Access.width : Access → Nat
  | .read _ w => w
  | .write _ w _ => w

/-- What can happen next at the block, other than a turn of the engine that a stall forces (40_command_control.md rule
R117): a host's access, the engine's own turn, or a hardware reset (70_reset_and_hazards.md rule R292). -/
inductive Input where
  | access (a : Access)
  | engineTurn
  | hardwareReset
deriving DecidableEq, Repr

end Sys2Proof
end

