-- ==== Sys2Proof/WellFormed.lean ====
section
/-! DEFINITION. Which command words are legal: the three conditions of 30_encoding.md rule R91, stated over the
word's fields (rule R90) and apart from the decoder. A term of `Instr` needs no check of its own: its one operand, the
unit, is a type with exactly the two legal values. -/

namespace Sys2Proof

/-- The opcodes of 30_encoding.md rule R92. -/
def opcodes : List Nat :=
  [0x00, 0x01, 0x02, 0x03, 0x04, 0x10, 0x11, 0x20, 0x21, 0x22, 0x28, 0x30, 0x31, 0x40, 0x41, 0x42, 0x43]

/-- The opcodes that use the unit field: LFSR_FIB_STEP, LFSR_FIB_GEN, LFSR_GAL_STEP and LFSR_GAL_GEN. -/
def unitOpcodes : List Nat := [0x01, 0x02, 0x03, 0x04]

/-- Rule R91 item 1: OP, bits [7:0], is an opcode of rule R92. -/
def opcodeKnown (w : Word) : Bool := opcodes.contains (w.toNat % 256)

/-- Rule R91 item 2: bits [31:9] are 0. -/
def reservedBitsZero (w : Word) : Bool := w.toNat / 512 == 0

/-- Rule R91 item 3: U, bit 8, is 0, or OP is an LFSR opcode. -/
def unitFieldAllowed (w : Word) : Bool := !w.getLsbD 8 || unitOpcodes.contains (w.toNat % 256)

/-- A legal command word (30_encoding.md rule R91). -/
def wordLegal (w : Word) : Bool := opcodeKnown w && reservedBitsZero w && unitFieldAllowed w

end Sys2Proof
end

