-- ==== Sys2Proof/Decode.lean ====
section
/-! DEFINITION. The decoder of command words and the encoder (30_encoding.md rules R90 to R95). Every word decodes to
one command or is rejected by name; there are no other formats, prefixes or modes (rule R94). -/

namespace Sys2Proof

/-- The unit a command word selects: bit 8 (rule R90). -/
def unitOfWord (w : Word) : UnitSel := if w.getLsbD 8 then .u1 else .u0

/-- A command without a unit: U must be 0 (rule R91 item 3). -/
def unitless (i : Instr) : UnitSel → Except DecodeReject Instr
  | .u0 => .ok i
  | .u1 => .error .unitOnUnitlessCommand

/-- The command of an opcode and a unit: the rows of rule R92. -/
def decodeOpcode (op : Nat) (u : UnitSel) : Except DecodeReject Instr :=
  match op with
  | 0x00 => unitless .nop u
  | 0x01 => .ok (.lfsrFibStep u)
  | 0x02 => .ok (.lfsrFibGen u)
  | 0x03 => .ok (.lfsrGalStep u)
  | 0x04 => .ok (.lfsrGalGen u)
  | 0x10 => unitless .rcgInfo u
  | 0x11 => unitless .rcgBuild u
  | 0x20 => unitless .bchParity u
  | 0x21 => unitless .bchEncode u
  | 0x22 => unitless .bchEncodeIl u
  | 0x28 => unitless .hamCheck u
  | 0x30 => unitless .convEncode u
  | 0x31 => unitless .convRelease u
  | 0x40 => unitless .muxDual u
  | 0x41 => unitless .muxAltboc u
  | 0x42 => unitless .altModidx u
  | 0x43 => unitless .altSegment u
  | _ => .error .unknownOpcode

/-- The decoder: total on every word (rules R90 and R91). -/
def decode (w : Word) : Except DecodeReject Instr :=
  if w.extractLsb' 9 23 = 0#23 then decodeOpcode (w.extractLsb' 0 8).toNat (unitOfWord w)
  else .error .reservedBitsSet

/-- Field U of a unit (rule R90). -/
def unitField : UnitSel → BitVec 1
  | .u0 => 0#1
  | .u1 => 1#1

/-- The opcode of a command (rule R92). -/
def opcodeOf : Instr → Byte
  | .nop => 0x00#8
  | .lfsrFibStep _ => 0x01#8
  | .lfsrFibGen _ => 0x02#8
  | .lfsrGalStep _ => 0x03#8
  | .lfsrGalGen _ => 0x04#8
  | .rcgInfo => 0x10#8
  | .rcgBuild => 0x11#8
  | .bchParity => 0x20#8
  | .bchEncode => 0x21#8
  | .bchEncodeIl => 0x22#8
  | .hamCheck => 0x28#8
  | .convEncode => 0x30#8
  | .convRelease => 0x31#8
  | .muxDual => 0x40#8
  | .muxAltboc => 0x41#8
  | .altModidx => 0x42#8
  | .altSegment => 0x43#8

/-- The unit operand of a command; U0 where it has none, since field U must then be 0 (rule R90). -/
def unitOf : Instr → UnitSel
  | .lfsrFibStep u => u
  | .lfsrFibGen u => u
  | .lfsrGalStep u => u
  | .lfsrGalGen u => u
  | .nop => .u0
  | .rcgInfo => .u0
  | .rcgBuild => .u0
  | .bchParity => .u0
  | .bchEncode => .u0
  | .bchEncodeIl => .u0
  | .hamCheck => .u0
  | .convEncode => .u0
  | .convRelease => .u0
  | .muxDual => .u0
  | .muxAltboc => .u0
  | .altModidx => .u0
  | .altSegment => .u0

/-- The command word of a command: zero [31:9], U [8], OP [7:0] (rule R90). -/
def encode (i : Instr) : Word := 0#23 ++ unitField (unitOf i) ++ opcodeOf i

/-- The decoder's answer on the bits `w` of a row of spec/opcode_table.json that gives `nbits` bits; every bit above is
0. A command is always one word (rule R94), bit 0 of the table being bit 0 of the word. -/
def decodeTableWord (nbits w : Nat) : Option Instr :=
  match decode (BitVec.ofNat 32 (w % 2 ^ nbits)) with
  | .ok i => some i
  | .error _ => none

end Sys2Proof
end

