-- ==== Sys2Proof/Config.lean ====
section
/-! DEFINITION. The parameters of 00_scope.md rule R6 as plain data, and the free values the spec leaves open.
The types carry the constraints the spec states, so that every value of `Params` is one the spec admits. -/

namespace Sys2Proof

/-! ### Signal descriptors (42_ranging.md rule R160) -/

/-- The G1 register of a descriptor. Tap lists hold 1-based stage numbers; `out = none` is "the last cell". -/
inductive RegCfg where
  /-- Fibonacci form. -/
  | fib (n : Nat) (seed : List Bool) (fb : List Int) (out : Option (List Int))
  /-- Galois form. -/
  | gal (n : Nat) (seed : Word) (mask : Word)
deriving DecidableEq, Repr, Inhabited

/-- The G2 register common to all satellites of a signal (rule R160). -/
structure G2Cfg where
  n : Nat
  fb : List Int
  seed : List Bool
deriving DecidableEq, Repr, Inhabited

/-- What one satellite adds to the common registers (rule R160). -/
inductive SatEntry where
  /-- No G2: the code is G1 alone. -/
  | single
  /-- G2 started from this satellite's own seed. -/
  | seed (v : List Bool)
  /-- G2 from the common seed, its output the XOR of these stages. -/
  | outTaps (t : List Int)
deriving DecidableEq, Repr, Inhabited

/-- A signal descriptor (rule R160): `len` is the spec's `L`, the code length in chips. -/
structure Descriptor where
  len : Nat
  g1 : RegCfg
  g1Segments : List Nat
  g2 : Option G2Cfg
  sats : List SatEntry
deriving DecidableEq, Repr, Inhabited

/-- One entry of the ROM table SIGNALS. A constructor per signal the document states facts about
(42_ranging.md rule R163) leaves open exactly what that rule leaves open; which signals a ROM holds, and in which
order, is open. DEDUCED, log 10. -/
inductive RomEntry where
  /-- BeiDou B1I: 37 satellites, all `OutTaps`, L = 2046. -/
  | b1i (g1 : RegCfg) (g1Segments : List Nat) (g2 : Option G2Cfg) (taps : Vector (List Int) 37)
  /-- BeiDou B3I: G1 segments 8190 and 2040, so L = 10230. -/
  | b3i (g1 : RegCfg) (g2 : Option G2Cfg) (sats : List SatEntry)
  /-- GLONASS L1OF: given whole but for the split of its G1 run. -/
  | l1of (g1Segments : List Nat)
  /-- NavIC L5SPS: named only. -/
  | l5sps (d : Descriptor)
  /-- Any other signal. -/
  | other (d : Descriptor)
deriving DecidableEq, Repr, Inhabited

/-! ### The other ROM tables -/

/-- A dual-component pattern set: 4 patterns of 12 int8 samples (00_scope.md rule R6, DUAL_PATSETS). -/
abbrev PatternSet := Vector (Vector Byte 12) 4

/-- An (I, Q) pair of int8: a modulation state, and so a sample of the AltBOC output (44_multiplexers.md rule R236). -/
structure IQ where
  i : Byte
  q : Byte
deriving DecidableEq, Repr, Inhabited

/-- The parameters of 00_scope.md rule R6. They are constant for the lifetime of a model (rule R7). -/
structure Params where
  /-- MEM_SIZE is a power of two from 2^16 to 2^24: `memLog` is the exponent less 16. -/
  memLog : Fin 9
  /-- SIGNALS, in ROM order. -/
  signals : List RomEntry
  /-- HAM_TABLES: T_1 .. T_7 as masks, position p (9..85) is bit p−9 (43_channel_coders.md rule R199). -/
  hamTables : Vector (BitVec 77) 7
  /-- DUAL_PATSETS[0]: NDUAL is at least 1 (92_eei_decisions.md, named parameters). -/
  dualFirst : PatternSet
  /-- The further entries of DUAL_PATSETS. -/
  dualRest : List PatternSet
  /-- ALT_STATES: 9 modulation states (44_multiplexers.md rule R236). -/
  altStates : Vector IQ 9
  /-- ALT_PHASE: 16 rows of 8 state indices, each 0..8 (44_multiplexers.md rule R236). -/
  altPhase : Vector (Vector (Fin 9) 8) 16
deriving DecidableEq, Repr, Inhabited

/-- MEM_SIZE (00_scope.md rule R6). -/
def Params.memSize (p : Params) : Nat := 2 ^ (16 + p.memLog.val)

/-- DUAL_PATSETS as a list. -/
def Params.dualPatsets (p : Params) : List PatternSet := p.dualFirst :: p.dualRest

/-! ### Values the spec leaves open -/

/-- The parameters of the hardware: OPEN (00_scope.md rule R6), so without a body. DESIGN CHOICE, log 1; safe. -/
opaque Config.params : Params

/-- What the n-th read of an undefined MEM byte returns: "a draw of any value 0..255, made independently for each
byte and each read" (20_memory.md rule R67). A free value, log 2; safe. -/
opaque Config.freeByte : Nat → Byte

/-- What a 32-bit register shows of a ROM count that does not fit in 32 bits: the spec states no value.
DESIGN CHOICE, log 7; safe. -/
opaque Config.unrepresentable : Nat → Word

end Sys2Proof
end

