-- ==== Sys2Proof/Machine/State.lean ====
section
/-! DEFINITION. The state of the block as plain data (10_state.md), the faults and refusals, and the state after
hardware reset (70_reset_and_hazards.md rules R290 and R292). Register bits the spec calls reserved have no storage
(93_implementation_defined.md entry I16): a register with reserved bits is held as its fields. -/

namespace Sys2Proof.Machine

/-- LnCFG (10_state.md rule R31): the register size N, bits [5:0], and the output-tap enable OTEN, bit 8. -/
structure LfsrCfg where
  n : BitVec 6
  oten : Bool
deriving DecidableEq, Repr

/-- An LFSR unit: LnCFG, LnSTATE, LnFB and LnOT (10_state.md rules R30 to R34). -/
structure LfsrUnit where
  cfg : LfsrCfg
  state : Word
  fb : Word
  ot : Word
deriving DecidableEq, Repr

/-- CVPOLY (10_state.md rule R35): GA bits [6:0], GB bits [14:8], INVA bit 16, INVB bit 17. -/
structure CvPoly where
  ga : BitVec 7
  gb : BitVec 7
  inva : Bool
  invb : Bool
deriving DecidableEq, Repr

/-- CVCAP (10_state.md rule R36): VALID bit 31, STATE bits [5:0]. -/
structure CvCap where
  valid : Bool
  state : BitVec 6
deriving DecidableEq, Repr

/-- ARG0 to ARG7 (10_state.md rule R28). -/
structure Args where
  a0 : Word
  a1 : Word
  a2 : Word
  a3 : Word
  a4 : Word
  a5 : Word
  a6 : Word
  a7 : Word
deriving DecidableEq, Repr

/-- RES0 to RES3 (10_state.md rule R29). -/
structure Results where
  r0 : Word
  r1 : Word
  r2 : Word
  r3 : Word
deriving DecidableEq, Repr

/-- The stored fields of STATUS (10_state.md rule R26). BUSY is not stored: it is 1 exactly while the engine is
`running` (rule R21). -/
structure Status where
  done : Bool
  err : Bool
  overrun : Bool
  errcode : Byte
deriving DecidableEq, Repr

/-- The registers copied when a command is accepted (40_command_control.md rule R111). -/
structure Snapshot where
  args : Args
  u0 : LfsrUnit
  u1 : LfsrUnit
  cvpoly : CvPoly
deriving DecidableEq, Repr

/-- The engine (10_state.md rule R21): no command, or the accepted command word with its snapshot. -/
inductive Engine where
  | idle
  | running (w : Word) (snap : Snapshot)
deriving DecidableEq, Repr

/-- The error codes of a command (60_exceptions.md rule R261). -/
inductive CmdError where
  | opcode | index | size | seed | tap | desc | oddLen | capIdx | range | bitVal
deriving DecidableEq, Repr

/-- MEM as the list of its defined bytes, addresses strictly rising. An address that is not listed holds an
`undefined` byte (10_state.md rule R40): it reads as a fresh free value, never as a listed one, so no entry can equal
what an unlisted address reads as. -/
abbrev Memory := List Host.Cell

/-- Why the port refuses an access: the items of 20_memory.md rule R62. -/
inductive BusError where
  /-- A register-window access that is not 32-bit at a multiple of 4. -/
  | registerAccess
  /-- A MEM-window access whose width is not 1, 2 or 4 bytes. -/
  | memWidth
  /-- A MEM-window access of width 2 or 4 at an address that is no multiple of it. -/
  | memAlignment
  /-- A MEM-window access that reaches past MEM address MEM_SIZE−1. -/
  | memRange
  /-- An access at an offset in neither window. -/
  | noWindow
deriving DecidableEq, Repr

/-- The faults of a host's step. A fault is recorded as the answer of the access that made it and stops neither the
block nor the engine (60_exceptions.md rule R260), so no step of the machine ends in one. -/
inductive Fault where
  /-- Raised by the port: it refused the host access `a` for the reason `why`; "a bus error is a fault of the host
  access that made it", changes no state and "is recorded" (20_memory.md rule R62). Safe, log 5. -/
  | busError (why : BusError) (a : Access)
deriving DecidableEq, Repr

/-- What the port answers to an access: a read's data, zero-extended to a word, a write's acknowledgement, or the
fault of an access it refuses, which returns no data. -/
inductive Response where
  | data (v : Word)
  | written
  | fault (f : Fault)
deriving DecidableEq, Repr

/-- How an instruction can be without a meaning. -/
inductive Refusal where
  /-- Raised by `exec` for an instruction whose meaning is not written yet; no arm uses it. Safe. -/
  | notModelled (mnemonic : String)
deriving DecidableEq, Repr

/-- The whole machine. The first fields are the block's state; `params`, `draws`, `inputs` and `responses` are the
model's own (INVENTORY.md, '## State'). -/
@[ext]
structure State where
  /-- The engine (10_state.md rule R21), with the snapshot while it runs (rule R42). -/
  engine : Engine
  /-- STATUS less BUSY (rule R26). -/
  status : Status
  /-- CMD's read value (rule R27). -/
  cmd : Word
  /-- ARG0 to ARG7 (rule R28). -/
  args : Args
  /-- RES0 to RES3 (rule R29). -/
  res : Results
  /-- LFSR unit U0 (rule R30). -/
  u0 : LfsrUnit
  /-- LFSR unit U1 (rule R30). -/
  u1 : LfsrUnit
  /-- CVPOLY (rule R35). -/
  cvpoly : CvPoly
  /-- CVCAP (rule R36). -/
  cvcap : CvCap
  /-- MEM (rule R40). -/
  mem : Memory
  /-- The model's own: the parameters of 00_scope.md rule R6, which no step changes (rule R7). Log 1. -/
  params : Params
  /-- The model's own: how many undefined bytes have been read. Log 2. -/
  draws : Nat
  /-- The model's own: what is still to happen at the port, in order. Log 3. -/
  inputs : List Input
  /-- The model's own: what the port has answered, newest first. Log 6. -/
  responses : List Response
deriving DecidableEq, Repr

/-- An LFSR unit after reset: all registers 0 (10_state.md rule R23). -/
def LfsrUnit.reset : LfsrUnit := ⟨⟨0#6, false⟩, 0#32, 0#32, 0#32⟩

/-- ARG0 to ARG7 after reset. -/
def Args.reset : Args := ⟨0#32, 0#32, 0#32, 0#32, 0#32, 0#32, 0#32, 0#32⟩

/-- RES0 to RES3 after reset. -/
def Results.reset : Results := ⟨0#32, 0#32, 0#32, 0#32⟩

/-- STATUS after reset. -/
def Status.reset : Status := ⟨false, false, false, 0#8⟩

/-- CVPOLY after reset. -/
def CvPoly.reset : CvPoly := ⟨0#7, 0#7, false, false⟩

/-- CVCAP after reset. -/
def CvCap.reset : CvCap := ⟨false, 0#6⟩

/-- The machine after hardware reset: every register at its reset value, the engine idle, every MEM byte undefined
(70_reset_and_hazards.md rules R290 and R292). The model's own fields: `params` is the open parameter; no draw made,
no input waiting, no response given (DESIGN CHOICE, logs 1, 2, 3 and 6). -/
def State.reset : State where
  engine := .idle
  status := Status.reset
  cmd := 0#32
  args := Args.reset
  res := Results.reset
  u0 := LfsrUnit.reset
  u1 := LfsrUnit.reset
  cvpoly := CvPoly.reset
  cvcap := CvCap.reset
  mem := []
  params := Config.params
  draws := 0
  inputs := []
  responses := []

end Sys2Proof.Machine
end

