-- ==== Sys2Proof/Machine/Operands.lean ====
section
/-! DEFINITION. The value operations every command shares: parity and masks (00_scope.md rule R8), signed chips (rule
R9), the decoding of input bytes and the encoding of output bytes (20_memory.md rules R75 and R76), the legality of a
MEM region (rule R69) and a bit operand's reserved part (30_encoding.md rule R96). -/

namespace Sys2Proof.Machine

/-- The XOR of the low `k` bits of `v`. -/
def parityBelow (v : BitVec n) : Nat → Bool
  | 0 => false
  | k + 1 => v.getLsbD k ^^ parityBelow v k

/-- `parity(v)`: the XOR of all bits of `v` (00_scope.md rule R8). -/
def parity (v : BitVec n) : Bool := parityBelow v n

/-- `mask(N) = 2^N − 1` (00_scope.md rule R8). -/
def maskBits (n : Nat) : Word := BitVec.ofNat 32 (2 ^ n - 1)

/-- A bit as a word, `zext_32`. -/
def bitWord (b : Bool) : Word := if b then 1#32 else 0#32

/-- A bit as an output byte: 0x00 or 0x01 (20_memory.md rule R76). -/
def bitByte (b : Bool) : Byte := if b then 0x01#8 else 0x00#8

/-- A bit as a signed chip, `chip(b) = 2·b − 1`: +1 is 0x01, −1 is 0xFF (00_scope.md rule R9). -/
def chipByte (b : Bool) : Byte := if b then 0x01#8 else 0xFF#8

/-- `BitIn`: 0x00 and 0xFF read as 0, 0x01 as 1; any other byte is not a bit (20_memory.md rule R75). -/
def bitIn (b : Byte) : Option Bool :=
  if b = 0x00#8 then some false
  else if b = 0x01#8 then some true
  else if b = 0xFF#8 then some false
  else none

/-- `BitIn` of every byte of an input: none when one byte is not a bit, which is E_BITVAL (20_memory.md rule R75). -/
def bitsIn : List Byte → Option (List Bool)
  | [] => some []
  | b :: bs =>
    match bitIn b, bitsIn bs with
    | some x, some xs => some (x :: xs)
    | _, _ => none

/-- `Legal(addr, n)`: the region is empty or ends within MEM, over unbounded integers (20_memory.md rule R69). -/
def legal (memSize addr n : Nat) : Bool := n == 0 || decide (addr + n ≤ memSize)

/-- A count the ROM gives, as a 32-bit register shows it. The spec states no value for one that does not fit: a free
value, log 7. -/
def countWord (k : Nat) : Word := if k < 2 ^ 32 then BitVec.ofNat 32 k else Config.unrepresentable k

/-- `seedWord(v) = Σ v[k]·2^k` (42_ranging.md rule R162). -/
def seedWord : List Bool → Word
  | [] => 0#32
  | b :: bs => (seedWord bs <<< 1) ||| bitWord b

/-- `tapMask(t)`: the OR of 2^(p−1) over the taps p (42_ranging.md rule R162). -/
def tapMask : List Int → Word
  | [] => 0#32
  | p :: ps => (1#32 <<< (p - 1).toNat) ||| tapMask ps

/-- The register size N of a unit as a number. -/
def LfsrCfg.size (c : LfsrCfg) : Nat := c.n.toNat

/-- The unit a selector names, in a snapshot. -/
def Snapshot.unit (sn : Snapshot) : UnitSel → LfsrUnit
  | .u0 => sn.u0
  | .u1 => sn.u1

end Sys2Proof.Machine
end

