-- ==== Sys2Proof/Machine/Flags.lean ====
section
/-! DEFINITION. STATUS, the block's only flags: every update of 10_state.md rule R26, and the error codes of
60_exceptions.md rule R261. -/

namespace Sys2Proof.Machine

/-- The numeric error codes (60_exceptions.md rule R261). -/
def CmdError.code : CmdError → Byte
  | .opcode => 1#8
  | .index => 2#8
  | .size => 3#8
  | .seed => 4#8
  | .tap => 5#8
  | .desc => 6#8
  | .oddLen => 7#8
  | .capIdx => 8#8
  | .range => 9#8
  | .bitVal => 10#8

/-- BUSY: 1 exactly while the engine is `running` (10_state.md rule R21). -/
def Engine.busy : Engine → Bool
  | .idle => false
  | .running _ _ => true

/-- STATUS after a command is accepted: DONE, ERR and ERRCODE cleared, OVERRUN kept (40_command_control.md rule
R110). -/
def Status.accepted (st : Status) : Status := ⟨false, false, st.overrun, 0#8⟩

/-- STATUS after a command completes without error: DONE set, ERR and ERRCODE 0 (40_command_control.md rule R113;
10_state.md rule R26). DEDUCED, log 15. -/
def Status.completed (st : Status) : Status := ⟨true, false, st.overrun, 0#8⟩

/-- STATUS after a command completes with error `e` (60_exceptions.md rule R262). -/
def Status.failed (st : Status) (e : CmdError) : Status := ⟨true, true, st.overrun, e.code⟩

/-- STATUS after a CMD write was dropped (40_command_control.md rule R112). -/
def Status.overran (st : Status) : Status := { st with overrun := true }

/-- STATUS after CTRL.CLR: DONE, ERR, OVERRUN and ERRCODE cleared (60_exceptions.md rule R265). -/
def Status.cleared (_ : Status) : Status := ⟨false, false, false, 0#8⟩

/-- The word a host reads from STATUS: BUSY 0, DONE 1, ERR 2, OVERRUN 3, ERRCODE [15:8], all other bits 0 (10_state.md
rule R26). -/
def Status.word (st : Status) (busy : Bool) : Word :=
  0#16 ++ st.errcode ++ 0#4 ++ BitVec.ofBool st.overrun ++ BitVec.ofBool st.err ++ BitVec.ofBool st.done
    ++ BitVec.ofBool busy

end Sys2Proof.Machine
end

