-- ==== Sys2Proof/Machine/Ops.lean ====
section
/-! DEFINITION. The shared operations: MEM byte by byte (20_memory.md), the snapshot (40_command_control.md rule R111),
accepting, overrunning and completing a command (rules R110 to R113), and the two resets (70_reset_and_hazards.md
rules R291 and R292). Completing with an error is the block's only counterpart of taking an exception; nothing returns
from one (60_exceptions.md rules R268 and R269). -/

namespace Sys2Proof.Machine

/-! ### MEM -/

/-- The byte at an address; none for an `undefined` byte (10_state.md rule R40). -/
def Memory.peek : Memory → Nat → Option Byte
  | [], _ => none
  | (k, b) :: m, a => if k = a then some b else Memory.peek m a

/-- Store one byte, keeping the addresses rising. -/
def Memory.poke : Memory → Nat → Byte → Memory
  | [], a, b => [(a, b)]
  | (k, c) :: m, a, b =>
    if a < k then (a, b) :: (k, c) :: m
    else if a = k then (a, b) :: m
    else (k, c) :: Memory.poke m a b

/-- `MemWrite`: store a sequence of bytes at consecutive addresses (00_scope.md rule R10). -/
def Memory.pokes : Memory → Nat → List Byte → Memory
  | m, _, [] => m
  | m, a, b :: bs => Memory.pokes (Memory.poke m a b) (a + 1) bs

/-- The canonical form: addresses strictly rising and below MEM_SIZE. -/
def Memory.wf (memSize : Nat) (m : Memory) : Bool :=
  decide (m.Pairwise (fun x y => x.1 < y.1)) && m.all (fun c => decide (c.1 < memSize))

/-- Read one byte. An undefined byte is a draw, and each draw is a new one: `d` counts them (20_memory.md rule
R67). -/
def readByte (m : Memory) (d a : Nat) : Byte × Nat :=
  match m.peek a with
  | some b => (b, d)
  | none => (Config.freeByte d, d + 1)

/-- `MemRead`: read `n` bytes at consecutive addresses, lowest first (00_scope.md rule R10). -/
def readBytes (m : Memory) (d a : Nat) : Nat → List Byte × Nat
  | 0 => ([], d)
  | n + 1 =>
    ((readByte m d a).1 :: (readBytes m (readByte m d a).2 (a + 1) n).1, (readBytes m (readByte m d a).2 (a + 1) n).2)

/-- Bytes as a little-endian word: byte i is bits [8i+7:8i] (20_memory.md rule R64). -/
def wordOfBytes : List Byte → Word
  | [] => 0#32
  | b :: bs => (wordOfBytes bs <<< 8) ||| b.setWidth 32

/-- The low `n` bytes of a word, little-endian (20_memory.md rule R64). -/
def bytesOfWord (v : Word) : Nat → List Byte
  | 0 => []
  | n + 1 => v.setWidth 8 :: bytesOfWord (v >>> 8) n

/-! ### The snapshot -/

/-- The registers a command's acceptance copies (40_command_control.md rule R111). -/
def State.takeSnapshot (s : State) : Snapshot := ⟨s.args, s.u0, s.u1, s.cvpoly⟩

/-- The operands of the command that completes: the snapshot taken at its acceptance (rule R111). With an idle engine,
where no step completes a command, the registers as they stand. DESIGN CHOICE, log 4; safe. -/
def State.snap (s : State) : Snapshot :=
  match s.engine with
  | .running _ sn => sn
  | .idle => s.takeSnapshot

/-! ### Issue -/

/-- Accept command word `w` (40_command_control.md rule R110). The word is not checked. -/
def State.accept (s : State) (w : Word) : State :=
  { s with engine := .running w s.takeSnapshot, status := s.status.accepted, cmd := w }

/-- Drop a command word written while BUSY (40_command_control.md rule R112). -/
def State.overrun (s : State) : State := { s with status := s.status.overran }

/-! ### Completion -/

/-- The staged writes of a command (40_command_control.md rule R113): MEM regions in the order they are written, result
registers, LuSTATE and CVCAP. What is not listed keeps its value (10_state.md rule R29). -/
structure Writes where
  mem : List (Nat × List Byte) := []
  r0 : Option Word := none
  r1 : Option Word := none
  r2 : Option Word := none
  r3 : Option Word := none
  unit : Option (UnitSel × Word) := none
  cvcap : Option CvCap := none
deriving DecidableEq, Repr

/-- What `Exec` returns: an error or the staged writes (40_command_control.md rule R114). -/
abbrev ExecResult := Except CmdError Writes

/-- Apply staged MEM regions in order: where they overlap the later write wins (20_memory.md rule R71). -/
def Memory.commit : Memory → List (Nat × List Byte) → Memory
  | m, [] => m
  | m, (a, bs) :: rest => Memory.commit (Memory.pokes m a bs) rest

/-- Replace LuSTATE of unit U0 if the staged write names it. -/
def LfsrUnit.commit (u : LfsrUnit) (sel : UnitSel) (w : Option (UnitSel × Word)) : LfsrUnit :=
  match w with
  | some (sel', v) => if sel' = sel then { u with state := v } else u
  | none => u

/-- Complete without error: every staged write and STATUS in one step, and the engine is idle
(40_command_control.md rule R113). -/
def State.commit (s : State) (w : Writes) : State :=
  { s with
    engine := .idle
    status := s.status.completed
    res := ⟨w.r0.getD s.res.r0, w.r1.getD s.res.r1, w.r2.getD s.res.r2, w.r3.getD s.res.r3⟩
    u0 := s.u0.commit .u0 w.unit
    u1 := s.u1.commit .u1 w.unit
    cvcap := w.cvcap.getD s.cvcap
    mem := s.mem.commit w.mem }

/-- Complete with error `e`: STATUS only, and the engine is idle (40_command_control.md rule R113; 60_exceptions.md
rules R262 and R263). -/
def State.fail (s : State) (e : CmdError) : State :=
  { s with engine := .idle, status := s.status.failed e }

/-- Complete (40_command_control.md rule R113). -/
def State.complete (s : State) (r : ExecResult) : State :=
  match r with
  | .ok w => s.commit w
  | .error e => s.fail e

/-- Complete a command that read MEM: the draws it made of undefined bytes are spent, with or without error
(60_exceptions.md rule R266: "a fresh draw each time"). -/
def State.completeDrawing (s : State) (r : ExecResult × Nat) : State := { s.complete r.1 with draws := r.2 }

/-! ### Reset -/

/-- Soft reset: every register takes its reset value, a running command is discarded, MEM is unchanged
(70_reset_and_hazards.md rule R291). The parameters and the model's own fields stay. -/
def State.softReset (s : State) : State :=
  { s with
    engine := .idle
    status := Status.reset
    cmd := 0#32
    args := Args.reset
    res := Results.reset
    u0 := LfsrUnit.reset
    u1 := LfsrUnit.reset
    cvpoly := CvPoly.reset
    cvcap := CvCap.reset }

/-- Hardware reset: a soft reset, and every MEM byte becomes undefined (70_reset_and_hazards.md rule R292). -/
def State.hardReset (s : State) : State := { s.softReset with mem := [] }

end Sys2Proof.Machine
end

