-- ==== Sys2Proof/Machine/Coders.lean ====
section
/-! DEFINITION. The channel coders: BCH(15,11), the Hamming-style check bits and the rate-1/2 convolutional encoder
(43_channel_coders.md). -/

namespace Sys2Proof.Machine

/-! ### BCH(15,11) -/

/-- The four one-bit cells `reg[0..3]` (43_channel_coders.md rule R190). -/
structure BchReg where
  r0 : Bool
  r1 : Bool
  r2 : Bool
  r3 : Bool
deriving DecidableEq, Repr

/-- `BchShift(reg, bit)`: the assignments of rule R190 in the order written, as the simultaneous update that rule
derives from them. -/
def bchShift (r : BchReg) (b : Bool) : BchReg := ⟨b ^^ r.r3, (b ^^ r.r3) ^^ r.r0, r.r1, r.r2⟩

/-- The register after data bits 0 to k−1, data[0] first, started at 0000 (rules R190 and R191). -/
def bchRun (a : BitVec 11) : Nat → BchReg
  | 0 => ⟨false, false, false, false⟩
  | k + 1 => bchShift (bchRun a k) (a.getLsbD k)

/-- The parity nibble: p0 = reg[3] at bit 0, p3 = reg[0] at bit 3 (rule R192). -/
def BchReg.parityBits (r : BchReg) : BitVec 4 :=
  BitVec.ofBool r.r0 ++ BitVec.ofBool r.r1 ++ BitVec.ofBool r.r2 ++ BitVec.ofBool r.r3

/-- The four parity bits of 11 data bits (rules R191 and R192). -/
def bchParity (a : BitVec 11) : BitVec 4 := (bchRun a 11).parityBits

/-- `Encode(data[11])`: bits [10:0] the data, bits [14:11] the parity (rule R194). -/
def bchCodeword (a : BitVec 11) : BitVec 15 := bchParity a ++ a

/-- Interleave bit by bit, word A first: the low `2·k` bits (rule R196). -/
def interleave (a b : BitVec 15) : Nat → Word
  | 0 => 0#32
  | k + 1 => interleave a b k ||| (bitWord (a.getLsbD k) <<< (2 * k)) ||| (bitWord (b.getLsbD k) <<< (2 * k + 1))

/-- `Exec` of BCH_PARITY (rule R193). -/
def runBchParity (a : Args) : ExecResult :=
  if a.a0 >>> 11 ≠ 0#32 then .error .bitVal
  else .ok { r0 := some ((bchParity (a.a0.setWidth 11)).setWidth 32) }

/-- `Exec` of BCH_ENCODE (rule R195). -/
def runBchEncode (a : Args) : ExecResult :=
  if a.a0 >>> 11 ≠ 0#32 then .error .bitVal
  else .ok { r0 := some ((bchCodeword (a.a0.setWidth 11)).setWidth 32) }

/-- `Exec` of BCH_ENCODE_IL (rule R197): each half from a fresh register. -/
def runBchEncodeIl (a : Args) : ExecResult :=
  if a.a0 >>> 22 ≠ 0#32 then .error .bitVal
  else .ok { r0 := some (interleave (bchCodeword (a.a0.extractLsb' 0 11)) (bchCodeword (a.a0.extractLsb' 11 11)) 15) }

/-- BCH_PARITY: `GetParityBits(data[11])` (43_channel_coders.md rule R193). -/
def execBchParity (s : State) : Host.Outcome State Fault Refusal := .next (s.complete (runBchParity s.snap.args))

/-- BCH_ENCODE: `Encode(data[11])` (43_channel_coders.md rule R195). -/
def execBchEncode (s : State) : Host.Outcome State Fault Refusal := .next (s.complete (runBchEncode s.snap.args))

/-- BCH_ENCODE_IL: `EncodeInterleaved(data[22])` (43_channel_coders.md rule R197). -/
def execBchEncodeIl (s : State) : Host.Outcome State Fault Refusal := .next (s.complete (runBchEncodeIl s.snap.args))

/-! ### Hamming-style check bits -/

/-- The message of 77 bits, position p at bit p−9 of {ARG2, ARG1, ARG0} (43_channel_coders.md rule R199). -/
def hamMessage (a : Args) : BitVec 77 := (a.a2 ++ a.a1 ++ a.a0).extractLsb' 0 77

/-- c_1 .. c_7 at bits 0 .. 6: the parity of the message bits each table selects (rule R200). -/
def hamTableBits (tables : Vector (BitVec 77) 7) (m : BitVec 77) : BitVec 7 :=
  BitVec.ofBool (parity (m &&& tables[6])) ++ BitVec.ofBool (parity (m &&& tables[5]))
    ++ BitVec.ofBool (parity (m &&& tables[4])) ++ BitVec.ofBool (parity (m &&& tables[3]))
    ++ BitVec.ofBool (parity (m &&& tables[2])) ++ BitVec.ofBool (parity (m &&& tables[1]))
    ++ BitVec.ofBool (parity (m &&& tables[0]))

/-- The 8 check bits: c_8 is the overall parity of the message and c_1 .. c_7, at bit 7 (rules R200 and R201). -/
def hamCheckBits (tables : Vector (BitVec 77) 7) (m : BitVec 77) : Byte :=
  BitVec.ofBool (parity m ^^ parity (hamTableBits tables m)) ++ hamTableBits tables m

/-- `Exec` of HAM_CHECK (rule R201). -/
def runHamCheck (p : Params) (a : Args) : ExecResult :=
  if a.a2 >>> 13 ≠ 0#32 then .error .bitVal
  else .ok { r0 := some ((hamCheckBits p.hamTables (hamMessage a)).setWidth 32) }

/-- HAM_CHECK: `GetCheckBits(message)` (43_channel_coders.md rule R201). -/
def execHamCheck (s : State) : Host.Outcome State Fault Refusal :=
  .next (s.complete (runHamCheck s.params s.snap.args))

/-! ### Convolutional encoder -/

/-- `ConvStep(S, b)`: the two symbols and the next state (43_channel_coders.md rule R205). `S.concat b` is the 7-bit
window W: bit 0 the current input, bit j the input j steps ago. -/
def convStep (p : CvPoly) (s : BitVec 6) (b : Bool) : (Bool × Bool) × BitVec 6 :=
  ((parity (s.concat b &&& p.ga) ^^ p.inva, parity (s.concat b &&& p.gb) ^^ p.invb), (s.concat b).setWidth 6)

/-- The symbols of an input sequence, A then B for each bit, and the state after it (rules R205 and R206). -/
def convRun (p : CvPoly) (s : BitVec 6) : List Bool → List Bool × BitVec 6
  | [] => ([], s)
  | b :: bs =>
    ((convStep p s b).1.1 :: (convStep p s b).1.2 :: (convRun p (convStep p s b).2 bs).1,
     (convRun p (convStep p s b).2 bs).2)

/-- The captured state at index k: the state after input bits 0 to k (rule R207). -/
def convCapture (p : CvPoly) (s : BitVec 6) (bits : List Bool) (k : Nat) : BitVec 6 :=
  (convRun p s (bits.take (k + 1))).2

/-- The writes of a CONV_ENCODE over the input bits `bits` (rule R211). -/
def convWrites (p : CvPoly) (a : Args) (bits : List Bool) : Writes :=
  { mem := [(a.a2.toNat, (convRun p (a.a4.setWidth 6) bits).1.map bitByte)]
    r0 := some ((convRun p (a.a4.setWidth 6) bits).2.setWidth 32)
    r1 := some (BitVec.ofNat 32 (2 * a.a1.toNat))
    cvcap := some ⟨true, convCapture p (a.a4.setWidth 6) bits a.a3.toNat⟩ }

/-- `Exec` of CONV_ENCODE with the draws made (rule R211): the checks of the operands, then the input bytes. -/
def runConvEncode (memSize : Nat) (m : Memory) (d : Nat) (p : CvPoly) (a : Args) : ExecResult × Nat :=
  if a.a4 >>> 6 ≠ 0#32 then (.error .seed, d)
  else if a.a3.toNat ≥ a.a1.toNat then (.error .capIdx, d)
  else if ¬(legal memSize a.a0.toNat a.a1.toNat ∧ legal memSize a.a2.toNat (2 * a.a1.toNat)) then (.error .range, d)
  else
    (match bitsIn (readBytes m d a.a0.toNat a.a1.toNat).1 with
     | none => .error .bitVal
     | some bits => .ok (convWrites p a bits),
     (readBytes m d a.a0.toNat a.a1.toNat).2)

/-- CONV_ENCODE: encode an input bit sequence and capture the state (43_channel_coders.md rule R211). -/
def execConvEncode (s : State) : Host.Outcome State Fault Refusal :=
  .next (s.completeDrawing (runConvEncode s.params.memSize s.mem s.draws s.snap.cvpoly s.snap.args))

/-- CONV_RELEASE: CVCAP <- 0 (43_channel_coders.md rule R214). -/
def execConvRelease (s : State) : Host.Outcome State Fault Refusal :=
  .next (s.commit { cvcap := some CvCap.reset })

end Sys2Proof.Machine
end

