-- ==== Sys2Proof/Machine/Control.lean ====
section
/-! DEFINITION. NOP (40_command_control.md rule R119). -/

namespace Sys2Proof.Machine

/-- NOP: `return Ok([])` (40_command_control.md rule R119). -/
def execNop (s : State) : Host.Outcome State Fault Refusal := .next (s.commit {})

end Sys2Proof.Machine
end

