-- ==== Sys2Proof/Machine/Lfsr.lean ====
section
/-! DEFINITION. The shift-register engine: the two step functions, generation, and the four LFSR commands
(41_lfsr.md). -/

namespace Sys2Proof.Machine

/-- `FibStep(N, S, FB, OT, OTEN)`: the output and the next state, both from the state before the shift (41_lfsr.md
rule R131). -/
def fibStep (n : Nat) (fb ot : Word) (oten : Bool) (s : Word) : Bool × Word :=
  (if oten then parity (s &&& ot) else s.getLsbD (n - 1),
   ((s <<< 1) ||| bitWord (parity (s &&& fb))) &&& maskBits n)

/-- `GalStep(S, M)`: the output is bit 0; the register shifts right and a 1 shifted out XORs the mask in (41_lfsr.md
rule R135). -/
def galStep (mask : Word) (s : Word) : Bool × Word :=
  (s.getLsbD 0, if s.getLsbD 0 then (s >>> 1) ^^^ mask else s >>> 1)

/-- `Gen(Step, S, c)`: the outputs of `c` successive steps and the state after the last (41_lfsr.md rule R137). -/
def gen (step : Word → Bool × Word) (s : Word) : Nat → List Bool × Word
  | 0 => ([], s)
  | c + 1 => ((step s).1 :: (gen step (step s).2 c).1, (gen step (step s).2 c).2)

/-- The step function of a unit in Fibonacci form. -/
def LfsrUnit.fibStep (u : LfsrUnit) : Word → Bool × Word :=
  Sys2Proof.Machine.fibStep u.cfg.size u.fb u.ot u.cfg.oten

/-- The step function of a unit in Galois form: the mask is LuFB as written (41_lfsr.md rule R136). -/
def LfsrUnit.galStep (u : LfsrUnit) : Word → Bool × Word := Sys2Proof.Machine.galStep u.fb

/-- The register-size, seed and feedback-tap checks of both forms, in their order (41_lfsr.md rules R132 to R134). -/
def LfsrUnit.galCheck (u : LfsrUnit) : Option CmdError :=
  if ¬(1 ≤ u.cfg.size ∧ u.cfg.size ≤ 32) then some .size
  else if u.state >>> u.cfg.size ≠ 0#32 then some .seed
  else if u.fb >>> u.cfg.size ≠ 0#32 then some .tap
  else none

/-- The checks of a Fibonacci command: the output taps too, when OTEN is 1 (41_lfsr.md rule R134). -/
def LfsrUnit.fibCheck (u : LfsrUnit) : Option CmdError :=
  match u.galCheck with
  | some e => some e
  | none => if u.cfg.oten = true ∧ u.ot >>> u.cfg.size ≠ 0#32 then some .tap else none

/-- One step of a unit as a command: RES0 is the output, LuSTATE the next state (41_lfsr.md rule R141). -/
def lfsrStepWrites (sel : UnitSel) (r : Bool × Word) : Writes :=
  { r0 := some (bitWord r.1), unit := some (sel, r.2) }

/-- A run of `count` outputs as a command: the bytes 0x00/0x01 at `dst`, RES0 the count, LuSTATE the state after the
last step (41_lfsr.md rules R141 and R142). -/
def lfsrGenWrites (sel : UnitSel) (dst count : Word) (r : List Bool × Word) : Writes :=
  { mem := [(dst.toNat, r.1.map bitByte)], r0 := some count, unit := some (sel, r.2) }

/-- `Exec` of LFSR_FIB_STEP (41_lfsr.md rule R140). -/
def runLfsrFibStep (sel : UnitSel) (u : LfsrUnit) : ExecResult :=
  match u.fibCheck with
  | some e => .error e
  | none => .ok (lfsrStepWrites sel (u.fibStep u.state))

/-- `Exec` of LFSR_FIB_GEN (41_lfsr.md rule R142). -/
def runLfsrFibGen (sel : UnitSel) (u : LfsrUnit) (memSize : Nat) (dst count : Word) : ExecResult :=
  match u.fibCheck with
  | some e => .error e
  | none =>
    if legal memSize dst.toNat count.toNat then
      .ok (lfsrGenWrites sel dst count (gen u.fibStep u.state count.toNat))
    else .error .range

/-- `Exec` of LFSR_GAL_STEP (41_lfsr.md rule R145). -/
def runLfsrGalStep (sel : UnitSel) (u : LfsrUnit) : ExecResult :=
  match u.galCheck with
  | some e => .error e
  | none => .ok (lfsrStepWrites sel (u.galStep u.state))

/-- `Exec` of LFSR_GAL_GEN (41_lfsr.md rule R147). -/
def runLfsrGalGen (sel : UnitSel) (u : LfsrUnit) (memSize : Nat) (dst count : Word) : ExecResult :=
  match u.galCheck with
  | some e => .error e
  | none =>
    if legal memSize dst.toNat count.toNat then
      .ok (lfsrGenWrites sel dst count (gen u.galStep u.state count.toNat))
    else .error .range

/-- LFSR_FIB_STEP: one Fibonacci step on unit `u` (41_lfsr.md rule R140). -/
def execLfsrFibStep (u : UnitSel) (s : State) : Host.Outcome State Fault Refusal :=
  .next (s.complete (runLfsrFibStep u (s.snap.unit u)))

/-- LFSR_FIB_GEN: `count` Fibonacci outputs into MEM (41_lfsr.md rule R142). -/
def execLfsrFibGen (u : UnitSel) (s : State) : Host.Outcome State Fault Refusal :=
  .next (s.complete (runLfsrFibGen u (s.snap.unit u) s.params.memSize s.snap.args.a0 s.snap.args.a1))

/-- LFSR_GAL_STEP: one Galois step on unit `u` (41_lfsr.md rule R145). -/
def execLfsrGalStep (u : UnitSel) (s : State) : Host.Outcome State Fault Refusal :=
  .next (s.complete (runLfsrGalStep u (s.snap.unit u)))

/-- LFSR_GAL_GEN: `count` Galois outputs into MEM (41_lfsr.md rule R147). -/
def execLfsrGalGen (u : UnitSel) (s : State) : Host.Outcome State Fault Refusal :=
  .next (s.complete (runLfsrGalGen u (s.snap.unit u) s.params.memSize s.snap.args.a0 s.snap.args.a1))

end Sys2Proof.Machine
end

