-- ==== Sys2Proof/Machine/Mux.lean ====
section
/-! DEFINITION. The modulation multiplexers: the dual-component BOC multiplexer and AltBOC (44_multiplexers.md). -/

namespace Sys2Proof.Machine

/-! ### Dual-component multiplexer -/

/-- The pattern index `j = 2·a + b` (44_multiplexers.md rule R234). -/
def dualIndex (a b : Bool) : Fin 4 := ⟨2 * a.toNat + b.toNat, by cases a <;> cases b <;> decide⟩

/-- The output samples: for every chip pair the 12-sample pattern it selects (rule R233). -/
def dualSamples (ps : PatternSet) (as bs : List Bool) : List Byte :=
  (List.zipWith dualIndex as bs).flatMap (fun j => ps[j].toList)

/-- `Exec` of MUX_DUAL with the draws made (rule R233). -/
def runMuxDual (p : Params) (m : Memory) (d : Nat) (a : Args) : ExecResult × Nat :=
  match p.dualPatsets[a.a0.toNat]? with
  | none => (.error .index, d)
  | some ps =>
    if ¬(legal p.memSize a.a1.toNat a.a3.toNat ∧ legal p.memSize a.a2.toNat a.a3.toNat
        ∧ legal p.memSize a.a4.toNat (12 * a.a3.toNat)) then (.error .range, d)
    else
      (match bitsIn (readBytes m d a.a1.toNat a.a3.toNat).1,
          bitsIn (readBytes m (readBytes m d a.a1.toNat a.a3.toNat).2 a.a2.toNat a.a3.toNat).1 with
       | some as, some bs =>
         .ok { mem := [(a.a4.toNat, dualSamples ps as bs)], r0 := some (BitVec.ofNat 32 (12 * a.a3.toNat)) }
       | _, _ => .error .bitVal,
       (readBytes m (readBytes m d a.a1.toNat a.a3.toNat).2 a.a2.toNat a.a3.toNat).2)

/-- MUX_DUAL: the dual-component multiplexer (44_multiplexers.md rule R233). -/
def execMuxDual (s : State) : Host.Outcome State Fault Refusal :=
  .next (s.completeDrawing (runMuxDual s.params s.mem s.draws s.snap.args))

/-! ### AltBOC -/

/-- Four bits as a 4-bit index, the first most significant: the pattern index q of rule R238 and GetModulationIndex of
rule R243. -/
def nibbleIndex (a b c d : Bool) : Fin 16 :=
  ⟨8 * a.toNat + 4 * b.toNat + 2 * c.toNat + d.toNat, by cases a <;> cases b <;> cases c <;> cases d <;> decide⟩

/-- Pattern q: `P_q[t] = ALT_STATES[ALT_PHASE[q][t]]`, t = 0..7 (44_multiplexers.md rule R236). -/
def altPattern (p : Params) (q : Fin 16) : List IQ := p.altPhase[q].toList.map (fun k => p.altStates[k])

/-- The segment `SEG[16·A + B] = P_A[0..7] ++ P_A[0..3] ++ P_B[4..7] ++ P_B[0..7]` (rule R237; 90_conflicts.md C4). -/
def altSegmentOf (p : Params) (a b : Fin 16) : List IQ :=
  altPattern p a ++ (altPattern p a).take 4 ++ (altPattern p b).drop 4 ++ altPattern p b

/-- The composite sequence of the pattern indices, two chips at a time, the earlier chip pattern A (rules R238 and
R241). -/
def altComposite (p : Params) : List (Fin 16) → List IQ
  | a :: b :: rest => altSegmentOf p a b ++ altComposite p rest
  | [_] => []
  | [] => []

/-- The pattern indices of four codes, each code inverted by its bit of the combination m (rules R238 and R239). -/
def altIndices (m : Word) : List Bool → List Bool → List Bool → List Bool → List (Fin 16)
  | a :: as, b :: bs, c :: cs, d :: ds =>
    nibbleIndex (a ^^ m.getLsbD 3) (b ^^ m.getLsbD 2) (c ^^ m.getLsbD 1) (d ^^ m.getLsbD 0) :: altIndices m as bs cs ds
  | _, _, _, _ => []

/-- The I and the Q samples as two staged regions, I first: on a byte both regions hold, "Q wins" (rules R240 and
R245). DEDUCED, log 8. -/
def iqRegions (dstI dstQ : Word) (l : List IQ) : List (Nat × List Byte) :=
  [(dstI.toNat, l.map IQ.i), (dstQ.toNat, l.map IQ.q)]

/-- The bytes of the four input codes, each region in turn, and the draws made. -/
def readCodes (m : Memory) (d : Nat) (a : Args) : (List Byte × List Byte × List Byte × List Byte) × Nat :=
  let n := a.a4.toNat
  let c0 := readBytes m d a.a0.toNat n
  let c1 := readBytes m c0.2 a.a1.toNat n
  let c2 := readBytes m c1.2 a.a2.toNat n
  let c3 := readBytes m c2.2 a.a3.toNat n
  ((c0.1, c1.1, c2.1, c3.1), c3.2)

/-- The six regions of MUX_ALTBOC are legal (rule R240). -/
def altRegionsLegal (memSize : Nat) (a : Args) : Bool :=
  legal memSize a.a0.toNat a.a4.toNat && legal memSize a.a1.toNat a.a4.toNat && legal memSize a.a2.toNat a.a4.toNat
    && legal memSize a.a3.toNat a.a4.toNat && legal memSize a.a5.toNat (12 * a.a4.toNat)
    && legal memSize a.a6.toNat (12 * a.a4.toNat)

/-- The writes of MUX_ALTBOC over the four codes' bytes; none when a byte is not a bit (rule R240). -/
def altWrites (p : Params) (a : Args) (bytes : List Byte × List Byte × List Byte × List Byte) : ExecResult :=
  match bitsIn bytes.1, bitsIn bytes.2.1, bitsIn bytes.2.2.1, bitsIn bytes.2.2.2 with
  | some aI, some bI, some aQ, some bQ =>
    .ok { mem := iqRegions a.a5 a.a6 (altComposite p (altIndices a.a7 aI bI aQ bQ))
          r0 := some (BitVec.ofNat 32 (12 * a.a4.toNat)) }
  | _, _, _, _ => .error .bitVal

/-- `Exec` of MUX_ALTBOC with the draws made (rule R240). -/
def runMuxAltboc (p : Params) (m : Memory) (d : Nat) (a : Args) : ExecResult × Nat :=
  if a.a7 >>> 4 ≠ 0#32 then (.error .index, d)
  else if a.a4.toNat % 2 ≠ 0 then (.error .oddLen, d)
  else if altRegionsLegal p.memSize a = false then (.error .range, d)
  else (altWrites p a (readCodes m d a).1, (readCodes m d a).2)

/-- MUX_ALTBOC: build one AltBOC composite sequence (44_multiplexers.md rule R240). -/
def execMuxAltboc (s : State) : Host.Outcome State Fault Refusal :=
  .next (s.completeDrawing (runMuxAltboc s.params s.mem s.draws s.snap.args))

/-- `Exec` of ALT_MODIDX (44_multiplexers.md rule R243). -/
def runAltModidx (a : Args) : ExecResult :=
  if a.a0 >>> 1 ≠ 0#32 ∨ a.a1 >>> 1 ≠ 0#32 ∨ a.a2 >>> 1 ≠ 0#32 ∨ a.a3 >>> 1 ≠ 0#32 then .error .bitVal
  else
    .ok { r0 := some (BitVec.ofNat 32
            (nibbleIndex (a.a0.getLsbD 0) (a.a1.getLsbD 0) (a.a2.getLsbD 0) (a.a3.getLsbD 0)).val) }

/-- ALT_MODIDX: `GetModulationIndex(e5aI, e5bI, e5aQ, e5bQ)` (44_multiplexers.md rule R243). -/
def execAltModidx (s : State) : Host.Outcome State Fault Refusal := .next (s.complete (runAltModidx s.snap.args))

/-- The segment of a segment index j = 16·A + B (rule R237). -/
def altSegmentAt (p : Params) (j : Byte) : List IQ :=
  altSegmentOf p ⟨j.toNat / 16, by omega⟩ ⟨j.toNat % 16, by omega⟩

/-- `Exec` of ALT_SEGMENT (44_multiplexers.md rule R245). -/
def runAltSegment (p : Params) (a : Args) : ExecResult :=
  if a.a0 >>> 8 ≠ 0#32 then .error .index
  else if ¬(legal p.memSize a.a1.toNat 24 ∧ legal p.memSize a.a2.toNat 24) then .error .range
  else .ok { mem := iqRegions a.a1 a.a2 (altSegmentAt p (a.a0.setWidth 8)), r0 := some 24#32 }

/-- ALT_SEGMENT: read one of the 256 two-chip segments (44_multiplexers.md rule R245). -/
def execAltSegment (s : State) : Host.Outcome State Fault Refusal :=
  .next (s.complete (runAltSegment s.params s.snap.args))

end Sys2Proof.Machine
end

