-- ==== Sys2Proof/Machine/Ranging.lean ====
section
/-! DEFINITION. The ranging-code generator: descriptors, their checks, the G1 and G2 sequences, the code table, and
RCG_INFO and RCG_BUILD (42_ranging.md). -/

namespace Sys2Proof.Machine

/-- The L1OF descriptor (42_ranging.md rule R163), with the split of its G1 run. -/
def l1ofDescriptor (segs : List Nat) : Descriptor where
  len := 511
  g1 := .fib 9 [true, true, true, true, true, true, true, true, true] [5, 9] (some [7])
  g1Segments := segs
  g2 := none
  sats := [.single]

/-- The descriptor a ROM entry stands for: the facts of 42_ranging.md rule R163 and the entry's open fields. -/
def descriptorOf : RomEntry → Descriptor
  | .b1i g1 segs g2 taps => ⟨2046, g1, segs, g2, taps.toList.map SatEntry.outTaps⟩
  | .b3i g1 g2 sats => ⟨10230, g1, [8190, 2040], g2, sats⟩
  | .l1of segs => l1ofDescriptor segs
  | .l5sps d => d
  | .other d => d

/-- `SIGNALS[sig]`; none when sig >= NSIG. -/
def signalAt (p : Params) (sig : Nat) : Option Descriptor := p.signals[sig]?.map descriptorOf

/-- The size n of a G1 register. -/
def regSize : RegCfg → Nat
  | .fib n _ _ _ => n
  | .gal n _ _ => n

/-- A register size outside 1..32. -/
def sizeBad (n : Nat) : Bool := !(decide (1 ≤ n) && decide (n ≤ 32))

/-- A tap outside 1..n (42_ranging.md rule R161 item 3; 90_conflicts.md C1). -/
def tapBad (n : Nat) (t : Int) : Bool := decide (t ≤ 0) || decide (t > (n : Int))

/-- Rule R161 item 1: a register size, or segments that do not sum to L. -/
def descSizeBad (d : Descriptor) : Bool :=
  sizeBad (regSize d.g1)
    || (match d.g2 with
        | some g => sizeBad g.n
        | none => false)
    || d.g1Segments.sum != d.len

/-- Rule R161 item 2 for G1. -/
def g1SeedBad : RegCfg → Bool
  | .fib n seed _ _ => seed.length != n
  | .gal n seed _ => seed >>> n != 0#32

/-- Rule R161 item 2 for one satellite entry: a `Seed v` with |v| ≠ g2.n. With no G2 there is no g2.n; such an entry
is item 4's. DEDUCED, log 11. -/
def entrySeedBad (g2 : Option G2Cfg) : SatEntry → Bool
  | .seed v =>
    match g2 with
    | some g => v.length != g.n
    | none => false
  | .single => false
  | .outTaps _ => false

/-- Rule R161 item 2: seed lengths. -/
def descSeedBad (d : Descriptor) : Bool :=
  g1SeedBad d.g1
    || (match d.g2 with
        | some g => g.seed.length != g.n
        | none => false)
    || d.sats.any (entrySeedBad d.g2)

/-- Rule R161 item 3 for G1. -/
def g1TapBad : RegCfg → Bool
  | .fib n _ fb out => fb.any (tapBad n) || (out.getD []).any (tapBad n)
  | .gal n _ mask => mask >>> n != 0#32

/-- Rule R161 item 3 for one satellite entry. With no G2 there is no register to exceed: only `t <= 0` can hold.
DEDUCED, log 11. -/
def entryTapBad (g2 : Option G2Cfg) : SatEntry → Bool
  | .outTaps t =>
    match g2 with
    | some g => t.any (tapBad g.n)
    | none => t.any (fun x => decide (x ≤ 0))
  | .single => false
  | .seed _ => false

/-- Rule R161 item 3: taps. -/
def descTapBad (d : Descriptor) : Bool :=
  g1TapBad d.g1
    || (match d.g2 with
        | some g => g.fb.any (tapBad g.n)
        | none => false)
    || d.sats.any (entryTapBad d.g2)

/-- The entry has no G2. -/
def isSingle : SatEntry → Bool
  | .single => true
  | .seed _ => false
  | .outTaps _ => false

/-- The entry seeds G2. -/
def isSeed : SatEntry → Bool
  | .seed _ => true
  | .single => false
  | .outTaps _ => false

/-- The entry taps G2. -/
def isOutTaps : SatEntry → Bool
  | .outTaps _ => true
  | .single => false
  | .seed _ => false

/-- Rule R161 item 4: entries that do not match G2, or of both kinds. -/
def descEntriesBad (d : Descriptor) : Bool :=
  (match d.g2 with
   | some _ => d.sats.any isSingle
   | none => d.sats.any (fun e => !isSingle e))
    || (d.sats.any isSeed && d.sats.any isOutTaps)

/-- `Check(d)`: the first failing check in the order of 42_ranging.md rule R161. -/
def checkDescriptor (d : Descriptor) : Option CmdError :=
  if descSizeBad d then some .size
  else if descSeedBad d then some .seed
  else if descTapBad d then some .tap
  else if descEntriesBad d then some .desc
  else none

/-- `RegStep` (42_ranging.md rule R162). -/
def regStep : RegCfg → Word → Bool × Word
  | .fib n _ fb out => fibStep n (tapMask fb) (tapMask (out.getD [])) out.isSome
  | .gal _ _ mask => galStep mask

/-- `RegSeed` (42_ranging.md rule R162). -/
def regSeed : RegCfg → Word
  | .fib _ seed _ _ => seedWord seed
  | .gal _ seed _ => seed

/-- The segments of one continuous run: the state carries over (42_ranging.md rule R167). -/
def genSegments (step : Word → Bool × Word) : Word → List Nat → List Bool
  | _, [] => []
  | s, c :: cs => (gen step s c).1 ++ genSegments step (gen step s c).2 cs

/-- `G1seq(d)` (42_ranging.md rule R167). -/
def g1Seq (d : Descriptor) : List Bool := genSegments (regStep d.g1) (regSeed d.g1) d.g1Segments

/-- `G2seq(d, s)` for one satellite entry (42_ranging.md rule R168). The last case, an entry without its G2, does not
occur in a descriptor that passes its checks (rule R161 item 4). -/
def g2Seq (d : Descriptor) (e : SatEntry) : List Bool :=
  match e, d.g2 with
  | .seed v, some g => (gen (fibStep g.n (tapMask g.fb) 0#32 false) (seedWord v) d.len).1
  | .outTaps t, some g => (gen (fibStep g.n (tapMask g.fb) (tapMask t) true) (seedWord g.seed) d.len).1
  | _, _ => List.replicate d.len false

/-- The bits `G1seq ⊕ G2seq` of one satellite (42_ranging.md rule R169). -/
def codeBits (d : Descriptor) (e : SatEntry) : List Bool := List.zipWith Bool.xor (g1Seq d) (g2Seq d e)

/-- One satellite's signed code and then its negation (42_ranging.md rules R169 and R171). -/
def satBytes (d : Descriptor) (e : SatEntry) : List Byte :=
  (codeBits d e).map chipByte ++ (codeBits d e).map (fun b => chipByte (!b))

/-- The whole table, satellite by satellite (42_ranging.md rule R171). -/
def tableBytes (d : Descriptor) : List Byte := d.sats.flatMap (satBytes d)

/-- `kind(d)`: 0 G2 absent, 1 seed entries, 2 output-tap entries; 1 when there is a G2 and no satellite
(42_ranging.md rule R170). -/
def descKind (d : Descriptor) : Word :=
  match d.g2 with
  | none => 0#32
  | some _ => if d.sats.any isOutTaps then 2#32 else 1#32

/-- `Exec` of RCG_INFO (42_ranging.md rule R170). -/
def runRcgInfo (p : Params) (a : Args) : ExecResult :=
  match signalAt p a.a0.toNat with
  | none => .error .index
  | some d =>
    match checkDescriptor d with
    | some e => .error e
    | none =>
      .ok { r0 := some (countWord d.sats.length)
            r1 := some (countWord d.len)
            r2 := some (countWord (regSize d.g1))
            r3 := some (descKind d) }

/-- `Exec` of RCG_BUILD (42_ranging.md rule R172). -/
def runRcgBuild (p : Params) (a : Args) : ExecResult :=
  match signalAt p a.a0.toNat with
  | none => .error .index
  | some d =>
    match checkDescriptor d with
    | some e => .error e
    | none =>
      if legal p.memSize a.a1.toNat (2 * d.len * d.sats.length) then
        .ok { mem := [(a.a1.toNat, tableBytes d)]
              r0 := some (countWord d.sats.length)
              r1 := some (countWord d.len)
              r2 := some (countWord (2 * d.len * d.sats.length)) }
      else .error .range

/-- RCG_INFO: check a signal descriptor and report its sizes (42_ranging.md rule R170). -/
def execRcgInfo (s : State) : Host.Outcome State Fault Refusal :=
  .next (s.complete (runRcgInfo s.params s.snap.args))

/-- RCG_BUILD: build the code table of one signal (42_ranging.md rule R172). -/
def execRcgBuild (s : State) : Host.Outcome State Fault Refusal :=
  .next (s.complete (runRcgBuild s.params s.snap.args))

end Sys2Proof.Machine
end

