-- ==== Sys2Proof/Machine/Dispatch.lean ====
section
/-! DEFINITION. The meaning of every command: Complete of 40_command_control.md rule R113 for a legal command word. -/

namespace Sys2Proof.Machine

def exec (i : Instr) (s : State) : Host.Outcome State Fault Refusal :=
  match i with
  | .nop => Sys2Proof.Machine.execNop s
  | .lfsrFibStep u => Sys2Proof.Machine.execLfsrFibStep u s
  | .lfsrFibGen u => Sys2Proof.Machine.execLfsrFibGen u s
  | .lfsrGalStep u => Sys2Proof.Machine.execLfsrGalStep u s
  | .lfsrGalGen u => Sys2Proof.Machine.execLfsrGalGen u s
  | .rcgInfo => Sys2Proof.Machine.execRcgInfo s
  | .rcgBuild => Sys2Proof.Machine.execRcgBuild s
  | .bchParity => Sys2Proof.Machine.execBchParity s
  | .bchEncode => Sys2Proof.Machine.execBchEncode s
  | .bchEncodeIl => Sys2Proof.Machine.execBchEncodeIl s
  | .hamCheck => Sys2Proof.Machine.execHamCheck s
  | .convEncode => Sys2Proof.Machine.execConvEncode s
  | .convRelease => Sys2Proof.Machine.execConvRelease s
  | .muxDual => Sys2Proof.Machine.execMuxDual s
  | .muxAltboc => Sys2Proof.Machine.execMuxAltboc s
  | .altModidx => Sys2Proof.Machine.execAltModidx s
  | .altSegment => Sys2Proof.Machine.execAltSegment s

end Sys2Proof.Machine
end

