-- ==== Sys2Proof/Machine/Port.lean ====
section
/-! DEFINITION. The host port: the register window (10_state.md rules R23 to R39) and the MEM window (20_memory.md
rules R60 to R67). -/

namespace Sys2Proof.Machine

/-! ### The register window -/

/-- The byte offset of a register (10_state.md rule R23). -/
def regOffset : Reg → Nat
  | .id => 0x00
  | .ctrl => 0x04
  | .status => 0x08
  | .cmd => 0x0C
  | .arg0 => 0x10
  | .arg1 => 0x14
  | .arg2 => 0x18
  | .arg3 => 0x1C
  | .arg4 => 0x20
  | .arg5 => 0x24
  | .arg6 => 0x28
  | .arg7 => 0x2C
  | .res0 => 0x30
  | .res1 => 0x34
  | .res2 => 0x38
  | .res3 => 0x3C
  | .memsize => 0x40
  | .nsig => 0x44
  | .ndual => 0x48
  | .l0cfg => 0x50
  | .l0state => 0x54
  | .l0fb => 0x58
  | .l0ot => 0x5C
  | .l1cfg => 0x60
  | .l1state => 0x64
  | .l1fb => 0x68
  | .l1ot => 0x6C
  | .cvpoly => 0x70
  | .cvcap => 0x74

/-- The registers in the order of the table of 10_state.md rule R23. -/
def allRegs : List Reg :=
  [.id, .ctrl, .status, .cmd, .arg0, .arg1, .arg2, .arg3, .arg4, .arg5, .arg6, .arg7, .res0, .res1, .res2, .res3,
   .memsize, .nsig, .ndual, .l0cfg, .l0state, .l0fb, .l0ot, .l1cfg, .l1state, .l1fb, .l1ot, .cvpoly, .cvcap]

/-- The register at a byte offset; none at a reserved offset (10_state.md rules R23 and R38). -/
def regAt (offset : Nat) : Option Reg := allRegs.find? (fun r => regOffset r == offset)

/-- The word a host reads from LnCFG (10_state.md rule R31). -/
def LfsrCfg.word (c : LfsrCfg) : Word := 0#23 ++ BitVec.ofBool c.oten ++ 0#2 ++ c.n

/-- LnCFG as a host write stores it: bits [5:0] and bit 8 (10_state.md rule R31). -/
def cfgOfWord (v : Word) : LfsrCfg := ⟨v.extractLsb' 0 6, v.getLsbD 8⟩

/-- The word a host reads from CVPOLY (10_state.md rule R35). -/
def CvPoly.word (p : CvPoly) : Word :=
  0#14 ++ BitVec.ofBool p.invb ++ BitVec.ofBool p.inva ++ 0#1 ++ p.gb ++ 0#1 ++ p.ga

/-- CVPOLY as a host write stores it (10_state.md rule R35). -/
def polyOfWord (v : Word) : CvPoly := ⟨v.extractLsb' 0 7, v.extractLsb' 8 7, v.getLsbD 16, v.getLsbD 17⟩

/-- The word a host reads from CVCAP (10_state.md rule R36). -/
def CvCap.word (c : CvCap) : Word := BitVec.ofBool c.valid ++ 0#25 ++ c.state

/-- The value of a register: what a host reads (10_state.md rules R24 to R37). A read has no side effect
(20_memory.md rule R63). -/
def State.readReg (s : State) : Reg → Word
  | .id => 0x4C465352#32
  | .ctrl => 0#32
  | .status => s.status.word s.engine.busy
  | .cmd => s.cmd
  | .arg0 => s.args.a0
  | .arg1 => s.args.a1
  | .arg2 => s.args.a2
  | .arg3 => s.args.a3
  | .arg4 => s.args.a4
  | .arg5 => s.args.a5
  | .arg6 => s.args.a6
  | .arg7 => s.args.a7
  | .res0 => s.res.r0
  | .res1 => s.res.r1
  | .res2 => s.res.r2
  | .res3 => s.res.r3
  | .memsize => BitVec.ofNat 32 s.params.memSize
  | .nsig => countWord s.params.signals.length
  | .ndual => countWord s.params.dualPatsets.length
  | .l0cfg => s.u0.cfg.word
  | .l0state => s.u0.state
  | .l0fb => s.u0.fb
  | .l0ot => s.u0.ot
  | .l1cfg => s.u1.cfg.word
  | .l1state => s.u1.state
  | .l1fb => s.u1.fb
  | .l1ot => s.u1.ot
  | .cvpoly => s.cvpoly.word
  | .cvcap => s.cvcap.word

/-- A write of CTRL: SRST, bit 0, is a soft reset and wins; else CLR, bit 1, clears STATUS; else nothing
(10_state.md rule R25). -/
def State.writeCtrl (s : State) (v : Word) : State :=
  if v.getLsbD 0 then s.softReset
  else if v.getLsbD 1 then { s with status := s.status.cleared }
  else s

/-- A write of CMD: accepted when idle, dropped with an overrun while running (40_command_control.md rules R110 and
R112). -/
def State.writeCmd (s : State) (v : Word) : State := if s.engine.busy then s.overrun else s.accept v

/-- A host write of a register: the writable bits are stored, read-only registers ignore it (10_state.md rules R23 to
R39); CTRL and CMD act (20_memory.md rule R63). -/
def State.writeReg (s : State) (r : Reg) (v : Word) : State :=
  match r with
  | .id => s
  | .ctrl => s.writeCtrl v
  | .status => s
  | .cmd => s.writeCmd v
  | .arg0 => { s with args := { s.args with a0 := v } }
  | .arg1 => { s with args := { s.args with a1 := v } }
  | .arg2 => { s with args := { s.args with a2 := v } }
  | .arg3 => { s with args := { s.args with a3 := v } }
  | .arg4 => { s with args := { s.args with a4 := v } }
  | .arg5 => { s with args := { s.args with a5 := v } }
  | .arg6 => { s with args := { s.args with a6 := v } }
  | .arg7 => { s with args := { s.args with a7 := v } }
  | .res0 => s
  | .res1 => s
  | .res2 => s
  | .res3 => s
  | .memsize => s
  | .nsig => s
  | .ndual => s
  | .l0cfg => { s with u0 := { s.u0 with cfg := cfgOfWord v } }
  | .l0state => { s with u0 := { s.u0 with state := v } }
  | .l0fb => { s with u0 := { s.u0 with fb := v } }
  | .l0ot => { s with u0 := { s.u0 with ot := v } }
  | .l1cfg => { s with u1 := { s.u1 with cfg := cfgOfWord v } }
  | .l1state => { s with u1 := { s.u1 with state := v } }
  | .l1fb => { s with u1 := { s.u1 with fb := v } }
  | .l1ot => { s with u1 := { s.u1 with ot := v } }
  | .cvpoly => { s with cvpoly := polyOfWord v }
  | .cvcap => s

/-- The word at a register-window offset: a reserved offset reads 0 (10_state.md rule R38). -/
def State.readWindow (s : State) (offset : Nat) : Word :=
  match regAt offset with
  | some r => s.readReg r
  | none => 0#32

/-- A write at a register-window offset: a reserved offset ignores it (10_state.md rule R38). -/
def State.writeWindow (s : State) (offset : Nat) (v : Word) : State :=
  match regAt offset with
  | some r => s.writeReg r v
  | none => s

/-! ### The two windows -/

/-- The host offset of MEM address 0 (20_memory.md rule R60). -/
def memBase : Nat := 0x01000000

/-- Where an accepted access goes. -/
inductive Target where
  | register (offset : Nat)
  | memory (addr : Nat)
deriving DecidableEq, Repr

/-- The access starts in the MEM window (20_memory.md rule R60). -/
def inMemWindow (memSize : Nat) (a : Access) : Bool :=
  decide (memBase ≤ a.offset) && decide (a.offset < memBase + memSize)

/-- The port's decision on an access: its target, or the bus error of the first item of 20_memory.md rule R62 that
refuses it. -/
def portCheck (memSize : Nat) (a : Access) : Except BusError Target :=
  if a.offset < 256 then
    if a.width = 4 ∧ a.offset % 4 = 0 then .ok (.register a.offset) else .error .registerAccess
  else if inMemWindow memSize a then
    if ¬(a.width = 1 ∨ a.width = 2 ∨ a.width = 4) then .error .memWidth
    else if (a.offset - memBase) % a.width ≠ 0 then .error .memAlignment
    else if a.offset - memBase + a.width > memSize then .error .memRange
    else .ok (.memory (a.offset - memBase))
  else .error .noWindow

/-- Record what the port answers. -/
def State.respond (s : State) (r : Response) : State := { s with responses := r :: s.responses }

/-- A host read of the MEM window: the bytes, little-endian; an undefined byte is a fresh draw (20_memory.md rules R64
and R67). -/
def State.readMem (s : State) (addr width : Nat) : State :=
  { s with draws := (readBytes s.mem s.draws addr width).2 }.respond
    (.data (wordOfBytes (readBytes s.mem s.draws addr width).1))

/-- A host write of the MEM window: the low bytes of the value, little-endian (20_memory.md rule R64). -/
def State.writeMem (s : State) (addr width : Nat) (v : Word) : State :=
  { s with mem := s.mem.pokes addr (bytesOfWord v width) }.respond .written

/-- A host access the port takes. -/
def State.perform (s : State) (t : Target) (a : Access) : State :=
  match t, a with
  | .register o, .read _ _ => s.respond (.data (s.readWindow o))
  | .register o, .write _ _ v => (s.writeWindow o v).respond .written
  | .memory m, .read _ w => s.readMem m w
  | .memory m, .write _ w v => s.writeMem m w v

/-- A host access: performed, or refused. A bus error is the fault of the host's step; it is recorded, and no state of
the block changes (20_memory.md rule R62; 60_exceptions.md rule R260). Log 5. -/
def hostAccess (a : Access) (s : State) : State :=
  match portCheck s.params.memSize a with
  | .ok t => s.perform t a
  | .error e => s.respond (.fault (.busError e a))

end Sys2Proof.Machine
end

