-- ==== Sys2Proof/Machine/HostActions.lean ====
section
/-! DEFINITION. The host-action syntax of 30_encoding.md rules R104 and R105, expanded to inputs of the block. It is the
environment's language, not the block's: a model's "program" is a sequence of host actions (10_state.md rule R22). -/

namespace Sys2Proof.Machine

/-- Widths `.b`, `.h` and `.w` of a MEM action. -/
inductive MemWidth where
  | byte | half | word
deriving DecidableEq, Repr

/-- Bytes of a MEM action's width. -/
def MemWidth.bytes : MemWidth → Nat
  | .byte => 1
  | .half => 2
  | .word => 4

/-- The host actions (30_encoding.md rule R104) and pseudo-actions (rule R105). `busyReads` is how many reads of a
`poll` see BUSY = 1 before the engine's turn: the spec leaves it open (40_command_control.md rule R116). Log 17. -/
inductive HostAction where
  | wr (r : Reg) (v : Word)
  | rd (r : Reg)
  | wrm (w : MemWidth) (a : Nat) (v : Word)
  | rdm (w : MemWidth) (a : Nat)
  | cmd (i : Instr)
  | poll (busyReads : Nat)
  | run (i : Instr) (busyReads : Nat)
  | clr
  | srst
  | seedfib (u : UnitSel) (n state fb ot : Word) (oten : Bool)
deriving DecidableEq, Repr

/-- The access of a register read. -/
def readInput (r : Reg) : Input := .access (.read (regOffset r) 4)

/-- The access of a register write. -/
def writeInput (r : Reg) (v : Word) : Input := .access (.write (regOffset r) 4 v)

/-- `poll`: STATUS reads while BUSY, the engine's turn, and the read that sees BUSY = 0 (rule R105). -/
def pollInputs (busyReads : Nat) : List Input :=
  List.replicate busyReads (readInput .status) ++ [.engineTurn, readInput .status]

/-- The registers `seedfib` writes, in its order (rule R105). -/
def seedfibInputs (u : UnitSel) (n state fb ot : Word) (oten : Bool) : List Input :=
  match u with
  | .u0 => [writeInput .l0cfg ((bitWord oten <<< 8) ||| n), writeInput .l0state state, writeInput .l0fb fb, writeInput .l0ot ot]
  | .u1 => [writeInput .l1cfg ((bitWord oten <<< 8) ||| n), writeInput .l1state state, writeInput .l1fb fb, writeInput .l1ot ot]

/-- The inputs a host action expands to (rules R104 and R105). -/
def HostAction.inputs : HostAction → List Input
  | .wr r v => [writeInput r v]
  | .rd r => [readInput r]
  | .wrm w a v => [.access (.write (memBase + a) w.bytes v)]
  | .rdm w a => [.access (.read (memBase + a) w.bytes)]
  | .cmd i => [writeInput .cmd (encode i)]
  | .poll n => pollInputs n
  | .run i n => writeInput .cmd (encode i) :: pollInputs n
  | .clr => [writeInput .ctrl 2#32]
  | .srst => [writeInput .ctrl 1#32]
  | .seedfib u n state fb ot oten => seedfibInputs u n state fb ot oten

/-- The inputs of a program (10_state.md rule R22). -/
def programInputs (p : List HostAction) : List Input := p.flatMap HostAction.inputs

end Sys2Proof.Machine
end

