-- ==== Sys2Proof/Machine/Turn.lean ====
section
/-! DEFINITION. Which agent moves next, and its step (40_command_control.md rule R117; 20_memory.md rule R66). -/

namespace Sys2Proof.Machine

/-- The engine's step: Complete when running (40_command_control.md rule R113), an illegal word with E_OPCODE
(30_encoding.md rule R91). An idle engine takes no step (60_exceptions.md rule R275): nothing changes. -/
def engineStep (s : State) : Host.Outcome State Fault Refusal :=
  match s.engine with
  | .idle => .next s
  | .running w _ =>
    match decode w with
    | .ok i => exec i s
    | .error _ => .next (s.fail .opcode)

/-- A MEM-window access stalls while BUSY: the host has no step until the engine completes (20_memory.md rule R66).
Log 13. -/
def stalled (s : State) (a : Access) : Bool := s.engine.busy && inMemWindow s.params.memSize a

/-- The step of the agent whose turn it is: the head of `inputs`. A stalled access stays at the head while the engine,
which alone can move, completes; with no input left only the engine can move. Log 3. -/
def takeStep (s : State) : Host.Outcome State Fault Refusal :=
  match s.inputs with
  | [] => engineStep s
  | .engineTurn :: rest => engineStep { s with inputs := rest }
  | .hardwareReset :: rest => .next { s with inputs := rest }.hardReset
  | .access a :: rest =>
    if stalled s a then engineStep s else .next (hostAccess a { s with inputs := rest })

/-- Accept `w` and give the engine the next turn: with no input waiting it has it already. -/
def State.acceptNext (s : State) (w : Word) : State :=
  match s.inputs with
  | [] => s.accept w
  | i :: rest => { s.accept w with inputs := .engineTurn :: i :: rest }

end Sys2Proof.Machine
end

