-- ==== Sys2Proof/Machine/Step.lean ====
section
/-! DEFINITION. One step of the block (40_command_control.md rule R117) and how a command word comes to run. What can
be shown wrong stands in the files this one calls. -/

namespace Sys2Proof.Machine

/-- One step of the block: `takeStep`, the step of the agent whose turn it is. -/
def step (s : State) : Host.Outcome State Fault Refusal := takeStep s

/-- The state in which the very next step completes the command word `w`: its acceptance, as by a host's write of CMD
while idle, with the engine's turn next. Log 16. -/
def State.withFetchWord (s : State) (nbits w : Nat) : State := s.acceptNext (BitVec.ofNat 32 (w % 2 ^ nbits))

end Sys2Proof.Machine
end

