-- ==== Sys2Proof/Safety.lean ====
section
/-! DEFINITION. The terms claims are stated in: the invariant of the block's state, and the state a completed command
leaves where it writes nothing else. -/

namespace Sys2Proof.Machine

/-- STATUS is one the rules can produce: ERR exactly with a nonzero ERRCODE of at most 10, ERR only with DONE
(10_state.md rule R26; 60_exceptions.md rules R261 and R262). -/
structure Status.Consistent (st : Status) : Prop where
  errIffCode : st.err = true ↔ st.errcode ≠ 0#8
  codeReported : st.errcode.toNat ≤ 10
  errOnlyDone : st.err = true → st.done = true

/-- The invariant of every reachable state: MEM is in canonical form and within MEM_SIZE; STATUS is consistent, and
DONE is 0 while BUSY; CMD reads the running word (10_state.md rule R27); CVCAP is 0 when not VALID (rule R36). -/
structure State.Inv (s : State) : Prop where
  memCanonical : s.mem.wf s.params.memSize = true
  statusConsistent : s.status.Consistent
  busyNotDone : s.engine.busy = true → s.status.done = false
  cmdIsRunning : ∀ w sn, s.engine = .running w sn → s.cmd = w
  captureCleared : s.cvcap.valid = false → s.cvcap.state = 0#6

/-- `s` when a command completes without error and writes nothing but STATUS (40_command_control.md rule R113):
BUSY 0, DONE 1, ERR 0, ERRCODE 0 (log 15). -/
def State.doneOk (s : State) : State := { s with engine := .idle, status := ⟨true, false, s.status.overrun, 0#8⟩ }

/-- `s` when a command completes with error code `code` (60_exceptions.md rules R262 and R263): only STATUS changes. -/
def State.doneErr (s : State) (code : Byte) : State :=
  { s with engine := .idle, status := ⟨true, true, s.status.overrun, code⟩ }

/-- Every address of the region `(addr, n)` lies in MEM, or the region is empty (20_memory.md rule R69). -/
def State.inMem (s : State) (addr n : Nat) : Prop := n = 0 ∨ addr + n ≤ s.params.memSize

/-- The bytes `bs` stand in `m` from address `addr` on, and every other byte is as in `m0`. -/
def storesOnly (m m0 : Memory) (addr : Nat) (bs : List Byte) : Prop :=
  ∀ a, m.peek a = if addr ≤ a ∧ a < addr + bs.length then bs[a - addr]? else m0.peek a

/-- The values of the `n` bytes at `addr` are `bs`: each is defined. -/
def holds (m : Memory) (addr : Nat) (bs : List Byte) : Prop := ∀ k, k < bs.length → m.peek (addr + k) = bs[k]?

/-- Reading `bs.length` bytes from `addr` on, lowest first, gives `bs`: a defined byte is read as it is, an undefined one
is the next draw, and the draws counter goes from `d` to `d'` (20_memory.md rule R67; log 2). -/
def reads (m : Memory) (d addr : Nat) : List Byte → Nat → Prop
  | [], d' => d' = d
  | b :: bs, d' =>
    match m.peek addr with
    | some c => b = c ∧ reads m d (addr + 1) bs d'
    | none => b = Config.freeByte d ∧ reads m (d + 1) (addr + 1) bs d'

/-- How many bytes of the region `(addr, n)` are undefined. -/
def undefinedIn (m : Memory) (addr n : Nat) : Nat := (List.range n).countP (fun k => (m.peek (addr + k)).isNone)

/-- The byte decodes to a bit (20_memory.md rule R75). -/
def isBit (b : Byte) : Prop := b = 0x00#8 ∨ b = 0x01#8 ∨ b = 0xFF#8

/-! ### The spec's own words for what the commands compute, apart from the definitions the meanings use -/

/-- `popcount(v)` is odd, which is `parity(v)` (00_scope.md rule R8). -/
def oddOnes (v : BitVec n) : Bool := (List.range n).countP (fun k => v.getLsbD k) % 2 == 1

/-- The unit as it stands in the registers. -/
def State.unitNow (s : State) : UnitSel → LfsrUnit
  | .u0 => s.u0
  | .u1 => s.u1

/-- `s` with LuSTATE of one unit replaced, and nothing else (41_lfsr.md rule R141). -/
def State.withUnitState (s : State) (u : UnitSel) (v : Word) : State :=
  { s with
    u0 := if u = .u0 then { s.u0 with state := v } else s.u0
    u1 := if u = .u1 then { s.u1 with state := v } else s.u1 }

/-- The register size of a unit is in 1..32 (41_lfsr.md rule R132). -/
def LfsrUnit.sizeOk (c : LfsrUnit) : Prop := 1 ≤ c.cfg.n.toNat ∧ c.cfg.n.toNat ≤ 32

/-- A mask or state with no bit at or above N (41_lfsr.md rules R133 and R134). -/
def LfsrUnit.fits (c : LfsrUnit) (v : Word) : Prop := ∀ k, c.cfg.n.toNat ≤ k → v.getLsbD k = false

/-- The unit's taps are legal: feedback, and for the Fibonacci form with OTEN the output taps (rule R134). -/
def LfsrUnit.tapsOk (fib : Bool) (c : LfsrUnit) : Prop :=
  c.fits c.fb ∧ (fib = true → c.cfg.oten = true → c.fits c.ot)

/-- Every check of an LFSR command passes (rules R132 to R134). -/
def LfsrUnit.legalFor (fib : Bool) (c : LfsrUnit) : Prop := c.sizeOk ∧ c.fits c.state ∧ c.tapsOk fib

/-- The output of a state: Fibonacci, the last cell or the XOR of the output taps (rule R131); Galois, bit 0 (rule
R135). -/
def LfsrUnit.outputOf (fib : Bool) (c : LfsrUnit) (x : Word) : Bool :=
  if fib then (if c.cfg.oten then oddOnes (x &&& c.ot) else x.getLsbD (c.cfg.n.toNat - 1)) else x.getLsbD 0

/-- `y` is the state after `x`, bit by bit: Fibonacci, stage 1 takes the XOR of the feedback taps and every other stage
the one before it (rules R130 and R131); Galois, bit k takes bit k+1, XORed with mask bit k when bit 0 was 1 (rule
R135). -/
def LfsrUnit.follows (fib : Bool) (c : LfsrUnit) (x y : Word) : Prop :=
  ∀ k, k < 32 →
    y.getLsbD k =
      if fib then
        (if k = 0 then oddOnes (x &&& c.fb) else decide (k < c.cfg.n.toNat) && x.getLsbD (k - 1))
      else (x.getLsbD (k + 1) ^^ (x.getLsbD 0 && c.fb.getLsbD k))

end Sys2Proof.Machine

namespace Sys2Proof

/-! ### Signal descriptors and their registers (42_ranging.md), in terms of bits and lists -/

/-- The tap is a stage of a register of size n (42_ranging.md rule R161 item 3). -/
def tapIn (n : Nat) (t : Int) : Prop := 1 ≤ t ∧ t ≤ (n : Int)

/-- The size of a G1 register is in 1..32 (rule R161 item 1). -/
def RegCfg.sizeOk : RegCfg → Prop
  | .fib n _ _ _ => 1 ≤ n ∧ n ≤ 32
  | .gal n _ _ => 1 ≤ n ∧ n ≤ 32

/-- The seed of a G1 register fits it (rule R161 item 2). -/
def RegCfg.seedOk : RegCfg → Prop
  | .fib n seed _ _ => seed.length = n
  | .gal n seed _ => seed.toNat < 2 ^ n

/-- The taps of a G1 register are its stages (rule R161 item 3). -/
def RegCfg.tapsOk : RegCfg → Prop
  | .fib n _ fb out => (∀ t ∈ fb, tapIn n t) ∧ ∀ l, out = some l → ∀ t ∈ l, tapIn n t
  | .gal n _ mask => mask.toNat < 2 ^ n

/-- 42_ranging.md rule R161 item 1 passes: both register sizes are in 1..32 and the segments sum to L. -/
def Descriptor.sizesOk (d : Descriptor) : Prop :=
  d.g1.sizeOk ∧ (∀ g, d.g2 = some g → 1 ≤ g.n ∧ g.n ≤ 32) ∧ d.g1Segments.sum = d.len

/-- Rule R161 item 2 passes: every seed fits its register; a satellite's is compared with the G2 there is. -/
def Descriptor.seedsOk (d : Descriptor) : Prop :=
  d.g1.seedOk ∧
  ∀ g, d.g2 = some g → g.seed.length = g.n ∧ ∀ v, SatEntry.seed v ∈ d.sats → v.length = g.n

/-- Rule R161 item 3 passes: every tap is a stage of its register; a satellite's is compared with the G2 there is. -/
def Descriptor.tapsOk (d : Descriptor) : Prop :=
  d.g1.tapsOk ∧
  ∀ g, d.g2 = some g → (∀ t ∈ g.fb, tapIn g.n t) ∧ ∀ l, SatEntry.outTaps l ∈ d.sats → ∀ t ∈ l, tapIn g.n t

/-- No entry needs a G2 that the descriptor does not have (rule R161 item 4, first part). -/
def Descriptor.entriesHaveG2 (d : Descriptor) : Prop := d.g2 = none → ∀ e ∈ d.sats, e = SatEntry.single

/-- Rule R161 item 4 passes: the entries match G2 and are not of both kinds. -/
def Descriptor.entriesOk (d : Descriptor) : Prop :=
  d.entriesHaveG2 ∧ (d.g2 ≠ none → SatEntry.single ∉ d.sats) ∧
    ¬((∃ v, SatEntry.seed v ∈ d.sats) ∧ ∃ t, SatEntry.outTaps t ∈ d.sats)

/-- A well-formed descriptor: it passes all four checks of 42_ranging.md rule R161. -/
structure Descriptor.WellFormed (d : Descriptor) : Prop where
  sizes : d.sizesOk
  seeds : d.seedsOk
  taps : d.tapsOk
  entries : d.entriesOk

/-- The XOR of the stages a tap list names: stage p is bit p−1, and a stage named twice counts once (42_ranging.md rule
R162; 41_lfsr.md rule R130). -/
def tapXor (taps : List Int) (x : Word) : Bool :=
  (List.range 32).countP (fun k : Nat => decide ((k : Int) + 1 ∈ taps) && x.getLsbD k) % 2 == 1

/-- `x` is the register's seed, bit by bit: a Fibonacci seed lists bit 0 first (rule R162). -/
def RegCfg.startsAt (c : RegCfg) (x : Word) : Prop :=
  ∀ k, k < 32 → x.getLsbD k =
    match c with
    | .fib _ seed _ _ => seed[k]?.getD false
    | .gal _ seed _ => seed.getLsbD k

/-- `y` is the register's state after `x`, bit by bit (rule R162; 41_lfsr.md rules R131 and R135). -/
def RegCfg.follows (c : RegCfg) (x y : Word) : Prop :=
  ∀ k, k < 32 → y.getLsbD k =
    match c with
    | .fib n _ fb _ => if k = 0 then tapXor fb x else decide (k < n) && x.getLsbD (k - 1)
    | .gal _ _ mask => x.getLsbD (k + 1) ^^ (x.getLsbD 0 && mask.getLsbD k)

/-- The register's output in state `x`: the output taps where there are any, else the last cell; Galois, bit 0. -/
def RegCfg.outputOf (c : RegCfg) (x : Word) : Bool :=
  match c with
  | .fib n _ _ out => (match out with
    | some l => tapXor l x
    | none => x.getLsbD (n - 1))
  | .gal _ _ _ => x.getLsbD 0

/-- `b` is the output sequence of ONE run of the register from its seed (42_ranging.md rules R162 and R167). -/
def RegCfg.outputs (c : RegCfg) (b : Nat → Bool) : Prop :=
  ∃ x : Nat → Word, c.startsAt (x 0) ∧ ∀ i, c.follows (x i) (x (i + 1)) ∧ b i = c.outputOf (x i)

/-- `b` is the G2 sequence of a satellite: G2 from the satellite's own seed and its last cell, or from the common seed
and the satellite's taps; zeros where there is no G2 (42_ranging.md rule R168). -/
def Descriptor.g2Outputs (d : Descriptor) (e : SatEntry) (b : Nat → Bool) : Prop :=
  match e, d.g2 with
  | .seed v, some g => (RegCfg.fib g.n v g.fb none).outputs b
  | .outTaps l, some g => (RegCfg.fib g.n g.seed g.fb (some l)).outputs b
  | _, _ => ∀ i, b i = false

end Sys2Proof

namespace Sys2Proof.Machine

/-! ### The coders and the multiplexers -/

/-- The remainder of a bit sequence, highest power first, as a polynomial over GF(2) modulo x^4 + x + 1 (43_channel_coders.md
rule R192), by Horner's rule. -/
def remainderMod19 : List Bool → BitVec 4 → BitVec 4
  | [], r => r
  | b :: bs, r => remainderMod19 bs (((r <<< 1) ||| BitVec.setWidth 4 (BitVec.ofBool b)) ^^^ (if r.getLsbD 3 then 3#4 else 0#4))

/-- The bytes decode to the bits: 0x01 is 1, 0x00 and 0xFF are 0 (20_memory.md rule R75). -/
def decodesTo (bs : List Byte) (xs : List Bool) : Prop :=
  List.Forall₂ (fun b x => (b = 0x01#8 ∧ x = true) ∨ ((b = 0x00#8 ∨ b = 0xFF#8) ∧ x = false)) bs xs

/-- The input of the convolutional encoder `j` steps before input bit `i`: an input bit, or a bit of the initial state
(43_channel_coders.md rule R205: state bit j is the input j+1 steps ago). -/
def delayed (bits : List Bool) (s0 : Word) (i j : Nat) : Bool :=
  if j ≤ i then bits[i - j]?.getD false else s0.getLsbD (j - i - 1)

/-- The symbol a generator mask gives at input bit `i`: "Tap bit j weights the input delayed by j steps" (rule
R205). -/
def symbolAt (mask : BitVec 7) (inv : Bool) (bits : List Bool) (s0 : Word) (i : Nat) : Bool :=
  ((List.range 7).countP (fun j => mask.getLsbD j && delayed bits s0 i j) % 2 == 1) ^^ inv

/-- Sample t (0..23) of the segment of patterns A and B (44_multiplexers.md rule R237). -/
def segmentSample (p : Params) (a b : Fin 16) (t : Nat) : IQ :=
  if h : t < 8 then p.altStates[p.altPhase[a][t]]
  else if h : t < 12 then p.altStates[p.altPhase[a][t - 8]]
  else if h : t < 16 then p.altStates[p.altPhase[b][t - 8]]
  else if h : t < 24 then p.altStates[p.altPhase[b][t - 16]]
  else p.altStates[0]

end Sys2Proof.Machine
end

