-- ==== Sys2Proof/Certificates/Slice0/Obligations.lean ====
section
/-! DEFINITION. The statements for the provers: what the rules of spec/ say the block does, stated of the model's
decoder, port, step and `exec`. Two choices of the model run through the statements about `exec`: with an idle engine,
where no step completes a command, the operands `s.snap` are the registers as they stand (log 4); and completing
without error writes ERR = 0 and ERRCODE = 0, which rule R113 says "stay 0" (log 15). -/

open Sys2Proof Sys2Proof.Machine

/-! ### Encoding (30_encoding.md) -/

/-- A few command words of the table, written out from rule R90's fields, decode to the commands of rule R92. -/
def Obligations.ListedWordsDecode : Prop :=
  decode 0b00000000000000000000000000000000#32 = .ok .nop ∧
  decode 0b00000000000000000000000100000010#32 = .ok (.lfsrFibGen .u1) ∧
  decode 0b00000000000000000000000000000011#32 = .ok (.lfsrGalStep .u0) ∧
  decode 0b00000000000000000000000000010001#32 = .ok .rcgBuild ∧
  decode 0b00000000000000000000000000100010#32 = .ok .bchEncodeIl ∧
  decode 0b00000000000000000000000000101000#32 = .ok .hamCheck ∧
  decode 0b00000000000000000000000000110000#32 = .ok .convEncode ∧
  decode 0b00000000000000000000000001000001#32 = .ok .muxAltboc

/-- The decoder and the encoder are each other's inverse on every word and every command: a word decodes to a command
exactly when it is that command's encoding. -/
def Obligations.DecodeInvertsEncode : Prop := ∀ (w : Word) (i : Instr), decode w = .ok i ↔ encode i = w

/-- A word decodes to a command exactly when the three conditions of rule R91 hold of its fields. -/
def Obligations.DecodableWordsAreTheLegalOnes : Prop :=
  ∀ w : Word,
    (∃ i, decode w = .ok i) ↔
      (w.toNat % 256 ∈ [0x00, 0x01, 0x02, 0x03, 0x04, 0x10, 0x11, 0x20, 0x21, 0x22, 0x28, 0x30, 0x31, 0x40, 0x41, 0x42,
          0x43] ∧
        w.toNat / 512 = 0 ∧
        (w.getLsbD 8 = false ∨ w.toNat % 256 = 1 ∨ w.toNat % 256 = 2 ∨ w.toNat % 256 = 3 ∨ w.toNat % 256 = 4))

/-- A command word that fails one of the three conditions of rule R91 is accepted like any other, BUSY set and CMD
reading it back, and whenever the engine has the turn (its own, no input left, or a stalled MEM access at the head) it
completes with E_OPCODE, code 1, DONE and ERR set, committing nothing. Whose turn it is: logs 3 and 13. -/
def Obligations.IllegalWordCompletesWithOpcodeError : Prop :=
  ∀ (s : State) (w : Word),
    ¬(w.toNat % 256 ∈ [0x00, 0x01, 0x02, 0x03, 0x04, 0x10, 0x11, 0x20, 0x21, 0x22, 0x28, 0x30, 0x31, 0x40, 0x41, 0x42,
          0x43] ∧
        w.toNat / 512 = 0 ∧
        (w.getLsbD 8 = false ∨ w.toNat % 256 = 1 ∨ w.toNat % 256 = 2 ∨ w.toNat % 256 = 3 ∨ w.toNat % 256 = 4)) →
    (∀ rest, s.engine = .idle → s.inputs = .access (.write 0x0C 4 w) :: rest →
      ∃ t, step s = .next t ∧ t.engine = .running w s.takeSnapshot ∧ (t.readReg .status).getLsbD 0 = true ∧
        t.readReg .cmd = w) ∧
    (∀ sn, s.engine = .running w sn →
      (s.inputs = [] → step s = .next { s with engine := .idle, status := ⟨true, true, s.status.overrun, 1#8⟩ }) ∧
      (∀ rest, s.inputs = .engineTurn :: rest →
        step s = .next { s with engine := .idle, status := ⟨true, true, s.status.overrun, 1#8⟩, inputs := rest }) ∧
      (∀ a rest, s.inputs = .access a :: rest → 0x01000000 ≤ a.offset → a.offset < 0x01000000 + s.params.memSize →
        step s = .next { s with engine := .idle, status := ⟨true, true, s.status.overrun, 1#8⟩ }))

/-! ### The step (40_command_control.md) -/

/-- When the engine is running a word that decodes to `i` and has the turn, the step is `exec i`: its own turn in the
input list, no input left, or a stalled MEM access, which stays at the head. Which input is next is the model's: logs
3 and 13. -/
def Obligations.StepRunsDecodedCommand : Prop :=
  ∀ (s : State) (w : Word) (sn : Snapshot) (i : Instr), s.engine = .running w sn → decode w = .ok i →
    (s.inputs = [] → step s = exec i s) ∧
    (∀ rest, s.inputs = .engineTurn :: rest → step s = exec i { s with inputs := rest }) ∧
    (∀ a rest, s.inputs = .access a :: rest → 0x01000000 ≤ a.offset → a.offset < 0x01000000 + s.params.memSize →
      step s = exec i s)

/-- A CMD write while idle is accepted: CMD reads the word, BUSY is set, DONE, ERR and ERRCODE are cleared, OVERRUN is
unchanged, the engine runs the word with the snapshot of the registers, and nothing else changes (rules R110 and
R111). -/
def Obligations.IdleCommandWriteIsAccepted : Prop :=
  ∀ (s : State) (w : Word) (rest : List Input), s.engine = .idle → s.inputs = .access (.write 0x0C 4 w) :: rest →
    step s = .next
      { s with
        engine := .running w ⟨s.args, s.u0, s.u1, s.cvpoly⟩
        cmd := w
        status := ⟨false, false, s.status.overrun, 0#8⟩
        inputs := rest
        responses := .written :: s.responses }

/-- A CMD write while BUSY is dropped: OVERRUN is set and nothing else changes (rule R112). -/
def Obligations.BusyCommandWriteOverruns : Prop :=
  ∀ (s : State) (w v : Word) (sn : Snapshot) (rest : List Input), s.engine = .running w sn →
    s.inputs = .access (.write 0x0C 4 v) :: rest →
    step s = .next
      { s with
        status := { s.status with overrun := true }
        inputs := rest
        responses := .written :: s.responses }

/-- Every command completes in one step, idle and DONE, OVERRUN as before, ERR exactly with a nonzero ERRCODE of at
most 10. Operands of an idle engine: log 4. -/
def Obligations.EveryCommandCompletes : Prop :=
  ∀ (i : Instr) (s : State), ∃ t, exec i s = .next t ∧ t.engine = .idle ∧ t.status.done = true ∧
    t.status.overrun = s.status.overrun ∧ (t.status.err = true ↔ t.status.errcode ≠ 0#8) ∧ t.status.errcode.toNat ≤ 10

/-- A command that raises an error commits nothing: only STATUS changes, and the engine is idle (rule R263). (The draws
a failed read of undefined bytes made are spent: the model's own field, log 2.) -/
def Obligations.ErrorCommitsNothing : Prop :=
  ∀ (i : Instr) (s t : State), exec i s = .next t → t.status.err = true →
    t = { s.doneErr t.status.errcode with draws := t.draws }

/-- What no command changes: CMD, ARG, CVPOLY, every LnCFG, LnFB and LnOT, the parameters, the inputs and the responses;
LnSTATE only by an LFSR command on that unit, CVCAP only by the encoder's commands, MEM only by the commands with a MEM
result; RES0 not by NOP and CONV_RELEASE, RES1 only by RCG_INFO, RCG_BUILD and CONV_ENCODE, RES2 only by RCG_INFO and
RCG_BUILD, RES3 only by RCG_INFO (rule R98); and draws only by the commands that read MEM. The parameters, draws, the
inputs and the responses are the model's own: logs 1, 2, 3 and 6. Operands of an idle engine: log 4. -/
def Obligations.CommandFrame : Prop :=
  ∀ (i : Instr) (s t : State), exec i s = .next t →
    t.cmd = s.cmd ∧ t.args = s.args ∧ t.cvpoly = s.cvpoly ∧ t.params = s.params ∧ t.inputs = s.inputs ∧
    t.responses = s.responses ∧
    t.u0 = { s.u0 with state := t.u0.state } ∧ t.u1 = { s.u1 with state := t.u1.state } ∧
    (i ∉ [.lfsrFibStep .u0, .lfsrFibGen .u0, .lfsrGalStep .u0, .lfsrGalGen .u0] → t.u0 = s.u0) ∧
    (i ∉ [.lfsrFibStep .u1, .lfsrFibGen .u1, .lfsrGalStep .u1, .lfsrGalGen .u1] → t.u1 = s.u1) ∧
    (i ∉ [.convEncode, .convRelease] → t.cvcap = s.cvcap) ∧
    (i ∉ [.lfsrFibGen .u0, .lfsrFibGen .u1, .lfsrGalGen .u0, .lfsrGalGen .u1, .rcgBuild, .convEncode, .muxDual,
        .muxAltboc, .altSegment] → t.mem = s.mem) ∧
    (i ∈ [.nop, .convRelease] → t.res.r0 = s.res.r0) ∧
    (i ∉ [.rcgInfo, .rcgBuild, .convEncode] → t.res.r1 = s.res.r1) ∧
    (i ∉ [.rcgInfo, .rcgBuild] → t.res.r2 = s.res.r2) ∧
    (i ≠ .rcgInfo → t.res.r3 = s.res.r3) ∧
    (i ∉ [.convEncode, .muxDual, .muxAltboc] → t.draws = s.draws)

/-! ### NOP and CONV_RELEASE -/

/-- NOP completes with no effect but STATUS (rule R119). -/
def Obligations.NopOnlySetsStatus : Prop := ∀ s : State, exec .nop s = .next s.doneOk

/-- CONV_RELEASE clears CVCAP, twice as well as once, and changes nothing else but STATUS (rule R214). -/
def Obligations.ConvReleaseClearsCapture : Prop :=
  ∀ s : State, exec .convRelease s = .next { s.doneOk with cvcap := ⟨false, 0#6⟩ } ∧
    exec .convRelease { s.doneOk with cvcap := ⟨false, 0#6⟩ } = .next { s.doneOk with cvcap := ⟨false, 0#6⟩ }

/-! ### LFSR commands (41_lfsr.md); `fib` selects the Fibonacci or the Galois form -/

/-- A step command on a legal unit: RES0 is the output of the state, LuSTATE the state that follows it stage by
stage, and nothing else changes but STATUS (rules R130, R131, R135, R141). Operands of an idle engine: log 4. -/
def Obligations.LfsrStepResult : Prop :=
  ∀ (fib : Bool) (u : UnitSel) (s : State), (s.snap.unit u).legalFor fib →
    ∃ y : Word, (s.snap.unit u).follows fib (s.snap.unit u).state y ∧
      exec (if fib then .lfsrFibStep u else .lfsrGalStep u) s =
        .next { s.doneOk.withUnitState u y with
          res := { s.res with r0 := if (s.snap.unit u).outputOf fib (s.snap.unit u).state then 1#32 else 0#32 } }

/-- A generation command on a legal unit and region: the states x 0, x 1, … each follow the one before; byte dst+i is
the output of x i, RES0 the count, LuSTATE the state after the last step; every other byte and register is unchanged
(rules R137, R141, R142, R147). Operands of an idle engine: log 4. -/
def Obligations.LfsrGenResult : Prop :=
  ∀ (fib : Bool) (u : UnitSel) (s : State) (dst count : Nat), (s.snap.unit u).legalFor fib →
    s.snap.args.a0.toNat = dst → s.snap.args.a1.toNat = count → s.inMem dst count →
    ∃ (x : Nat → Word) (t : State), x 0 = (s.snap.unit u).state ∧
      (∀ i, (s.snap.unit u).follows fib (x i) (x (i + 1))) ∧
      exec (if fib then .lfsrFibGen u else .lfsrGalGen u) s = .next t ∧
      t = { s.doneOk.withUnitState u (x count) with res := { s.res with r0 := s.snap.args.a1 }, mem := t.mem } ∧
      ∀ a, t.mem.peek a =
        if dst ≤ a ∧ a < dst + count then
          some (if (s.snap.unit u).outputOf fib (x (a - dst)) then 0x01#8 else 0x00#8)
        else s.mem.peek a

/-- The errors of the LFSR commands in their order, E_SIZE 3, E_SEED 4, E_TAP 5, and E_RANGE 9 of a generation
command, each committing nothing (rules R132, R133, R134 and R264). Operands of an idle engine: log 4. -/
def Obligations.LfsrErrorsInOrder : Prop :=
  ∀ (fib : Bool) (u : UnitSel) (s : State) (i : Instr),
    i = (if fib then .lfsrFibStep u else .lfsrGalStep u) ∨ i = (if fib then .lfsrFibGen u else .lfsrGalGen u) →
    (¬(s.snap.unit u).sizeOk → exec i s = .next (s.doneErr 3#8)) ∧
    ((s.snap.unit u).sizeOk → ¬(s.snap.unit u).fits (s.snap.unit u).state → exec i s = .next (s.doneErr 4#8)) ∧
    ((s.snap.unit u).sizeOk → (s.snap.unit u).fits (s.snap.unit u).state → ¬(s.snap.unit u).tapsOk fib →
      exec i s = .next (s.doneErr 5#8)) ∧
    (i = (if fib then .lfsrFibGen u else .lfsrGalGen u) → (s.snap.unit u).legalFor fib →
      ¬s.inMem s.snap.args.a0.toNat s.snap.args.a1.toNat → exec i s = .next (s.doneErr 9#8))

/-- Two generation commands in sequence, LuSTATE not written in between, equal one: MEM reads the same everywhere and
the unit ends in the same state (rule R138). -/
def Obligations.LfsrGenContinues : Prop :=
  ∀ (fib : Bool) (u : UnitSel) (s : State) (w dst : Word) (a b : Nat), (s.unitNow u).legalFor fib →
    s.inMem dst.toNat (a + b) →
    ∃ t1 t2 t : State,
      exec (if fib then .lfsrFibGen u else .lfsrGalGen u)
        ({ s with args := { s.args with a0 := dst, a1 := BitVec.ofNat 32 a } }.accept w) = .next t1 ∧
      exec (if fib then .lfsrFibGen u else .lfsrGalGen u)
        ({ t1 with args := { t1.args with a0 := dst + BitVec.ofNat 32 a, a1 := BitVec.ofNat 32 b } }.accept w) =
          .next t2 ∧
      exec (if fib then .lfsrFibGen u else .lfsrGalGen u)
        ({ s with args := { s.args with a0 := dst, a1 := BitVec.ofNat 32 (a + b) } }.accept w) = .next t ∧
      t.status.err = false ∧ (∀ x, t2.mem.peek x = t.mem.peek x) ∧ t2.unitNow u = t.unitNow u

/-! ### Ranging codes (42_ranging.md) -/

/-- The facts the document gives about B1I, B3I and L1OF, whatever the open fields are (rule R163). A constructor of
RomEntry per named signal is the model's form of them: log 10. -/
def Obligations.NamedSignalFacts : Prop :=
  (∀ g1 segs g2 taps, (descriptorOf (.b1i g1 segs g2 taps)).len = 2046 ∧
    (descriptorOf (.b1i g1 segs g2 taps)).sats.length = 37 ∧
    ∀ e ∈ (descriptorOf (.b1i g1 segs g2 taps)).sats, ∃ l, e = .outTaps l) ∧
  (∀ g1 g2 sats, (descriptorOf (.b3i g1 g2 sats)).g1Segments = [8190, 2040] ∧
    (descriptorOf (.b3i g1 g2 sats)).len = 10230) ∧
  (∀ segs, (descriptorOf (.l1of segs)).len = 511 ∧ (descriptorOf (.l1of segs)).g2 = none ∧
    (descriptorOf (.l1of segs)).sats = [.single] ∧
    (descriptorOf (.l1of segs)).g1 = .fib 9 (List.replicate 9 true) [5, 9] (some [7]))

/-- The descriptor checks pass exactly for a well-formed descriptor (rule R161). Which check an entry without its G2
fails is log 11; that it fails is rule R161. -/
def Obligations.CheckPassesExactlyWellFormed : Prop :=
  ∀ d : Descriptor, checkDescriptor d = none ↔ Descriptor.WellFormed d

/-- RCG_INFO on a well-formed descriptor reports nSat, L, the size of G1 and the kind, and changes nothing else but
STATUS (rule R170). The hypotheses that nSat and L fit in 32 bits are where the spec states no value (log 7).
Operands of an idle engine: log 4. -/
def Obligations.RcgInfoReportsSizes : Prop :=
  ∀ (s : State) (e : RomEntry), s.params.signals[s.snap.args.a0.toNat]? = some e →
    Descriptor.WellFormed (descriptorOf e) → (descriptorOf e).len < 2 ^ 32 → (descriptorOf e).sats.length < 2 ^ 32 →
    exec .rcgInfo s = .next
      { s.doneOk with
        res :=
          ⟨BitVec.ofNat 32 (descriptorOf e).sats.length, BitVec.ofNat 32 (descriptorOf e).len,
           BitVec.ofNat 32 (match (descriptorOf e).g1 with
            | .fib n _ _ _ => n
            | .gal n _ _ => n),
           if (descriptorOf e).g2 = none then 0#32
           else if (descriptorOf e).sats.any (fun x => match x with
              | .outTaps _ => true
              | _ => false) then 2#32
           else 1#32⟩ }

/-- RCG_BUILD on a well-formed descriptor and a legal region: satellite k's code stands at dst + 2·L·k and its
negation L bytes on. Chip i is 0x01 for b = 1 and 0xFF for b = 0 in the code and the other way round in the negation,
b the XOR of output i of ONE run of G1 from its seed and output i of the satellite's G2, both runs given state by state
and bit by bit. RES0, RES1 and RES2 are nSat, L and 2·L·nSat, and nothing else changes (rules R162, R167, R168, R169,
R171, R172). The hypotheses that nSat and L fit in 32 bits are where the spec states no value (log 7). Operands of an
idle engine: log 4. -/
def Obligations.RcgBuildWritesTable : Prop :=
  ∀ (s : State) (r : RomEntry) (d : Descriptor) (dst : Nat), s.params.signals[s.snap.args.a0.toNat]? = some r →
    descriptorOf r = d → Descriptor.WellFormed d → s.snap.args.a1.toNat = dst → s.inMem dst (2 * d.len * d.sats.length) →
    d.len < 2 ^ 32 → d.sats.length < 2 ^ 32 →
    ∃ (t : State) (b1 : Nat → Bool), exec .rcgBuild s = .next t ∧ d.g1.outputs b1 ∧
      t = { s.doneOk with
            res := { s.res with
              r0 := BitVec.ofNat 32 d.sats.length
              r1 := BitVec.ofNat 32 d.len
              r2 := BitVec.ofNat 32 (2 * d.len * d.sats.length) }
            mem := t.mem } ∧
      (∀ a, a < dst ∨ dst + 2 * d.len * d.sats.length ≤ a → t.mem.peek a = s.mem.peek a) ∧
      ∀ k e, d.sats[k]? = some e →
        ∃ b2 : Nat → Bool, d.g2Outputs e b2 ∧
          ∀ i, i < d.len →
            t.mem.peek (dst + 2 * d.len * k + i) = some (if b1 i ^^ b2 i then 0x01#8 else 0xFF#8) ∧
            t.mem.peek (dst + 2 * d.len * k + d.len + i) = some (if b1 i ^^ b2 i then 0xFF#8 else 0x01#8)

/-- Every byte of the table a successful RCG_BUILD leaves is +1 or −1, never 0 or out of range, and each negated chip
is the arithmetic negation of its chip (rule R173). Operands of an idle engine: log 4. -/
def Obligations.RcgTableIsSignedChips : Prop :=
  ∀ (s t : State) (r : RomEntry) (d : Descriptor) (dst : Nat), s.params.signals[s.snap.args.a0.toNat]? = some r →
    descriptorOf r = d → s.snap.args.a1.toNat = dst → exec .rcgBuild s = .next t → t.status.err = false →
    ∀ k i, k < d.sats.length → i < d.len →
      ∃ b : Byte, (b = 0x01#8 ∨ b = 0xFF#8) ∧ t.mem.peek (dst + 2 * d.len * k + i) = some b ∧
        t.mem.peek (dst + 2 * d.len * k + d.len + i) = some (-b)

/-- The errors of the ranging commands in their order: E_INDEX 2 for a signal index of at least NSIG; then the first
failing descriptor check of rule R161, E_SIZE 3, E_SEED 4, E_TAP 5, E_DESC 6; then E_RANGE 9 for an RCG_BUILD region;
each commits nothing (rules R161, R170 and R172). For an entry that needs a G2 its descriptor lacks, past the size and
seed checks, the code is one of 4, 5 and 6: log 11 says which. Operands of an idle engine: log 4. -/
def Obligations.RangingErrorsInOrder : Prop :=
  ∀ (s : State) (i : Instr), i = .rcgInfo ∨ i = .rcgBuild →
    (s.params.signals.length ≤ s.snap.args.a0.toNat → exec i s = .next (s.doneErr 2#8)) ∧
    ∀ r d, s.params.signals[s.snap.args.a0.toNat]? = some r → descriptorOf r = d →
      (¬d.sizesOk → exec i s = .next (s.doneErr 3#8)) ∧
      (d.sizesOk → ¬d.seedsOk → exec i s = .next (s.doneErr 4#8)) ∧
      (d.sizesOk → d.seedsOk → d.entriesHaveG2 → ¬d.tapsOk → exec i s = .next (s.doneErr 5#8)) ∧
      (d.sizesOk → d.seedsOk → d.entriesHaveG2 → d.tapsOk → ¬d.entriesOk → exec i s = .next (s.doneErr 6#8)) ∧
      (d.sizesOk → d.seedsOk → ¬d.entriesHaveG2 →
        exec i s = .next (s.doneErr 4#8) ∨ exec i s = .next (s.doneErr 5#8) ∨ exec i s = .next (s.doneErr 6#8)) ∧
      (d.WellFormed → i = .rcgBuild → ¬s.inMem s.snap.args.a1.toNat (2 * d.len * d.sats.length) →
        exec i s = .next (s.doneErr 9#8))

/-! ### Channel coders (43_channel_coders.md) -/

/-- For 11 data bits BCH_ENCODE's RES0 holds the data at [10:0] and, at [14:11], the parity nibble that BCH_PARITY
gives; the codeword, bit 0 the highest power, is a multiple of x^4 + x + 1. Nothing else changes but STATUS (rules
R192, R193, R194, R195). Operands of an idle engine: log 4. -/
def Obligations.BchCodewordsAreMultiples : Prop :=
  ∀ s : State, s.snap.args.a0.toNat < 2 ^ 11 →
    ∃ p : BitVec 4,
      exec .bchParity s = .next { s.doneOk with res := { s.res with r0 := BitVec.ofNat 32 p.toNat } } ∧
      exec .bchEncode s =
        .next { s.doneOk with res := { s.res with r0 := BitVec.ofNat 32 (p.toNat * 2 ^ 11 + s.snap.args.a0.toNat) } } ∧
      remainderMod19 ((List.range 11).map s.snap.args.a0.getLsbD ++ (List.range 4).map p.getLsbD) 0#4 = 0#4

/-- BCH_ENCODE_IL of 22 bits interleaves the codewords of its two halves bit by bit, word A first; bits 30 and 31 are
0, and nothing else changes but STATUS (rules R196 and R197). Operands of an idle engine: log 4. -/
def Obligations.BchInterleaveAlternatesCodewords : Prop :=
  ∀ s : State, s.snap.args.a0.toNat < 2 ^ 22 →
    ∃ w : Word, exec .bchEncodeIl s = .next { s.doneOk with res := { s.res with r0 := w } } ∧
      (∀ i, i < 15 →
        w.getLsbD (2 * i) = (bchCodeword (s.snap.args.a0.extractLsb' 0 11)).getLsbD i ∧
        w.getLsbD (2 * i + 1) = (bchCodeword (s.snap.args.a0.extractLsb' 11 11)).getLsbD i) ∧
      w.getLsbD 30 = false ∧ w.getLsbD 31 = false

/-- The parity is linear over GF(2) (rule R193). -/
def Obligations.BchParityIsLinear : Prop :=
  ∀ a b : BitVec 11, bchParity (a ^^^ b) = bchParity a ^^^ bchParity b

/-- The BCH register starts at 0000 and takes the data bits 0 to 10 in order, each by the document's assignments in
the order written (rules R190 and R191). Operands of an idle engine: log 4. -/
def Obligations.BchShiftIsTheAssignments : Prop :=
  (∀ (r : BchReg) (bit : Bool),
    bchShift r bit =
      let new := bit ^^ r.r3
      let r := { r with r3 := r.r2 }
      let r := { r with r2 := r.r1 }
      let r := { r with r1 := new ^^ r.r0 }
      { r with r0 := new }) ∧
  ∀ s : State, s.snap.args.a0.toNat < 2 ^ 11 →
    ∃ t, exec .bchParity s = .next t ∧
      t.res.r0 = ((List.map s.snap.args.a0.getLsbD [0, 1, 2, 3, 4, 5, 6, 7, 8, 9, 10]).foldl bchShift
        ⟨false, false, false, false⟩).parityBits.setWidth 32

/-- HAM_CHECK: bit j−1 of RES0 is the parity of the message bits table T_j selects, for j = 1..7; bit 7 is the parity
of the whole message and those seven bits; the rest is 0 and nothing else changes but STATUS (rules R199, R200,
R201). Operands of an idle engine: log 4. -/
def Obligations.HamCheckComputesParities : Prop :=
  ∀ (s : State) (m : BitVec 77), s.snap.args.a2.toNat < 2 ^ 13 →
    (∀ k, k < 77 →
      m.getLsbD k =
        if k < 32 then s.snap.args.a0.getLsbD k
        else if k < 64 then s.snap.args.a1.getLsbD (k - 32) else s.snap.args.a2.getLsbD (k - 64)) →
    ∃ c : Byte, exec .hamCheck s = .next { s.doneOk with res := { s.res with r0 := c.setWidth 32 } } ∧
      (∀ j : Fin 7, c.getLsbD j = oddOnes (m &&& s.params.hamTables[j])) ∧
      c.getLsbD 7 = (oddOnes m ^^ oddOnes (c.setWidth 7))

/-- The check bits are linear in the message, and those of the zero message are zero, for every table (rule R201). -/
def Obligations.HamCheckIsLinear : Prop :=
  ∀ (tables : Vector (BitVec 77) 7) (m m' : BitVec 77),
    hamCheckBits tables (m ^^^ m') = hamCheckBits tables m ^^^ hamCheckBits tables m' ∧ hamCheckBits tables 0#77 = 0#8

/-- A packed operand with a bit above its field is E_BITVAL, code 10, and commits nothing: BCH, HAM_CHECK and
ALT_MODIDX (30_encoding.md rule R96). Operands of an idle engine: log 4. -/
def Obligations.PackedOperandErrors : Prop :=
  ∀ s : State,
    (2 ^ 11 ≤ s.snap.args.a0.toNat →
      exec .bchParity s = .next (s.doneErr 10#8) ∧ exec .bchEncode s = .next (s.doneErr 10#8)) ∧
    (2 ^ 22 ≤ s.snap.args.a0.toNat → exec .bchEncodeIl s = .next (s.doneErr 10#8)) ∧
    (2 ^ 13 ≤ s.snap.args.a2.toNat → exec .hamCheck s = .next (s.doneErr 10#8)) ∧
    (2 ≤ s.snap.args.a0.toNat ∨ 2 ≤ s.snap.args.a1.toNat ∨ 2 ≤ s.snap.args.a2.toNat ∨ 2 ≤ s.snap.args.a3.toNat →
      exec .altModidx s = .next (s.doneErr 10#8))

/-- CONV_ENCODE over input bytes that decode to `bits`, defined bytes or draws of undefined ones: symbol A of input bit i
stands at dst+2i and symbol B after it, each the parity of the delayed inputs its generator selects; RES0 is the last 6
inputs, RES1 2·len, CVCAP the 6 inputs up to bit k with VALID; no other byte or register changes (rules R205, R206,
R207, R210, R211; 20_memory.md rule R67). The draws and their counter: log 2. Operands of an idle engine: log 4. -/
def Obligations.ConvEncodeConvolves : Prop :=
  ∀ (s : State) (src dst k d : Nat) (bytes : List Byte) (bits : List Bool),
    s.snap.args.a0.toNat = src → s.snap.args.a1.toNat = bytes.length → s.snap.args.a2.toNat = dst →
    s.snap.args.a3.toNat = k → s.snap.args.a4.toNat < 2 ^ 6 → k < bytes.length →
    s.inMem src bytes.length → s.inMem dst (2 * bytes.length) → reads s.mem s.draws src bytes d → decodesTo bytes bits →
    ∃ (t : State) (fin cap : BitVec 6), exec .convEncode s = .next t ∧
      t = { s.doneOk with
            res := { s.res with r0 := fin.setWidth 32, r1 := BitVec.ofNat 32 (2 * bytes.length) }
            cvcap := ⟨true, cap⟩
            mem := t.mem
            draws := d } ∧
      (∀ j, j < 6 → fin.getLsbD j = delayed bits s.snap.args.a4 (bytes.length - 1) j) ∧
      (∀ j, j < 6 → cap.getLsbD j = delayed bits s.snap.args.a4 k j) ∧
      (∀ i, i < bytes.length →
        t.mem.peek (dst + 2 * i) =
          some (if symbolAt s.snap.cvpoly.ga s.snap.cvpoly.inva bits s.snap.args.a4 i then 0x01#8 else 0x00#8) ∧
        t.mem.peek (dst + 2 * i + 1) =
          some (if symbolAt s.snap.cvpoly.gb s.snap.cvpoly.invb bits s.snap.args.a4 i then 0x01#8 else 0x00#8)) ∧
      ∀ a, a < dst ∨ dst + 2 * bytes.length ≤ a → t.mem.peek a = s.mem.peek a

/-- Encoding a sequence in two commands, the second from the state captured at the end of the first, gives the same
MEM and the same final state as encoding it in one (rule R208); the output region lies clear of the input. -/
def Obligations.ConvEncodeResumes : Prop :=
  ∀ (s : State) (w src dst s0 : Word) (a b : Nat) (bytes : List Byte) (bits : List Bool),
    0 < a → 0 < b → bytes.length = a + b → s0.toNat < 2 ^ 6 → src.toNat + (a + b) ≤ s.params.memSize →
    dst.toNat + 2 * (a + b) ≤ s.params.memSize →
    (src.toNat + (a + b) ≤ dst.toNat ∨ dst.toNat + 2 * (a + b) ≤ src.toNat) →
    holds s.mem src.toNat bytes → decodesTo bytes bits →
    ∃ t1 t2 t : State,
      exec .convEncode
        ({ s with args := { s.args with a0 := src, a1 := BitVec.ofNat 32 a, a2 := dst, a3 := BitVec.ofNat 32 (a - 1),
                                        a4 := s0 } }.accept w) = .next t1 ∧
      t1.cvcap.valid = true ∧
      exec .convEncode
        ({ t1 with args := { s.args with a0 := src + BitVec.ofNat 32 a, a1 := BitVec.ofNat 32 b,
                                         a2 := dst + BitVec.ofNat 32 (2 * a), a3 := BitVec.ofNat 32 (b - 1),
                                         a4 := t1.cvcap.state.setWidth 32 } }.accept w) = .next t2 ∧
      exec .convEncode
        ({ s with args := { s.args with a0 := src, a1 := BitVec.ofNat 32 (a + b), a2 := dst,
                                        a3 := BitVec.ofNat 32 (a + b - 1), a4 := s0 } }.accept w) = .next t ∧
      t.status.err = false ∧ (∀ x, t2.mem.peek x = t.mem.peek x) ∧ t2.res.r0 = t.res.r0 ∧ t2.cvcap = t.cvcap

/-- The errors of CONV_ENCODE in their order, E_SEED 4, E_CAPIDX 8 (always for an empty input), E_RANGE 9 and, for a
defined input byte that is no bit, E_BITVAL 10; each commits nothing, CVCAP included (rules R207, R210, R211).
Operands of an idle engine: log 4. -/
def Obligations.ConvEncodeErrorsInOrder : Prop :=
  ∀ s : State,
    (2 ^ 6 ≤ s.snap.args.a4.toNat → exec .convEncode s = .next (s.doneErr 4#8)) ∧
    (s.snap.args.a4.toNat < 2 ^ 6 → s.snap.args.a1.toNat ≤ s.snap.args.a3.toNat →
      exec .convEncode s = .next (s.doneErr 8#8)) ∧
    (s.snap.args.a4.toNat < 2 ^ 6 → s.snap.args.a3.toNat < s.snap.args.a1.toNat →
      ¬(s.inMem s.snap.args.a0.toNat s.snap.args.a1.toNat ∧ s.inMem s.snap.args.a2.toNat (2 * s.snap.args.a1.toNat)) →
      exec .convEncode s = .next (s.doneErr 9#8)) ∧
    (∀ k b, s.snap.args.a4.toNat < 2 ^ 6 → s.snap.args.a3.toNat < s.snap.args.a1.toNat →
      s.inMem s.snap.args.a0.toNat s.snap.args.a1.toNat → s.inMem s.snap.args.a2.toNat (2 * s.snap.args.a1.toNat) →
      k < s.snap.args.a1.toNat → s.mem.peek (s.snap.args.a0.toNat + k) = some b → b ≠ 0x00#8 → b ≠ 0x01#8 → b ≠ 0xFF#8 →
      ∃ d, exec .convEncode s = .next { s.doneErr 10#8 with draws := d })

/-! ### Multiplexers (44_multiplexers.md) -/

/-- MUX_DUAL over two codes, of defined bytes or draws of undefined ones: sample t of chip i is sample t of pattern
2·a_i + b_i of the selected set, RES0 is 12·L, and no other byte or register changes (rules R233 and R234; 20_memory.md
rule R67). The draws and their counter: log 2. Operands of an idle engine: log 4. -/
def Obligations.MuxDualSelectsPatterns : Prop :=
  ∀ (s : State) (ps : PatternSet) (srcA srcB dst d1 d2 : Nat) (ba bb : List Byte) (as bs : List Bool),
    (s.params.dualFirst :: s.params.dualRest)[s.snap.args.a0.toNat]? = some ps →
    s.snap.args.a1.toNat = srcA → s.snap.args.a2.toNat = srcB → s.snap.args.a3.toNat = ba.length →
    bb.length = ba.length → s.snap.args.a4.toNat = dst → s.inMem srcA ba.length → s.inMem srcB ba.length →
    s.inMem dst (12 * ba.length) → reads s.mem s.draws srcA ba d1 → reads s.mem d1 srcB bb d2 → decodesTo ba as →
    decodesTo bb bs →
    ∃ t, exec .muxDual s = .next t ∧
      t = { s.doneOk with res := { s.res with r0 := BitVec.ofNat 32 (12 * ba.length) }, mem := t.mem, draws := d2 } ∧
      (∀ (i : Nat) (a b : Bool) (j : Fin 4) (n : Fin 12), as[i]? = some a → bs[i]? = some b →
        j.val = 2 * a.toNat + b.toNat → t.mem.peek (dst + 12 * i + n.val) = some ps[j][n]) ∧
      ∀ x, x < dst ∨ dst + 12 * ba.length ≤ x → t.mem.peek x = s.mem.peek x

/-- MUX_ALTBOC over four codes of even length, of defined bytes or draws of undefined ones: with q i the combined chips of position i, e5aI most
significant and each XORed with its bit of m, byte 24j+n of the I and Q outputs is the I and Q of sample n of the
segment of q(2j) and q(2j+1); RES0 is 12·L, and no other byte or register changes (rules R236 to R241). On a byte in
both output regions the Q sample stands: rule R240's corner case, log 8. The draws (20_memory.md rule R67) and their counter:
log 2. Operands of an idle engine: log 4. -/
def Obligations.MuxAltbocComposesSegments : Prop :=
  ∀ (s : State) (len d1 d2 d3 d4 : Nat) (b0 b1 b2 b3 : List Byte) (aI bI aQ bQ : List Bool) (q : Nat → Fin 16),
    s.snap.args.a4.toNat = len → len % 2 = 0 → s.snap.args.a7.toNat < 16 →
    b0.length = len → b1.length = len → b2.length = len → b3.length = len →
    s.inMem s.snap.args.a0.toNat len → s.inMem s.snap.args.a1.toNat len → s.inMem s.snap.args.a2.toNat len →
    s.inMem s.snap.args.a3.toNat len → s.inMem s.snap.args.a5.toNat (12 * len) →
    s.inMem s.snap.args.a6.toNat (12 * len) →
    reads s.mem s.draws s.snap.args.a0.toNat b0 d1 → reads s.mem d1 s.snap.args.a1.toNat b1 d2 →
    reads s.mem d2 s.snap.args.a2.toNat b2 d3 → reads s.mem d3 s.snap.args.a3.toNat b3 d4 → decodesTo b0 aI → decodesTo b1 bI → decodesTo b2 aQ → decodesTo b3 bQ →
    (∀ i, i < len → (q i).val =
      8 * ((aI[i]?.getD false) ^^ s.snap.args.a7.getLsbD 3).toNat + 4 * ((bI[i]?.getD false) ^^ s.snap.args.a7.getLsbD 2).toNat +
      2 * ((aQ[i]?.getD false) ^^ s.snap.args.a7.getLsbD 1).toNat + ((bQ[i]?.getD false) ^^ s.snap.args.a7.getLsbD 0).toNat) →
    ∃ t, exec .muxAltboc s = .next t ∧
      t = { s.doneOk with res := { s.res with r0 := BitVec.ofNat 32 (12 * len) }, mem := t.mem, draws := d4 } ∧
      ∀ x, t.mem.peek x =
        if s.snap.args.a6.toNat ≤ x ∧ x < s.snap.args.a6.toNat + 12 * len then
          some (segmentSample s.params (q (2 * ((x - s.snap.args.a6.toNat) / 24)))
            (q (2 * ((x - s.snap.args.a6.toNat) / 24) + 1)) ((x - s.snap.args.a6.toNat) % 24)).q
        else if s.snap.args.a5.toNat ≤ x ∧ x < s.snap.args.a5.toNat + 12 * len then
          some (segmentSample s.params (q (2 * ((x - s.snap.args.a5.toNat) / 24)))
            (q (2 * ((x - s.snap.args.a5.toNat) / 24) + 1)) ((x - s.snap.args.a5.toNat) % 24)).i
        else s.mem.peek x

/-- ALT_SEGMENT with a segment index of at most 255: the 24 I and Q samples of segment 16·A + B at the two
destinations, RES0 = 24, and no other byte or register changes (rules R237 and R245); Q on a byte of both regions. Q
on a shared byte: log 8. Operands of an idle engine: log 4. -/
def Obligations.AltSegmentReadsSegment : Prop :=
  ∀ (s : State) (a b : Fin 16), s.snap.args.a0.toNat = 16 * a.val + b.val → s.inMem s.snap.args.a1.toNat 24 →
    s.inMem s.snap.args.a2.toNat 24 →
    ∃ t, exec .altSegment s = .next t ∧
      t = { s.doneOk with res := { s.res with r0 := 24#32 }, mem := t.mem } ∧
      ∀ x, t.mem.peek x =
        if s.snap.args.a2.toNat ≤ x ∧ x < s.snap.args.a2.toNat + 24 then
          some (segmentSample s.params a b (x - s.snap.args.a2.toNat)).q
        else if s.snap.args.a1.toNat ≤ x ∧ x < s.snap.args.a1.toNat + 24 then
          some (segmentSample s.params a b (x - s.snap.args.a1.toNat)).i
        else s.mem.peek x

/-- ALT_MODIDX of four bits is 8·e5aI + 4·e5bI + 2·e5aQ + e5bQ, and nothing else changes but STATUS (rule R243).
Operands of an idle engine: log 4. -/
def Obligations.AltModidxPacksBits : Prop :=
  ∀ s : State, s.snap.args.a0.toNat < 2 → s.snap.args.a1.toNat < 2 → s.snap.args.a2.toNat < 2 →
    s.snap.args.a3.toNat < 2 →
    exec .altModidx s = .next
      { s.doneOk with
        res := { s.res with
          r0 := BitVec.ofNat 32 (8 * s.snap.args.a0.toNat + 4 * s.snap.args.a1.toNat + 2 * s.snap.args.a2.toNat +
            s.snap.args.a3.toNat) } }

/-- The errors of the multiplexers in their order: MUX_DUAL E_INDEX 2, E_RANGE 9 and E_BITVAL 10; MUX_ALTBOC E_INDEX 2,
E_ODDLEN 7, E_RANGE 9 and E_BITVAL 10; ALT_SEGMENT E_INDEX 2 and E_RANGE 9; each commits nothing (rules R233, R240,
R245 and R264). E_BITVAL is stated for a defined input byte that is no bit. Operands of an idle engine: log 4. -/
def Obligations.MultiplexerErrorsInOrder : Prop :=
  ∀ s : State,
    (1 + s.params.dualRest.length ≤ s.snap.args.a0.toNat → exec .muxDual s = .next (s.doneErr 2#8)) ∧
    (s.snap.args.a0.toNat < 1 + s.params.dualRest.length →
      ¬(s.inMem s.snap.args.a1.toNat s.snap.args.a3.toNat ∧ s.inMem s.snap.args.a2.toNat s.snap.args.a3.toNat ∧
        s.inMem s.snap.args.a4.toNat (12 * s.snap.args.a3.toNat)) → exec .muxDual s = .next (s.doneErr 9#8)) ∧
    (16 ≤ s.snap.args.a7.toNat → exec .muxAltboc s = .next (s.doneErr 2#8)) ∧
    (s.snap.args.a7.toNat < 16 → s.snap.args.a4.toNat % 2 = 1 → exec .muxAltboc s = .next (s.doneErr 7#8)) ∧
    (s.snap.args.a7.toNat < 16 → s.snap.args.a4.toNat % 2 = 0 →
      ¬(s.inMem s.snap.args.a0.toNat s.snap.args.a4.toNat ∧ s.inMem s.snap.args.a1.toNat s.snap.args.a4.toNat ∧
        s.inMem s.snap.args.a2.toNat s.snap.args.a4.toNat ∧ s.inMem s.snap.args.a3.toNat s.snap.args.a4.toNat ∧
        s.inMem s.snap.args.a5.toNat (12 * s.snap.args.a4.toNat) ∧
        s.inMem s.snap.args.a6.toNat (12 * s.snap.args.a4.toNat)) → exec .muxAltboc s = .next (s.doneErr 9#8)) ∧
    (256 ≤ s.snap.args.a0.toNat → exec .altSegment s = .next (s.doneErr 2#8)) ∧
    (s.snap.args.a0.toNat < 256 → ¬(s.inMem s.snap.args.a1.toNat 24 ∧ s.inMem s.snap.args.a2.toNat 24) →
      exec .altSegment s = .next (s.doneErr 9#8)) ∧
    (∀ k x, s.snap.args.a0.toNat < 1 + s.params.dualRest.length → s.inMem s.snap.args.a1.toNat s.snap.args.a3.toNat →
      s.inMem s.snap.args.a2.toNat s.snap.args.a3.toNat → s.inMem s.snap.args.a4.toNat (12 * s.snap.args.a3.toNat) →
      k < s.snap.args.a3.toNat →
      (s.mem.peek (s.snap.args.a1.toNat + k) = some x ∨ s.mem.peek (s.snap.args.a2.toNat + k) = some x) →
      x ≠ 0x00#8 → x ≠ 0x01#8 → x ≠ 0xFF#8 → ∃ d, exec .muxDual s = .next { s.doneErr 10#8 with draws := d }) ∧
    (∀ k x, s.snap.args.a7.toNat < 16 → s.snap.args.a4.toNat % 2 = 0 →
      (s.inMem s.snap.args.a0.toNat s.snap.args.a4.toNat ∧ s.inMem s.snap.args.a1.toNat s.snap.args.a4.toNat ∧
        s.inMem s.snap.args.a2.toNat s.snap.args.a4.toNat ∧ s.inMem s.snap.args.a3.toNat s.snap.args.a4.toNat ∧
        s.inMem s.snap.args.a5.toNat (12 * s.snap.args.a4.toNat) ∧
        s.inMem s.snap.args.a6.toNat (12 * s.snap.args.a4.toNat)) →
      k < s.snap.args.a4.toNat →
      (s.mem.peek (s.snap.args.a0.toNat + k) = some x ∨ s.mem.peek (s.snap.args.a1.toNat + k) = some x ∨
        s.mem.peek (s.snap.args.a2.toNat + k) = some x ∨ s.mem.peek (s.snap.args.a3.toNat + k) = some x) →
      x ≠ 0x00#8 → x ≠ 0x01#8 → x ≠ 0xFF#8 → ∃ d, exec .muxAltboc s = .next { s.doneErr 10#8 with draws := d })

/-- An undefined input byte does not stop a command: CONV_ENCODE, MUX_DUAL and MUX_ALTBOC on legal operands complete
over any mixture of defined and undefined input bytes. They spend one draw per undefined byte, complete without error
exactly when every byte, drawn or defined, is a bit, and else with E_BITVAL, committing nothing (20_memory.md rules R67
and R75). What MEM and RES hold then is said in ConvEncodeConvolves, MuxDualSelectsPatterns and
MuxAltbocComposesSegments. The draws are the model's free values: log 2. Operands of an idle engine: log 4. -/
def Obligations.UndefinedInputIsDrawn : Prop :=
  ∀ s : State,
    (s.snap.args.a4.toNat < 2 ^ 6 → s.snap.args.a3.toNat < s.snap.args.a1.toNat →
      s.inMem s.snap.args.a0.toNat s.snap.args.a1.toNat → s.inMem s.snap.args.a2.toNat (2 * s.snap.args.a1.toNat) →
      ∃ (t : State) (b : List Byte), exec .convEncode s = .next t ∧ b.length = s.snap.args.a1.toNat ∧
        reads s.mem s.draws s.snap.args.a0.toNat b t.draws ∧
        t.draws = s.draws + undefinedIn s.mem s.snap.args.a0.toNat b.length ∧
        (t.status.err = false ↔ ∀ x ∈ b, isBit x) ∧
        (t.status.err = true → t = { s.doneErr 10#8 with draws := t.draws })) ∧
    (s.snap.args.a0.toNat < 1 + s.params.dualRest.length → s.inMem s.snap.args.a1.toNat s.snap.args.a3.toNat →
      s.inMem s.snap.args.a2.toNat s.snap.args.a3.toNat → s.inMem s.snap.args.a4.toNat (12 * s.snap.args.a3.toNat) →
      ∃ (t : State) (b0 b1 : List Byte) (d1 : Nat), exec .muxDual s = .next t ∧
        b0.length = s.snap.args.a3.toNat ∧ b1.length = s.snap.args.a3.toNat ∧
        reads s.mem s.draws s.snap.args.a1.toNat b0 d1 ∧ reads s.mem d1 s.snap.args.a2.toNat b1 t.draws ∧
        t.draws = s.draws + undefinedIn s.mem s.snap.args.a1.toNat b0.length +
          undefinedIn s.mem s.snap.args.a2.toNat b1.length ∧
        (t.status.err = false ↔ ∀ x ∈ b0 ++ b1, isBit x) ∧
        (t.status.err = true → t = { s.doneErr 10#8 with draws := t.draws })) ∧
    (s.snap.args.a7.toNat < 16 → s.snap.args.a4.toNat % 2 = 0 → s.inMem s.snap.args.a0.toNat s.snap.args.a4.toNat →
      s.inMem s.snap.args.a1.toNat s.snap.args.a4.toNat → s.inMem s.snap.args.a2.toNat s.snap.args.a4.toNat →
      s.inMem s.snap.args.a3.toNat s.snap.args.a4.toNat → s.inMem s.snap.args.a5.toNat (12 * s.snap.args.a4.toNat) →
      s.inMem s.snap.args.a6.toNat (12 * s.snap.args.a4.toNat) →
      ∃ (t : State) (b0 b1 b2 b3 : List Byte) (d1 d2 d3 : Nat), exec .muxAltboc s = .next t ∧
        (b0.length = s.snap.args.a4.toNat ∧ b1.length = s.snap.args.a4.toNat ∧ b2.length = s.snap.args.a4.toNat ∧
          b3.length = s.snap.args.a4.toNat) ∧
        reads s.mem s.draws s.snap.args.a0.toNat b0 d1 ∧ reads s.mem d1 s.snap.args.a1.toNat b1 d2 ∧
        reads s.mem d2 s.snap.args.a2.toNat b2 d3 ∧ reads s.mem d3 s.snap.args.a3.toNat b3 t.draws ∧
        t.draws = s.draws + undefinedIn s.mem s.snap.args.a0.toNat b0.length +
          undefinedIn s.mem s.snap.args.a1.toNat b1.length + undefinedIn s.mem s.snap.args.a2.toNat b2.length +
          undefinedIn s.mem s.snap.args.a3.toNat b3.length ∧
        (t.status.err = false ↔ ∀ x ∈ b0 ++ b1 ++ b2 ++ b3, isBit x) ∧
        (t.status.err = true → t = { s.doneErr 10#8 with draws := t.draws }))

/-! ### The port (10_state.md, 20_memory.md) -/

/-- What a host reads at every offset of the register window, at any time, by its literal offset: the constants, CTRL 0,
STATUS with BUSY from the engine, CMD, ARG0 to ARG7, RES0 to RES3, both LFSR units, CVPOLY, CVCAP, and 0 at every
reserved offset and bit. A read changes nothing but the record of responses (rules R23 to R38 and R63). The record and
the input list are the model's own: logs 3 and 6; a ROM count that does not fit in 32 bits: log 7. -/
def Obligations.RegisterReadsHaveNoEffect : Prop :=
  ∀ (s : State) (o : Nat) (rest : List Input), o < 256 → o % 4 = 0 → s.inputs = .access (.read o 4) :: rest →
    ∃ v : Word, step s = .next { s with inputs := rest, responses := .data v :: s.responses } ∧
      (o = 0x00 → v = 0x4C465352#32) ∧ (o = 0x04 → v = 0#32) ∧
      (o = 0x08 → v.getLsbD 0 = s.engine.busy ∧ v.getLsbD 1 = s.status.done ∧ v.getLsbD 2 = s.status.err ∧
        v.getLsbD 3 = s.status.overrun ∧ v.extractLsb' 8 8 = s.status.errcode ∧ v.extractLsb' 4 4 = 0#4 ∧
        v.extractLsb' 16 16 = 0#16) ∧
      (o = 0x0C → v = s.cmd) ∧
      (o = 0x10 → v = s.args.a0) ∧ (o = 0x14 → v = s.args.a1) ∧ (o = 0x18 → v = s.args.a2) ∧ (o = 0x1C → v = s.args.a3) ∧
      (o = 0x20 → v = s.args.a4) ∧ (o = 0x24 → v = s.args.a5) ∧ (o = 0x28 → v = s.args.a6) ∧ (o = 0x2C → v = s.args.a7) ∧
      (o = 0x30 → v = s.res.r0) ∧ (o = 0x34 → v = s.res.r1) ∧ (o = 0x38 → v = s.res.r2) ∧ (o = 0x3C → v = s.res.r3) ∧
      (o = 0x40 → v = BitVec.ofNat 32 s.params.memSize) ∧
      (o = 0x44 → s.params.signals.length < 2 ^ 32 → v = BitVec.ofNat 32 s.params.signals.length) ∧
      (o = 0x48 → 1 + s.params.dualRest.length < 2 ^ 32 → v = BitVec.ofNat 32 (1 + s.params.dualRest.length)) ∧
      (o = 0x50 → v.extractLsb' 0 6 = s.u0.cfg.n ∧ v.getLsbD 8 = s.u0.cfg.oten ∧ v &&& 0xFFFFFEC0#32 = 0#32) ∧
      (o = 0x54 → v = s.u0.state) ∧ (o = 0x58 → v = s.u0.fb) ∧ (o = 0x5C → v = s.u0.ot) ∧
      (o = 0x60 → v.extractLsb' 0 6 = s.u1.cfg.n ∧ v.getLsbD 8 = s.u1.cfg.oten ∧ v &&& 0xFFFFFEC0#32 = 0#32) ∧
      (o = 0x64 → v = s.u1.state) ∧ (o = 0x68 → v = s.u1.fb) ∧ (o = 0x6C → v = s.u1.ot) ∧
      (o = 0x70 → v.extractLsb' 0 7 = s.cvpoly.ga ∧ v.extractLsb' 8 7 = s.cvpoly.gb ∧ v.getLsbD 16 = s.cvpoly.inva ∧
        v.getLsbD 17 = s.cvpoly.invb ∧ v &&& 0xFFFC8080#32 = 0#32) ∧
      (o = 0x74 → v.getLsbD 31 = s.cvcap.valid ∧ v.extractLsb' 6 25 = 0#25 ∧ v.extractLsb' 0 6 = s.cvcap.state) ∧
      (o = 0x4C ∨ 0x78 ≤ o → v = 0#32) ∧ ∀ r, o = regOffset r → v = s.readReg r

/-- A host write of a read-write register other than CMD stores its writable bits and no other register changes: ARG0 to
ARG7, LnSTATE, LnFB and LnOT store every bit, LnCFG bits [5:0] and 8, CVPOLY bits [6:0], [14:8], 16 and 17 (rules R28,
R31 to R35 and R39). -/
def Obligations.RegisterWritesStoreWritableBits : Prop :=
  ∀ (s : State) (r : Reg) (v mask : Word) (rest : List Input),
    (r ∈ [Reg.arg0, .arg1, .arg2, .arg3, .arg4, .arg5, .arg6, .arg7, .l0state, .l0fb, .l0ot, .l1state, .l1fb, .l1ot] ∧
        mask = 0xFFFFFFFF#32) ∨
      (r ∈ [Reg.l0cfg, .l1cfg] ∧ mask = 0x0000013F#32) ∨ (r = .cvpoly ∧ mask = 0x00037F7F#32) →
    s.inputs = .access (.write (regOffset r) 4 v) :: rest →
    ∃ t, step s = .next t ∧ t.readReg r = v &&& mask ∧ (∀ r', r' ≠ r → t.readReg r' = s.readReg r') ∧
      t.engine = s.engine ∧ t.mem = s.mem ∧ t.params = s.params ∧ t.draws = s.draws ∧ t.inputs = rest

/-- A host write of a read-only register or a reserved offset is ignored, and so is a write of CTRL with SRST and CLR 0,
whatever its bits [31:2] (rules R23, R24, R25, R37 and R38). The record of the acknowledgement: log 6. -/
def Obligations.ReadOnlyWritesAreIgnored : Prop :=
  ∀ (s : State) (o : Nat) (v : Word) (rest : List Input),
    o ∈ [0x00, 0x08, 0x30, 0x34, 0x38, 0x3C, 0x40, 0x44, 0x48, 0x4C, 0x74] ∨ (0x78 ≤ o ∧ o < 256 ∧ o % 4 = 0) ∨
      (o = 0x04 ∧ v.getLsbD 0 = false ∧ v.getLsbD 1 = false) →
    s.inputs = .access (.write o 4 v) :: rest →
    step s = .next { s with inputs := rest, responses := .written :: s.responses }

/-- The port refuses exactly the accesses of rule R62, with the engine idle and, outside the MEM window, while BUSY too:
a register access that is not 32-bit at a multiple of 4; a MEM access of another width than 1, 2 or 4, not at a
multiple of its width, or past the last MEM byte; an access in neither window. The fault of the host's step is recorded
and changes no state of the block, a running engine included (rules R62 and R66; 60_exceptions.md rule R260). The
record: logs 5 and 6. A MEM access while BUSY: MemAccessStallsWhileBusy. -/
def Obligations.PortRefusesExactlyTheListed : Prop :=
  ∀ (s : State) (a : Access) (rest : List Input), s.inputs = .access a :: rest →
    s.engine = .idle ∨ a.offset < 0x01000000 ∨ 0x01000000 + s.params.memSize ≤ a.offset →
    ((∃ why, step s =
        .next { s with inputs := rest, responses := .fault (.busError why a) :: s.responses }) ↔
      (a.offset < 256 ∧ ¬(a.width = 4 ∧ a.offset % 4 = 0)) ∨
      (0x01000000 ≤ a.offset ∧ a.offset < 0x01000000 + s.params.memSize ∧
        (¬(a.width = 1 ∨ a.width = 2 ∨ a.width = 4) ∨ (a.offset - 0x01000000) % a.width ≠ 0 ∨
          s.params.memSize < a.offset - 0x01000000 + a.width)) ∨
      (256 ≤ a.offset ∧ a.offset < 0x01000000) ∨ 0x01000000 + s.params.memSize ≤ a.offset)

/-- A MEM write of 1, 2 or 4 bytes stores bits [8i+7:8i] of its value at address a+i, one step for all bytes, and
changes nothing else (rules R64 and R65). A narrow write takes the value's low bits: log 14. -/
def Obligations.MemWriteIsLittleEndian : Prop :=
  ∀ (s : State) (a w : Nat) (v : Word) (rest : List Input), s.engine = .idle → w = 1 ∨ w = 2 ∨ w = 4 → a % w = 0 →
    a + w ≤ s.params.memSize → s.inputs = .access (.write (0x01000000 + a) w v) :: rest →
    ∃ t, step s = .next t ∧
      t = { s with mem := t.mem, inputs := rest, responses := .written :: s.responses } ∧
      (∀ i, i < w → t.mem.peek (a + i) = some (v.extractLsb' (8 * i) 8)) ∧
      ∀ x, x < a ∨ a + w ≤ x → t.mem.peek x = s.mem.peek x

/-- A MEM read of 1, 2 or 4 defined bytes returns them with byte i at bits [8i+7:8i], zero above, and has no side
effect (rules R64 and R65). Zero above the width: log 14. -/
def Obligations.MemReadIsLittleEndian : Prop :=
  ∀ (s : State) (a w : Nat) (bytes : List Byte) (rest : List Input), s.engine = .idle → w = 1 ∨ w = 2 ∨ w = 4 →
    a % w = 0 → a + w ≤ s.params.memSize → bytes.length = w → holds s.mem a bytes →
    s.inputs = .access (.read (0x01000000 + a) w) :: rest →
    ∃ v : Word, step s = .next { s with inputs := rest, responses := .data v :: s.responses } ∧
      (∀ i, i < w → some (v.extractLsb' (8 * i) 8) = bytes[i]?) ∧ v.toNat < 2 ^ (8 * w)

/-- A host read of one undefined byte returns a free draw and spends it, so that the next read is a new draw; the
byte stays undefined (rule R67). The draws are the model's free values: log 2. -/
def Obligations.UndefinedByteReadsAreFreshDraws : Prop :=
  ∀ (s : State) (a : Nat) (rest : List Input), s.engine = .idle → a < s.params.memSize → s.mem.peek a = none →
    s.inputs = .access (.read (0x01000000 + a) 1) :: .access (.read (0x01000000 + a) 1) :: rest →
    ∃ s1, step s = .next s1 ∧ s1.mem.peek a = none ∧
      step s1 = .next
        { s with
          inputs := rest
          draws := s.draws + 2
          responses := .data ((Config.freeByte (s.draws + 1)).setWidth 32) ::
            .data ((Config.freeByte s.draws).setWidth 32) :: s.responses }

/-- A MEM access while BUSY has no step: the engine completes first, the access stays waiting and is answered by
nothing, and the engine is then idle (rule R66). The order of the steps is the model's: logs 3 and 13. -/
def Obligations.MemAccessStallsWhileBusy : Prop :=
  ∀ (s : State) (w : Word) (sn : Snapshot) (a : Access) (rest : List Input), s.engine = .running w sn →
    s.inputs = .access a :: rest → 0x01000000 ≤ a.offset → a.offset < 0x01000000 + s.params.memSize →
    ∃ t, step s = .next t ∧ t.engine = .idle ∧ t.inputs = .access a :: rest ∧ t.responses = s.responses

/-! ### CTRL and reset (60_exceptions.md, 70_reset_and_hazards.md) -/

/-- A CTRL write with CLR and not SRST clears DONE, ERR, OVERRUN and ERRCODE in one step and changes nothing else: BUSY
and a running command stay (rule R265). -/
def Obligations.ClrClearsStatus : Prop :=
  ∀ (s : State) (v : Word) (rest : List Input), v.getLsbD 1 = true → v.getLsbD 0 = false →
    s.inputs = .access (.write 0x04 4 v) :: rest →
    step s = .next
      { s with status := ⟨false, false, false, 0#8⟩, inputs := rest, responses := .written :: s.responses }

/-- A CTRL write with SRST is a soft reset in one step: a running command is discarded, the engine is idle, every
register reads its reset value, and MEM is unchanged (rules R290 and R291). -/
def Obligations.SoftResetKeepsMem : Prop :=
  ∀ (s : State) (v : Word) (rest : List Input), v.getLsbD 0 = true → s.inputs = .access (.write 0x04 4 v) :: rest →
    ∃ t, step s = .next t ∧ t.engine = .idle ∧ t.mem = s.mem ∧ t.params = s.params ∧ t.inputs = rest ∧
      t.readReg .id = 0x4C465352#32 ∧
      ∀ r, r ∉ [Reg.id, .memsize, .nsig, .ndual] → t.readReg r = 0#32

/-- A hardware reset does the same and makes every MEM byte undefined (rules R290 and R292). Its arrival is an input
of the model: log 9. -/
def Obligations.HardwareResetUndefinesMem : Prop :=
  ∀ (s : State) (rest : List Input), s.inputs = .hardwareReset :: rest →
    ∃ t, step s = .next t ∧ t.engine = .idle ∧ t.params = s.params ∧ t.inputs = rest ∧ (∀ a, t.mem.peek a = none) ∧
      t.readReg .id = 0x4C465352#32 ∧
      ∀ r, r ∉ [Reg.id, .memsize, .nsig, .ndual] → t.readReg r = 0#32

/-- After hardware reset every register but ID and the constants reads 0, the engine is idle and every MEM byte is
undefined (rules R290 and R292). -/
def Obligations.ResetRegisterValues : Prop :=
  State.reset.engine = .idle ∧ State.reset.readReg .id = 0x4C465352#32 ∧
  State.reset.readReg .memsize = BitVec.ofNat 32 State.reset.params.memSize ∧
  (∀ r, r ∉ [Reg.id, .memsize, .nsig, .ndual] → State.reset.readReg r = 0#32) ∧
  ∀ a, State.reset.mem.peek a = none

/-! ### The whole machine -/

/-- The state after reset meets the invariant. -/
def Obligations.ResetMeetsInvariant : Prop := State.reset.Inv

/-- Every step keeps the invariant: canonical MEM within MEM_SIZE, a STATUS the rules can produce, DONE 0 while BUSY,
CMD reading the running word, CVCAP 0 when not VALID. -/
def Obligations.StepKeepsInvariant : Prop := ∀ s t : State, s.Inv → step s = .next t → t.Inv

/-- No step changes a parameter: MEM_SIZE and the ROM tables are constant (00_scope.md rule R7). -/
def Obligations.StepKeepsParameters : Prop := ∀ s t : State, step s = .next t → t.params = s.params

/-- While a command runs and is not completed by the step, MEM, RES, CVCAP, and the running word with its snapshot stay
as they are, whatever hosts do, and DONE is not set (rules R111, R301 and R282). -/
def Obligations.NoPartialResultsWhileBusy : Prop :=
  ∀ s t : State, step s = .next t → s.engine.busy = true → t.engine.busy = true →
    t.engine = s.engine ∧ t.mem = s.mem ∧ t.res = s.res ∧ t.cvcap = s.cvcap ∧ t.cmd = s.cmd ∧
    (t.status.done = true → s.status.done = true)

/-- MEM changes in three ways only: a command that completes without error, a hardware reset, or a MEM-window write
while idle. -/
def Obligations.MemChangesOnlyByThreeEvents : Prop :=
  ∀ s t : State, step s = .next t → t.mem ≠ s.mem →
    (s.engine.busy = true ∧ t.engine = .idle ∧ t.status.done = true ∧ t.status.err = false) ∨
    (∃ rest, s.inputs = .hardwareReset :: rest) ∨
    (s.engine = .idle ∧ ∃ o w v rest, s.inputs = .access (.write o w v) :: rest ∧ 0x01000000 ≤ o)

/-- Host writes of the snapshotted registers after acceptance do not affect the running command: the write before
Complete and the write after it end in the same state. Of LnSTATE this is said while the running word is no LFSR command
on that unit; while it is one, SeedWriteWhileBusyIsLost (rules R111 and R300). The two orders are orders of the input
list: log 3. -/
def Obligations.RunningCommandIgnoresRegisterWrites : Prop :=
  ∀ (s : State) (w v : Word) (sn : Snapshot) (r : Reg) (rest : List Input), s.engine = .running w sn →
    r ∈ [Reg.arg0, .arg1, .arg2, .arg3, .arg4, .arg5, .arg6, .arg7, .l0cfg, .l0fb, .l0ot, .l1cfg, .l1fb, .l1ot,
        .cvpoly] ∨
      (r = .l0state ∧
        ∀ i, decode w = .ok i → i ∉ [.lfsrFibStep .u0, .lfsrFibGen .u0, .lfsrGalStep .u0, .lfsrGalGen .u0]) ∨
      (r = .l1state ∧
        ∀ i, decode w = .ok i → i ∉ [.lfsrFibStep .u1, .lfsrFibGen .u1, .lfsrGalStep .u1, .lfsrGalGen .u1]) →
    ∃ s1 s2 t, step { s with inputs := .access (.write (regOffset r) 4 v) :: .engineTurn :: rest } = .next s1 ∧
      step s1 = .next t ∧
      step { s with inputs := .engineTurn :: .access (.write (regOffset r) 4 v) :: rest } = .next s2 ∧
      step s2 = .next t

/-- A host write of LuSTATE after an LFSR command was accepted and before it completes without error is lost:
Complete replaces it (rule R300). The order is that of the input list: log 3. -/
def Obligations.SeedWriteWhileBusyIsLost : Prop :=
  ∀ (s t : State) (w v : Word) (sn : Snapshot) (u : UnitSel) (i : Instr) (rest : List Input), s.engine = .running w sn →
    decode w = .ok i → i ∈ [.lfsrFibStep u, .lfsrFibGen u, .lfsrGalStep u, .lfsrGalGen u] →
    step { s with inputs := .engineTurn :: rest } = .next t → t.status.err = false →
    ∃ s1 t', step { s with
        inputs := .access (.write (regOffset (if u = .u0 then .l0state else .l1state)) 4 v) :: .engineTurn :: rest } =
          .next s1 ∧
      (s1.unitNow u).state = v ∧ step s1 = .next t' ∧ t'.unitNow u = t.unitNow u

/-- A running engine completes, or is reset, whatever hosts do, refused accesses included: it is idle within one step
more than there are inputs (rule R116). That it completes once no input is left is the model's form of weak fairness:
log 3. -/
def Obligations.RunningEngineCompletes : Prop :=
  ∀ s : State, s.engine.busy = true → ∃ k t, k ≤ s.inputs.length + 1 ∧ core.run k s = .next t ∧ t.engine = .idle

/-- No step is spontaneous: an idle block with no input stays as it is (rule R117). That such a step changes nothing
is the model's form of having no step: log 3. -/
def Obligations.IdleBlockStaysIdle : Prop :=
  ∀ s : State, s.engine = .idle → s.inputs = [] → step s = .next s

/-- Nothing stops the block: every step answers a next state, a host access the port refuses included, whose fault is
recorded (rule R117; 20_memory.md rule R62; 60_exceptions.md rule R260). The record: log 5. -/
def Obligations.EveryStepHasNextState : Prop := ∀ s : State, ∃ t, step s = .next t
end

