-- ==== Sys2Proof/Laws/State.lean ====
section
/-! SUPPORT. One lemma per field per update of State, so that no proof unfolds a record update. -/

namespace Sys2Proof.Machine

/-! ### State.accept -/

@[simp] theorem State.accept_engine (s : State) (w : Word) : (s.accept w).engine = .running w s.takeSnapshot := rfl
@[simp] theorem State.accept_status (s : State) (w : Word) : (s.accept w).status = s.status.accepted := rfl
@[simp] theorem State.accept_cmd (s : State) (w : Word) : (s.accept w).cmd = w := rfl
@[simp] theorem State.accept_args (s : State) (w : Word) : (s.accept w).args = s.args := rfl
@[simp] theorem State.accept_res (s : State) (w : Word) : (s.accept w).res = s.res := rfl
@[simp] theorem State.accept_u0 (s : State) (w : Word) : (s.accept w).u0 = s.u0 := rfl
@[simp] theorem State.accept_u1 (s : State) (w : Word) : (s.accept w).u1 = s.u1 := rfl
@[simp] theorem State.accept_cvpoly (s : State) (w : Word) : (s.accept w).cvpoly = s.cvpoly := rfl
@[simp] theorem State.accept_cvcap (s : State) (w : Word) : (s.accept w).cvcap = s.cvcap := rfl
@[simp] theorem State.accept_mem (s : State) (w : Word) : (s.accept w).mem = s.mem := rfl
@[simp] theorem State.accept_params (s : State) (w : Word) : (s.accept w).params = s.params := rfl
@[simp] theorem State.accept_draws (s : State) (w : Word) : (s.accept w).draws = s.draws := rfl
@[simp] theorem State.accept_inputs (s : State) (w : Word) : (s.accept w).inputs = s.inputs := rfl
@[simp] theorem State.accept_responses (s : State) (w : Word) : (s.accept w).responses = s.responses := rfl

/-! ### State.overrun -/

@[simp] theorem State.overrun_engine (s : State) : (s.overrun).engine = s.engine := rfl
@[simp] theorem State.overrun_status (s : State) : (s.overrun).status = s.status.overran := rfl
@[simp] theorem State.overrun_cmd (s : State) : (s.overrun).cmd = s.cmd := rfl
@[simp] theorem State.overrun_args (s : State) : (s.overrun).args = s.args := rfl
@[simp] theorem State.overrun_res (s : State) : (s.overrun).res = s.res := rfl
@[simp] theorem State.overrun_u0 (s : State) : (s.overrun).u0 = s.u0 := rfl
@[simp] theorem State.overrun_u1 (s : State) : (s.overrun).u1 = s.u1 := rfl
@[simp] theorem State.overrun_cvpoly (s : State) : (s.overrun).cvpoly = s.cvpoly := rfl
@[simp] theorem State.overrun_cvcap (s : State) : (s.overrun).cvcap = s.cvcap := rfl
@[simp] theorem State.overrun_mem (s : State) : (s.overrun).mem = s.mem := rfl
@[simp] theorem State.overrun_params (s : State) : (s.overrun).params = s.params := rfl
@[simp] theorem State.overrun_draws (s : State) : (s.overrun).draws = s.draws := rfl
@[simp] theorem State.overrun_inputs (s : State) : (s.overrun).inputs = s.inputs := rfl
@[simp] theorem State.overrun_responses (s : State) : (s.overrun).responses = s.responses := rfl

/-! ### State.commit -/

@[simp] theorem State.commit_engine (s : State) (w : Writes) : (s.commit w).engine = .idle := rfl
@[simp] theorem State.commit_status (s : State) (w : Writes) : (s.commit w).status = s.status.completed := rfl
@[simp] theorem State.commit_cmd (s : State) (w : Writes) : (s.commit w).cmd = s.cmd := rfl
@[simp] theorem State.commit_args (s : State) (w : Writes) : (s.commit w).args = s.args := rfl
@[simp] theorem State.commit_res (s : State) (w : Writes) :
    (s.commit w).res = ⟨w.r0.getD s.res.r0, w.r1.getD s.res.r1, w.r2.getD s.res.r2, w.r3.getD s.res.r3⟩ := rfl
@[simp] theorem State.commit_u0 (s : State) (w : Writes) : (s.commit w).u0 = s.u0.commit .u0 w.unit := rfl
@[simp] theorem State.commit_u1 (s : State) (w : Writes) : (s.commit w).u1 = s.u1.commit .u1 w.unit := rfl
@[simp] theorem State.commit_cvpoly (s : State) (w : Writes) : (s.commit w).cvpoly = s.cvpoly := rfl
@[simp] theorem State.commit_cvcap (s : State) (w : Writes) : (s.commit w).cvcap = w.cvcap.getD s.cvcap := rfl
@[simp] theorem State.commit_mem (s : State) (w : Writes) : (s.commit w).mem = s.mem.commit w.mem := rfl
@[simp] theorem State.commit_params (s : State) (w : Writes) : (s.commit w).params = s.params := rfl
@[simp] theorem State.commit_draws (s : State) (w : Writes) : (s.commit w).draws = s.draws := rfl
@[simp] theorem State.commit_inputs (s : State) (w : Writes) : (s.commit w).inputs = s.inputs := rfl
@[simp] theorem State.commit_responses (s : State) (w : Writes) : (s.commit w).responses = s.responses := rfl

/-! ### State.fail -/

@[simp] theorem State.fail_engine (s : State) (e : CmdError) : (s.fail e).engine = .idle := rfl
@[simp] theorem State.fail_status (s : State) (e : CmdError) : (s.fail e).status = s.status.failed e := rfl
@[simp] theorem State.fail_cmd (s : State) (e : CmdError) : (s.fail e).cmd = s.cmd := rfl
@[simp] theorem State.fail_args (s : State) (e : CmdError) : (s.fail e).args = s.args := rfl
@[simp] theorem State.fail_res (s : State) (e : CmdError) : (s.fail e).res = s.res := rfl
@[simp] theorem State.fail_u0 (s : State) (e : CmdError) : (s.fail e).u0 = s.u0 := rfl
@[simp] theorem State.fail_u1 (s : State) (e : CmdError) : (s.fail e).u1 = s.u1 := rfl
@[simp] theorem State.fail_cvpoly (s : State) (e : CmdError) : (s.fail e).cvpoly = s.cvpoly := rfl
@[simp] theorem State.fail_cvcap (s : State) (e : CmdError) : (s.fail e).cvcap = s.cvcap := rfl
@[simp] theorem State.fail_mem (s : State) (e : CmdError) : (s.fail e).mem = s.mem := rfl
@[simp] theorem State.fail_params (s : State) (e : CmdError) : (s.fail e).params = s.params := rfl
@[simp] theorem State.fail_draws (s : State) (e : CmdError) : (s.fail e).draws = s.draws := rfl
@[simp] theorem State.fail_inputs (s : State) (e : CmdError) : (s.fail e).inputs = s.inputs := rfl
@[simp] theorem State.fail_responses (s : State) (e : CmdError) : (s.fail e).responses = s.responses := rfl

/-! ### State.softReset -/

@[simp] theorem State.softReset_engine (s : State) : (s.softReset).engine = .idle := rfl
@[simp] theorem State.softReset_status (s : State) : (s.softReset).status = Status.reset := rfl
@[simp] theorem State.softReset_cmd (s : State) : (s.softReset).cmd = 0#32 := rfl
@[simp] theorem State.softReset_args (s : State) : (s.softReset).args = Args.reset := rfl
@[simp] theorem State.softReset_res (s : State) : (s.softReset).res = Results.reset := rfl
@[simp] theorem State.softReset_u0 (s : State) : (s.softReset).u0 = LfsrUnit.reset := rfl
@[simp] theorem State.softReset_u1 (s : State) : (s.softReset).u1 = LfsrUnit.reset := rfl
@[simp] theorem State.softReset_cvpoly (s : State) : (s.softReset).cvpoly = CvPoly.reset := rfl
@[simp] theorem State.softReset_cvcap (s : State) : (s.softReset).cvcap = CvCap.reset := rfl
@[simp] theorem State.softReset_mem (s : State) : (s.softReset).mem = s.mem := rfl
@[simp] theorem State.softReset_params (s : State) : (s.softReset).params = s.params := rfl
@[simp] theorem State.softReset_draws (s : State) : (s.softReset).draws = s.draws := rfl
@[simp] theorem State.softReset_inputs (s : State) : (s.softReset).inputs = s.inputs := rfl
@[simp] theorem State.softReset_responses (s : State) : (s.softReset).responses = s.responses := rfl

/-! ### State.hardReset -/

@[simp] theorem State.hardReset_engine (s : State) : (s.hardReset).engine = .idle := rfl
@[simp] theorem State.hardReset_status (s : State) : (s.hardReset).status = Status.reset := rfl
@[simp] theorem State.hardReset_cmd (s : State) : (s.hardReset).cmd = 0#32 := rfl
@[simp] theorem State.hardReset_args (s : State) : (s.hardReset).args = Args.reset := rfl
@[simp] theorem State.hardReset_res (s : State) : (s.hardReset).res = Results.reset := rfl
@[simp] theorem State.hardReset_u0 (s : State) : (s.hardReset).u0 = LfsrUnit.reset := rfl
@[simp] theorem State.hardReset_u1 (s : State) : (s.hardReset).u1 = LfsrUnit.reset := rfl
@[simp] theorem State.hardReset_cvpoly (s : State) : (s.hardReset).cvpoly = CvPoly.reset := rfl
@[simp] theorem State.hardReset_cvcap (s : State) : (s.hardReset).cvcap = CvCap.reset := rfl
@[simp] theorem State.hardReset_mem (s : State) : (s.hardReset).mem = [] := rfl
@[simp] theorem State.hardReset_params (s : State) : (s.hardReset).params = s.params := rfl
@[simp] theorem State.hardReset_draws (s : State) : (s.hardReset).draws = s.draws := rfl
@[simp] theorem State.hardReset_inputs (s : State) : (s.hardReset).inputs = s.inputs := rfl
@[simp] theorem State.hardReset_responses (s : State) : (s.hardReset).responses = s.responses := rfl

/-! ### State.respond -/

@[simp] theorem State.respond_engine (s : State) (r : Response) : (s.respond r).engine = s.engine := rfl
@[simp] theorem State.respond_status (s : State) (r : Response) : (s.respond r).status = s.status := rfl
@[simp] theorem State.respond_cmd (s : State) (r : Response) : (s.respond r).cmd = s.cmd := rfl
@[simp] theorem State.respond_args (s : State) (r : Response) : (s.respond r).args = s.args := rfl
@[simp] theorem State.respond_res (s : State) (r : Response) : (s.respond r).res = s.res := rfl
@[simp] theorem State.respond_u0 (s : State) (r : Response) : (s.respond r).u0 = s.u0 := rfl
@[simp] theorem State.respond_u1 (s : State) (r : Response) : (s.respond r).u1 = s.u1 := rfl
@[simp] theorem State.respond_cvpoly (s : State) (r : Response) : (s.respond r).cvpoly = s.cvpoly := rfl
@[simp] theorem State.respond_cvcap (s : State) (r : Response) : (s.respond r).cvcap = s.cvcap := rfl
@[simp] theorem State.respond_mem (s : State) (r : Response) : (s.respond r).mem = s.mem := rfl
@[simp] theorem State.respond_params (s : State) (r : Response) : (s.respond r).params = s.params := rfl
@[simp] theorem State.respond_draws (s : State) (r : Response) : (s.respond r).draws = s.draws := rfl
@[simp] theorem State.respond_inputs (s : State) (r : Response) : (s.respond r).inputs = s.inputs := rfl
@[simp] theorem State.respond_responses (s : State) (r : Response) : (s.respond r).responses = r :: s.responses := rfl

/-! ### State.writeMem -/

@[simp] theorem State.writeMem_engine (s : State) (a n : Nat) (v : Word) : (s.writeMem a n v).engine = s.engine := rfl
@[simp] theorem State.writeMem_status (s : State) (a n : Nat) (v : Word) : (s.writeMem a n v).status = s.status := rfl
@[simp] theorem State.writeMem_cmd (s : State) (a n : Nat) (v : Word) : (s.writeMem a n v).cmd = s.cmd := rfl
@[simp] theorem State.writeMem_args (s : State) (a n : Nat) (v : Word) : (s.writeMem a n v).args = s.args := rfl
@[simp] theorem State.writeMem_res (s : State) (a n : Nat) (v : Word) : (s.writeMem a n v).res = s.res := rfl
@[simp] theorem State.writeMem_u0 (s : State) (a n : Nat) (v : Word) : (s.writeMem a n v).u0 = s.u0 := rfl
@[simp] theorem State.writeMem_u1 (s : State) (a n : Nat) (v : Word) : (s.writeMem a n v).u1 = s.u1 := rfl
@[simp] theorem State.writeMem_cvpoly (s : State) (a n : Nat) (v : Word) : (s.writeMem a n v).cvpoly = s.cvpoly := rfl
@[simp] theorem State.writeMem_cvcap (s : State) (a n : Nat) (v : Word) : (s.writeMem a n v).cvcap = s.cvcap := rfl
@[simp] theorem State.writeMem_mem (s : State) (a n : Nat) (v : Word) :
    (s.writeMem a n v).mem = s.mem.pokes a (bytesOfWord v n) := rfl
@[simp] theorem State.writeMem_params (s : State) (a n : Nat) (v : Word) : (s.writeMem a n v).params = s.params := rfl
@[simp] theorem State.writeMem_draws (s : State) (a n : Nat) (v : Word) : (s.writeMem a n v).draws = s.draws := rfl
@[simp] theorem State.writeMem_inputs (s : State) (a n : Nat) (v : Word) : (s.writeMem a n v).inputs = s.inputs := rfl
@[simp] theorem State.writeMem_responses (s : State) (a n : Nat) (v : Word) :
    (s.writeMem a n v).responses = .written :: s.responses := rfl

/-! ### State.readMem -/

@[simp] theorem State.readMem_engine (s : State) (a n : Nat) : (s.readMem a n).engine = s.engine := rfl
@[simp] theorem State.readMem_status (s : State) (a n : Nat) : (s.readMem a n).status = s.status := rfl
@[simp] theorem State.readMem_cmd (s : State) (a n : Nat) : (s.readMem a n).cmd = s.cmd := rfl
@[simp] theorem State.readMem_args (s : State) (a n : Nat) : (s.readMem a n).args = s.args := rfl
@[simp] theorem State.readMem_res (s : State) (a n : Nat) : (s.readMem a n).res = s.res := rfl
@[simp] theorem State.readMem_u0 (s : State) (a n : Nat) : (s.readMem a n).u0 = s.u0 := rfl
@[simp] theorem State.readMem_u1 (s : State) (a n : Nat) : (s.readMem a n).u1 = s.u1 := rfl
@[simp] theorem State.readMem_cvpoly (s : State) (a n : Nat) : (s.readMem a n).cvpoly = s.cvpoly := rfl
@[simp] theorem State.readMem_cvcap (s : State) (a n : Nat) : (s.readMem a n).cvcap = s.cvcap := rfl
@[simp] theorem State.readMem_mem (s : State) (a n : Nat) : (s.readMem a n).mem = s.mem := rfl
@[simp] theorem State.readMem_params (s : State) (a n : Nat) : (s.readMem a n).params = s.params := rfl
@[simp] theorem State.readMem_draws (s : State) (a n : Nat) :
    (s.readMem a n).draws = (readBytes s.mem s.draws a n).2 := rfl
@[simp] theorem State.readMem_inputs (s : State) (a n : Nat) : (s.readMem a n).inputs = s.inputs := rfl
@[simp] theorem State.readMem_responses (s : State) (a n : Nat) :
    (s.readMem a n).responses = .data (wordOfBytes (readBytes s.mem s.draws a n).1) :: s.responses := rfl

/-! ### State.doneOk -/

@[simp] theorem State.doneOk_engine (s : State) : (s.doneOk).engine = .idle := rfl
@[simp] theorem State.doneOk_status (s : State) : (s.doneOk).status = ⟨true, false, s.status.overrun, 0#8⟩ := rfl
@[simp] theorem State.doneOk_cmd (s : State) : (s.doneOk).cmd = s.cmd := rfl
@[simp] theorem State.doneOk_args (s : State) : (s.doneOk).args = s.args := rfl
@[simp] theorem State.doneOk_res (s : State) : (s.doneOk).res = s.res := rfl
@[simp] theorem State.doneOk_u0 (s : State) : (s.doneOk).u0 = s.u0 := rfl
@[simp] theorem State.doneOk_u1 (s : State) : (s.doneOk).u1 = s.u1 := rfl
@[simp] theorem State.doneOk_cvpoly (s : State) : (s.doneOk).cvpoly = s.cvpoly := rfl
@[simp] theorem State.doneOk_cvcap (s : State) : (s.doneOk).cvcap = s.cvcap := rfl
@[simp] theorem State.doneOk_mem (s : State) : (s.doneOk).mem = s.mem := rfl
@[simp] theorem State.doneOk_params (s : State) : (s.doneOk).params = s.params := rfl
@[simp] theorem State.doneOk_draws (s : State) : (s.doneOk).draws = s.draws := rfl
@[simp] theorem State.doneOk_inputs (s : State) : (s.doneOk).inputs = s.inputs := rfl
@[simp] theorem State.doneOk_responses (s : State) : (s.doneOk).responses = s.responses := rfl

/-! ### State.doneErr -/

@[simp] theorem State.doneErr_engine (s : State) (c : Byte) : (s.doneErr c).engine = .idle := rfl
@[simp] theorem State.doneErr_status (s : State) (c : Byte) :
    (s.doneErr c).status = ⟨true, true, s.status.overrun, c⟩ := rfl
@[simp] theorem State.doneErr_cmd (s : State) (c : Byte) : (s.doneErr c).cmd = s.cmd := rfl
@[simp] theorem State.doneErr_args (s : State) (c : Byte) : (s.doneErr c).args = s.args := rfl
@[simp] theorem State.doneErr_res (s : State) (c : Byte) : (s.doneErr c).res = s.res := rfl
@[simp] theorem State.doneErr_u0 (s : State) (c : Byte) : (s.doneErr c).u0 = s.u0 := rfl
@[simp] theorem State.doneErr_u1 (s : State) (c : Byte) : (s.doneErr c).u1 = s.u1 := rfl
@[simp] theorem State.doneErr_cvpoly (s : State) (c : Byte) : (s.doneErr c).cvpoly = s.cvpoly := rfl
@[simp] theorem State.doneErr_cvcap (s : State) (c : Byte) : (s.doneErr c).cvcap = s.cvcap := rfl
@[simp] theorem State.doneErr_mem (s : State) (c : Byte) : (s.doneErr c).mem = s.mem := rfl
@[simp] theorem State.doneErr_params (s : State) (c : Byte) : (s.doneErr c).params = s.params := rfl
@[simp] theorem State.doneErr_draws (s : State) (c : Byte) : (s.doneErr c).draws = s.draws := rfl
@[simp] theorem State.doneErr_inputs (s : State) (c : Byte) : (s.doneErr c).inputs = s.inputs := rfl
@[simp] theorem State.doneErr_responses (s : State) (c : Byte) : (s.doneErr c).responses = s.responses := rfl

/-! ### The views -/

@[simp] theorem Engine.busy_idle : Engine.busy .idle = false := rfl
@[simp] theorem Engine.busy_running (w : Word) (sn : Snapshot) : Engine.busy (.running w sn) = true := rfl

/-- A running engine's operands are its snapshot. -/
theorem State.snap_running (s : State) (w : Word) (sn : Snapshot) (h : s.engine = .running w sn) : s.snap = sn := by
  simp [State.snap, h]

/-- An idle engine's operands are the registers as they stand. -/
theorem State.snap_idle (s : State) (h : s.engine = .idle) : s.snap = s.takeSnapshot := by simp [State.snap, h]

/-- The operands do not depend on what is still to happen. -/
@[simp] theorem State.snap_with_inputs (s : State) (l : List Input) : ({ s with inputs := l } : State).snap = s.snap := rfl

/-- Completing without error and without writes is `doneOk`. -/
theorem State.commit_nothing (s : State) : s.commit {} = s.doneOk := rfl

/-- Completing with an error is `doneErr` of its code. -/
theorem State.fail_eq_doneErr (s : State) (e : CmdError) : s.fail e = s.doneErr e.code := rfl

/-- STATUS after reset is consistent. -/
theorem Status.reset_consistent : Status.reset.Consistent := ⟨by decide, by decide, by decide⟩

end Sys2Proof.Machine
end

