-- ==== Sys2Proof/Laws/Memory.lean ====
section
/-! SUPPORT. What the memory operations do, once each: a byte reads back as written, every other byte is unchanged, and
the canonical form is kept. -/

namespace Sys2Proof.Machine

/-! ### One byte -/

@[simp] theorem Memory.peek_nil (a : Nat) : Memory.peek [] a = none := rfl

/-- Read after write, at the same or another address. -/
theorem Memory.peek_poke (m : Memory) (a x : Nat) (b : Byte) :
    (Memory.poke m a b).peek x = if x = a then some b else m.peek x := by
  induction m with
  | nil => simp [Memory.poke, Memory.peek, eq_comm]
  | cons c m ih =>
    obtain ⟨k, c⟩ := c
    unfold Memory.poke
    split
    · by_cases hx : x = a
      · simp [Memory.peek, hx]
      · simp [Memory.peek, hx, Ne.symm hx]
    · split
      · subst_vars
        by_cases hx : x = k
        · simp [Memory.peek, hx]
        · simp [Memory.peek, hx, Ne.symm hx]
      · simp only [Memory.peek, ih]
        by_cases hk : k = x
        · subst hk
          have : k ≠ a := fun h => by omega
          simp [this]
        · simp [hk]

/-- An entry of a written memory is the new one or an old one. -/
theorem Memory.mem_poke {m : Memory} {a : Nat} {b : Byte} {c : Host.Cell} (h : c ∈ Memory.poke m a b) :
    c = (a, b) ∨ c ∈ m := by
  induction m with
  | nil => simpa [Memory.poke] using h
  | cons d m ih =>
    obtain ⟨k, d⟩ := d
    unfold Memory.poke at h
    split at h
    · simpa using h
    · split at h
      · rcases List.mem_cons.1 h with h | h
        · exact .inl h
        · exact .inr (List.mem_cons_of_mem _ h)
      · rcases List.mem_cons.1 h with h | h
        · exact .inr (h ▸ List.mem_cons_self)
        · exact (ih h).imp id (List.mem_cons_of_mem _)

/-- The canonical form as a proposition: addresses rise strictly and lie below MEM_SIZE. -/
theorem Memory.wf_iff {n : Nat} {m : Memory} :
    m.wf n = true ↔ m.Pairwise (fun x y => x.1 < y.1) ∧ ∀ c ∈ m, c.1 < n := by
  simp [Memory.wf, List.all_eq_true]

theorem Memory.pairwise_poke {m : Memory} (h : m.Pairwise (fun x y => x.1 < y.1)) (a : Nat) (b : Byte) :
    (Memory.poke m a b).Pairwise (fun x y => x.1 < y.1) := by
  induction m with
  | nil => simp [Memory.poke]
  | cons d m ih =>
    obtain ⟨k, d⟩ := d
    obtain ⟨hk, hm⟩ := List.pairwise_cons.1 h
    unfold Memory.poke
    split
    · refine List.pairwise_cons.2 ⟨fun c hc => ?_, h⟩
      rcases List.mem_cons.1 hc with rfl | hc
      · assumption
      · have := hk c hc
        simp only at this ⊢
        omega
    · split
      · subst_vars
        exact List.pairwise_cons.2 ⟨hk, hm⟩
      · refine List.pairwise_cons.2 ⟨fun c hc => ?_, ih hm⟩
        rcases Memory.mem_poke hc with rfl | hc
        · simp only
          omega
        · exact hk c hc

/-- A write within MEM keeps the canonical form. -/
theorem Memory.wf_poke {n : Nat} {m : Memory} (h : m.wf n = true) {a : Nat} (ha : a < n) (b : Byte) :
    (Memory.poke m a b).wf n = true := by
  rw [Memory.wf_iff] at h ⊢
  refine ⟨Memory.pairwise_poke h.1 a b, fun c hc => ?_⟩
  rcases Memory.mem_poke hc with rfl | hc
  · exact ha
  · exact h.2 c hc

/-! ### A region -/

/-- What a written region reads as: its bytes inside, the old memory outside. -/
theorem Memory.peek_pokes (m : Memory) (a x : Nat) (bs : List Byte) :
    (Memory.pokes m a bs).peek x = if a ≤ x ∧ x < a + bs.length then bs[x - a]? else m.peek x := by
  induction bs generalizing m a with
  | nil => simp [Memory.pokes]
  | cons b bs ih =>
    simp only [Memory.pokes, ih, Memory.peek_poke, List.length_cons]
    by_cases hx : x = a
    · subst hx
      simp
    · by_cases hin : a + 1 ≤ x ∧ x < a + 1 + bs.length
      · have h2 : a ≤ x ∧ x < a + (bs.length + 1) := by omega
        have h3 : x - a = (x - (a + 1)) + 1 := by omega
        rw [if_pos hin, if_pos h2, h3, List.getElem?_cons_succ]
      · have h2 : ¬(a ≤ x ∧ x < a + (bs.length + 1)) := by omega
        rw [if_neg hin, if_neg h2, if_neg hx]

/-- A written region, in the words claims use. -/
theorem Memory.storesOnly_pokes (m : Memory) (a : Nat) (bs : List Byte) : storesOnly (m.pokes a bs) m a bs :=
  fun x => Memory.peek_pokes m a x bs

/-- A region within MEM keeps the canonical form. -/
theorem Memory.wf_pokes {n : Nat} {m : Memory} (h : m.wf n = true) {a : Nat} {bs : List Byte}
    (ha : bs = [] ∨ a + bs.length ≤ n) : (Memory.pokes m a bs).wf n = true := by
  induction bs generalizing m a with
  | nil => exact h
  | cons b bs ih =>
    have hlen : a + (bs.length + 1) ≤ n := by simpa using ha
    exact ih (Memory.wf_poke h (by omega) b) (.inr (by omega))

/-! ### Staged regions -/

@[simp] theorem Memory.commit_nil (m : Memory) : m.commit [] = m := rfl

@[simp] theorem Memory.commit_cons (m : Memory) (a : Nat) (bs : List Byte) (l : List (Nat × List Byte)) :
    m.commit ((a, bs) :: l) = (m.pokes a bs).commit l := rfl

/-- Staged regions within MEM keep the canonical form. -/
theorem Memory.wf_commit {n : Nat} {m : Memory} (h : m.wf n = true) {l : List (Nat × List Byte)}
    (hl : ∀ r ∈ l, r.2 = [] ∨ r.1 + r.2.length ≤ n) : (m.commit l).wf n = true := by
  induction l generalizing m with
  | nil => exact h
  | cons r l ih =>
    obtain ⟨a, bs⟩ := r
    exact ih (Memory.wf_pokes h (hl (a, bs) List.mem_cons_self)) (fun r hr => hl r (List.mem_cons_of_mem _ hr))

/-! ### Reading -/

theorem readByte_some {m : Memory} {d a : Nat} {b : Byte} (h : m.peek a = some b) : readByte m d a = (b, d) := by
  simp [readByte, h]

theorem readByte_none {m : Memory} {d a : Nat} (h : m.peek a = none) :
    readByte m d a = (Config.freeByte d, d + 1) := by
  simp [readByte, h]

/-- A read of `n` bytes gives `n` bytes. -/
@[simp] theorem length_readBytes (m : Memory) (d a n : Nat) : (readBytes m d a n).1.length = n := by
  induction n generalizing d a with
  | zero => rfl
  | succ n ih => simp [readBytes, ih]

/-- `reads` says what reading bytes gives. -/
theorem reads_iff {m : Memory} {d a d' : Nat} {bs : List Byte} :
    reads m d a bs d' ↔ readBytes m d a bs.length = (bs, d') := by
  induction bs generalizing d a with
  | nil => simp [reads, readBytes, eq_comm]
  | cons b bs ih =>
    rw [reads, List.length_cons, readBytes]
    cases h : m.peek a with
    | some c => rw [readByte_some h]; simp [ih, Prod.ext_iff, eq_comm, and_assoc]
    | none => rw [readByte_none h]; simp [ih, Prod.ext_iff, eq_comm, and_assoc]

/-- Reading bytes gives bytes as read. -/
theorem reads_readBytes (m : Memory) (d a n : Nat) : reads m d a (readBytes m d a n).1 (readBytes m d a n).2 := by
  rw [reads_iff, length_readBytes]

/-- Reading bytes makes one draw per undefined byte. -/
theorem readBytes_undefinedIn (m : Memory) (d a n : Nat) : (readBytes m d a n).2 = d + undefinedIn m a n := by
  induction n generalizing d a with
  | zero => rfl
  | succ n ih =>
    have hs : ((fun k => (m.peek (a + k)).isNone) ∘ Nat.succ) = fun k => (m.peek (a + 1 + k)).isNone := by
      funext k
      simp only [Function.comp]
      congr 2
      omega
    simp only [readBytes, ih, undefinedIn]
    rw [List.range_succ_eq_map, List.countP_cons, List.countP_map, hs]
    cases h : m.peek a with
    | some c => simp [readByte_some h]
    | none =>
      simp [readByte_none h]
      omega

/-- Reading defined bytes gives them and makes no draw. -/
theorem readBytes_of_holds {m : Memory} {a : Nat} {bs : List Byte} (d : Nat) (h : holds m a bs) :
    readBytes m d a bs.length = (bs, d) := by
  induction bs generalizing a with
  | nil => rfl
  | cons b bs ih =>
    have h0 : m.peek a = some b := by simpa using h 0 (by simp)
    have hs : holds m (a + 1) bs := fun k hk => by
      have := h (k + 1) (by simpa using hk)
      rwa [List.getElem?_cons_succ, show a + (k + 1) = a + 1 + k by omega] at this
    rw [List.length_cons, readBytes, readByte_some h0, ih hs]

/-- A defined byte is read as it stands, wherever it lies in the region. -/
theorem readBytes_get {m : Memory} {b : Byte} {n a k : Nat} (d : Nat) (hk : k < n) (h : m.peek (a + k) = some b) :
    (readBytes m d a n).1[k]? = some b := by
  induction n generalizing d a k with
  | zero => omega
  | succ n ih =>
    rw [readBytes]
    cases k with
    | zero => simp [readByte_some (show m.peek a = some b from h)]
    | succ k =>
      rw [List.getElem?_cons_succ]
      exact ih _ (by omega) (by rw [← h, show a + 1 + k = a + (k + 1) by omega])

/-- A region of undefined bytes costs one draw per byte. -/
theorem readBytes_draws {m : Memory} {n a : Nat} (d : Nat) (h : ∀ k, k < n → m.peek (a + k) = none) :
    (readBytes m d a n).2 = d + n := by
  induction n generalizing d a with
  | zero => rfl
  | succ n ih =>
    rw [readBytes, readByte_none (by simpa using h 0 (by omega)), ih]
    · omega
    · intro k hk
      rw [← h (k + 1) (by omega), show a + 1 + k = a + (k + 1) by omega]

/-- As many bytes as asked for. -/
@[simp] theorem length_bytesOfWord (v : Word) (n : Nat) : (bytesOfWord v n).length = n := by
  induction n generalizing v with
  | zero => rfl
  | succ n ih => simp [bytesOfWord, ih]

/-! ### Byte order -/

/-- Bits [8i+7:8i] of a little-endian word are byte i. -/
theorem getLsbD_wordOfBytes (bs : List Byte) {i j : Nat} (hi : i < 4) (hj : j < 8) :
    (wordOfBytes bs).getLsbD (8 * i + j) = (bs[i]?.getD 0#8).getLsbD j := by
  induction bs generalizing i with
  | nil => simp [wordOfBytes]
  | cons b bs ih =>
    rw [wordOfBytes, BitVec.getLsbD_or, BitVec.getLsbD_shiftLeft, BitVec.getLsbD_setWidth]
    cases i with
    | zero => simp [hj, show j < 32 by omega]
    | succ i =>
      rw [show 8 * (i + 1) + j - 8 = 8 * i + j by omega, ih (by omega : i < 4)]
      have hb : b.getLsbD (8 * (i + 1) + j) = false := BitVec.getLsbD_of_ge _ _ (by omega)
      simp [show 8 * (i + 1) + j < 32 by omega, show ¬8 * (i + 1) + j < 8 by omega, hb]

/-- Byte i of a word is bits [8i+7:8i]. -/
theorem getElem?_bytesOfWord (v : Word) {n i : Nat} (hi : i < n) :
    (bytesOfWord v n)[i]? = some (v.extractLsb' (8 * i) 8) := by
  induction n generalizing v i with
  | zero => omega
  | succ n ih =>
    rw [bytesOfWord]
    cases i with
    | zero =>
      rw [List.getElem?_cons_zero]
      congr 1
    | succ i =>
      rw [List.getElem?_cons_succ, ih _ (by omega : i < n)]
      congr 1
      ext k hk
      simp [Nat.mul_succ, Nat.add_comm, Nat.add_left_comm]

end Sys2Proof.Machine
end

