-- ==== Sys2Proof/Laws/Operands.lean ====
section
/-! SUPPORT. What the value operations compute: parity as a count of ones, input bits, region legality and the checks of
a word's high bits. -/

namespace Sys2Proof.Machine

/-! ### Parity -/

theorem parityBelow_eq_countP (v : BitVec n) (k : Nat) :
    parityBelow v k = ((List.range k).countP (fun j => v.getLsbD j) % 2 == 1) := by
  induction k with
  | zero => rfl
  | succ k ih =>
    rw [parityBelow, ih, List.range_succ, List.countP_append, List.countP_singleton]
    cases v.getLsbD k
    · simp
    · rcases Nat.mod_two_eq_zero_or_one ((List.range k).countP fun j => v.getLsbD j) with h | h <;>
        simp [h, Nat.add_mod]

/-- `parity` is the parity of the number of ones. -/
theorem parity_eq_oddOnes (v : BitVec n) : parity v = oddOnes v := parityBelow_eq_countP v n

theorem parityBelow_xor (a b : BitVec n) (k : Nat) :
    parityBelow (a ^^^ b) k = (parityBelow a k ^^ parityBelow b k) := by
  induction k with
  | zero => rfl
  | succ k ih =>
    simp only [parityBelow, ih, BitVec.getLsbD_xor]
    cases a.getLsbD k <;> cases b.getLsbD k <;> cases parityBelow a k <;> cases parityBelow b k <;> rfl

/-- Parity is linear. -/
theorem parity_xor (a b : BitVec n) : parity (a ^^^ b) = (parity a ^^ parity b) := parityBelow_xor a b n

@[simp] theorem getLsbD_bitWord (b : Bool) (k : Nat) : (bitWord b).getLsbD k = (decide (k = 0) && b) := by
  cases b
  · simp [bitWord]
  · cases k <;> simp [bitWord, BitVec.getLsbD_one]

/-- `mask(N)` keeps the low N bits. -/
theorem getLsbD_maskBits {n : Nat} (hn : n ≤ 32) (k : Nat) : (maskBits n).getLsbD k = decide (k < n) := by
  rw [maskBits, BitVec.getLsbD_ofNat, Nat.testBit_two_pow_sub_one]
  by_cases h : k < n
  · simp [h]; omega
  · simp [h]

/-! ### Checks of high bits -/

/-- A word shifts to 0 exactly when it has no bit at or above `n`. -/
theorem ushiftRight_eq_zero_iff (v : Word) (n : Nat) : v >>> n = 0#32 ↔ ∀ k, n ≤ k → v.getLsbD k = false := by
  constructor
  · intro h k hk
    have := congrArg (fun x : Word => x.getLsbD (k - n)) h
    simpa [show n + (k - n) = k by omega] using this
  · intro h
    apply BitVec.eq_of_getLsbD_eq
    intro i _
    simpa using h (n + i) (by omega)

/-- A word shifts to 0 exactly when it is below 2^n. -/
theorem ushiftRight_eq_zero_iff_lt (v : Word) (n : Nat) : v >>> n = 0#32 ↔ v.toNat < 2 ^ n := by
  rw [← BitVec.toNat_inj]
  simp [Nat.shiftRight_eq_div_pow, Nat.div_eq_zero_iff]

/-- A region is legal exactly when it is empty or ends within MEM. -/
theorem legal_iff (memSize addr n : Nat) : legal memSize addr n = true ↔ n = 0 ∨ addr + n ≤ memSize := by
  simp [legal]

theorem legal_eq_inMem (s : State) (addr n : Nat) : legal s.params.memSize addr n = true ↔ s.inMem addr n :=
  legal_iff _ _ _

/-! ### Input bits -/

theorem bitIn_of_decodes {b : Byte} {x : Bool}
    (h : (b = 0x01#8 ∧ x = true) ∨ ((b = 0x00#8 ∨ b = 0xFF#8) ∧ x = false)) : bitIn b = some x := by
  rcases h with ⟨rfl, rfl⟩ | ⟨rfl | rfl, rfl⟩ <;> decide

/-- Bytes that decode to bits are read as those bits. -/
theorem bitsIn_of_decodesTo {bs : List Byte} {xs : List Bool} (h : decodesTo bs xs) : bitsIn bs = some xs := by
  unfold decodesTo at h
  induction h with
  | nil => rfl
  | cons h _ ih => simp [bitsIn, bitIn_of_decodes h, ih]

/-- As many bits as bytes. -/
theorem length_bitsIn {bs : List Byte} {xs : List Bool} (h : bitsIn bs = some xs) : xs.length = bs.length := by
  induction bs generalizing xs with
  | nil => cases h; rfl
  | cons b bs ih =>
    rw [bitsIn] at h
    split at h
    · next h1 h2 =>
      cases h
      simp [ih h2]
    · cases h

/-- One byte that is no bit makes the whole input illegal. -/
theorem bitsIn_none {bs : List Byte} {k : Nat} {b : Byte} (hk : bs[k]? = some b) (hb : bitIn b = none) :
    bitsIn bs = none := by
  induction bs generalizing k with
  | nil => simp at hk
  | cons c bs ih =>
    cases k with
    | zero =>
      simp only [List.length_cons, Nat.zero_lt_succ, getElem?_pos, List.getElem_cons_zero, Option.some.injEq] at hk
      simp [bitsIn, hk, hb]
    | succ k =>
      rw [bitsIn, ih (by simpa using hk)]
      cases bitIn c <;> rfl

theorem bitIn_none {b : Byte} (h0 : b ≠ 0x00#8) (h1 : b ≠ 0x01#8) (hf : b ≠ 0xFF#8) : bitIn b = none := by
  simp [bitIn, h0, h1, hf]

/-- A byte decodes exactly when it is a bit. -/
theorem bitIn_isSome (b : Byte) : (∃ x, bitIn b = some x) ↔ isBit b := by
  unfold bitIn isBit
  by_cases h0 : b = 0x00#8
  · simp [h0]
  by_cases h1 : b = 0x01#8
  · simp [h1]
  by_cases hf : b = 0xFF#8
  · simp [hf]
  simp [h0, h1, hf]

/-- An input decodes exactly when each of its bytes is a bit. -/
theorem bitsIn_isSome (bs : List Byte) : (∃ xs, bitsIn bs = some xs) ↔ ∀ x ∈ bs, isBit x := by
  induction bs with
  | nil => simp [bitsIn]
  | cons b bs ih =>
    rw [List.forall_mem_cons, ← ih, ← bitIn_isSome]
    simp only [bitsIn]
    constructor
    · rintro ⟨xs, h⟩
      split at h
      · exact ⟨⟨_, by assumption⟩, ⟨_, by assumption⟩⟩
      · cases h
    · rintro ⟨⟨x, hx⟩, ⟨xs, hxs⟩⟩
      simp [hx, hxs]

/-- MEM_SIZE fits the MEM window and a word (92_eei_decisions.md D3). -/
theorem memSize_le (p : Params) : p.memSize ≤ 2 ^ 24 :=
  Nat.pow_le_pow_right (by decide) (by have := p.memLog.isLt; omega)

theorem le_memSize (p : Params) : 2 ^ 16 ≤ p.memSize := Nat.pow_le_pow_right (by decide) (by omega)

@[simp] theorem countWord_of_lt {k : Nat} (h : k < 2 ^ 32) : countWord k = BitVec.ofNat 32 k := by
  simp only [countWord, h, if_true]

end Sys2Proof.Machine
end

