-- ==== Sys2Proof/Laws/Lfsr.lean ====
section
/-! SUPPORT. What a shift-register run does: the outputs and states one after the other, continuation, and when the
checks of an LFSR command pass. -/

namespace Sys2Proof.Machine

/-- The state after `i` steps. -/
def stateAfter (step : Word → Bool × Word) (s : Word) : Nat → Word
  | 0 => s
  | i + 1 => (step (stateAfter step s i)).2

theorem stateAfter_step (step : Word → Bool × Word) (s : Word) (i : Nat) :
    stateAfter step (step s).2 i = stateAfter step s (i + 1) := by
  induction i with
  | zero => rfl
  | succ i ih => rw [stateAfter, ih]; rfl

/-- A run of `c` steps gives `c` outputs. -/
@[simp] theorem length_gen (step : Word → Bool × Word) (s : Word) (c : Nat) : (gen step s c).1.length = c := by
  induction c generalizing s with
  | zero => rfl
  | succ c ih => simp [gen, ih]

/-- The state after a run. -/
theorem gen_state (step : Word → Bool × Word) (s : Word) (c : Nat) : (gen step s c).2 = stateAfter step s c := by
  induction c generalizing s with
  | zero => rfl
  | succ c ih => rw [gen, ih, stateAfter_step]

/-- Output `i` of a run is the output of the state after `i` steps. -/
theorem gen_output (step : Word → Bool × Word) (s : Word) {c i : Nat} (h : i < c) :
    (gen step s c).1[i]? = some (step (stateAfter step s i)).1 := by
  induction c generalizing s i with
  | zero => omega
  | succ c ih =>
    rw [gen]
    cases i with
    | zero => simp [stateAfter]
    | succ i => simpa [stateAfter_step] using ih (step s).2 (by omega : i < c)

/-- A run of `a + b` steps is a run of `a` and then one of `b` from the state it reached. -/
theorem gen_add (step : Word → Bool × Word) (s : Word) (a b : Nat) :
    gen step s (a + b) = ((gen step s a).1 ++ (gen step (gen step s a).2 b).1, (gen step (gen step s a).2 b).2) := by
  induction a generalizing s with
  | zero => simp [gen]
  | succ a ih => rw [show a + 1 + b = (a + b) + 1 by omega, gen, ih, gen]; rfl

/-- A run in segments is one run. -/
theorem genSegments_eq (step : Word → Bool × Word) (s : Word) (cs : List Nat) :
    genSegments step s cs = (gen step s cs.sum).1 := by
  induction cs generalizing s with
  | nil => rfl
  | cons c cs ih => rw [genSegments, ih, List.sum_cons, gen_add]

/-! ### One step, bit by bit -/

theorem fibStep_state_getLsbD {n : Nat} (hn : n ≤ 32) (fb ot : Word) (oten : Bool) (s : Word) (k : Nat) (hk : k < 32) :
    (fibStep n fb ot oten s).2.getLsbD k =
      (decide (k < n) && if k = 0 then oddOnes (s &&& fb) else s.getLsbD (k - 1)) := by
  simp only [fibStep, BitVec.getLsbD_and, BitVec.getLsbD_or, BitVec.getLsbD_shiftLeft, getLsbD_bitWord,
    getLsbD_maskBits hn, parity_eq_oddOnes]
  cases k with
  | zero => simp [Bool.and_comm]
  | succ k => simp [hk, Bool.and_comm]

theorem galStep_state_getLsbD (mask s : Word) (k : Nat) :
    (galStep mask s).2.getLsbD k = (s.getLsbD (k + 1) ^^ (s.getLsbD 0 && mask.getLsbD k)) := by
  simp only [galStep]
  cases s.getLsbD 0 <;> simp [Nat.add_comm]

/-- The step function of either form. -/
def LfsrUnit.stepOf (fib : Bool) (c : LfsrUnit) : Word → Bool × Word := if fib then c.fibStep else c.galStep

/-- One step of a legal unit: the output and the state that follows. -/
theorem LfsrUnit.stepOf_spec {fib : Bool} {c : LfsrUnit} (h : c.sizeOk) (x : Word) :
    (c.stepOf fib x).1 = c.outputOf fib x ∧ c.follows fib x (c.stepOf fib x).2 := by
  cases fib with
  | false => exact ⟨rfl, fun k _ => galStep_state_getLsbD _ _ k⟩
  | true =>
    refine ⟨by simp [stepOf, LfsrUnit.fibStep, Machine.fibStep, outputOf, parity_eq_oddOnes, LfsrCfg.size], fun k hk => ?_⟩
    show (Machine.fibStep c.cfg.n.toNat c.fb c.ot c.cfg.oten x).2.getLsbD k = _
    rw [fibStep_state_getLsbD h.2 _ _ _ _ _ hk]
    have := h.1
    by_cases h0 : k = 0
    · simp [h0]; intro; omega
    · simp [h0]

/-- A step of a legal unit leaves a state that fits. -/
theorem LfsrUnit.fits_step {fib : Bool} {c : LfsrUnit} (h : c.sizeOk) (hfb : c.fits c.fb) {x : Word} (hx : c.fits x) :
    c.fits (c.stepOf fib x).2 := by
  intro k hk
  by_cases h32 : k < 32
  · rw [(LfsrUnit.stepOf_spec (fib := fib) h x).2 k h32]
    cases fib with
    | false => simp [hx (k + 1) (by omega), hfb k hk]
    | true =>
      have := h.1
      have h0 : k ≠ 0 := by omega
      simp [h0]
      omega
  · exact BitVec.getLsbD_of_ge _ _ (by omega)

theorem LfsrUnit.fits_stateAfter {fib : Bool} {c : LfsrUnit} (h : c.sizeOk) (hfb : c.fits c.fb) {x : Word}
    (hx : c.fits x) (i : Nat) : c.fits (stateAfter (c.stepOf fib) x i) := by
  induction i with
  | zero => exact hx
  | succ i ih => exact LfsrUnit.fits_step h hfb ih

/-! ### The checks -/

/-- The checks of either form. -/
def LfsrUnit.checkOf (fib : Bool) (c : LfsrUnit) : Option CmdError := if fib then c.fibCheck else c.galCheck

theorem LfsrUnit.fits_iff (c : LfsrUnit) (v : Word) : v >>> c.cfg.size = 0#32 ↔ c.fits v :=
  ushiftRight_eq_zero_iff v _

/-- The checks of the Galois form, which the Fibonacci form makes first. -/
theorem LfsrUnit.galCheck_spec (c : LfsrUnit) :
    (¬c.sizeOk → c.galCheck = some .size) ∧
    (c.sizeOk → ¬c.fits c.state → c.galCheck = some .seed) ∧
    (c.sizeOk → c.fits c.state → ¬c.fits c.fb → c.galCheck = some .tap) ∧
    (c.sizeOk → c.fits c.state → c.fits c.fb → c.galCheck = none) := by
  have hsize : (1 ≤ c.cfg.size ∧ c.cfg.size ≤ 32) ↔ c.sizeOk := Iff.rfl
  have hseed := c.fits_iff c.state
  have htap := c.fits_iff c.fb
  unfold LfsrUnit.galCheck
  refine ⟨fun h => ?_, fun h h1 => ?_, fun h h1 h2 => ?_, fun h h1 h2 => ?_⟩
  · rw [if_pos (mt hsize.1 h)]
  · rw [if_neg (not_not.2 (hsize.2 h)), if_pos (mt hseed.1 h1)]
  · rw [if_neg (not_not.2 (hsize.2 h)), if_neg (not_not.2 (hseed.2 h1)), if_pos (mt htap.1 h2)]
  · rw [if_neg (not_not.2 (hsize.2 h)), if_neg (not_not.2 (hseed.2 h1)), if_neg (not_not.2 (htap.2 h2))]

/-- The checks in their order. -/
theorem LfsrUnit.checkOf_spec (fib : Bool) (c : LfsrUnit) :
    (¬c.sizeOk → c.checkOf fib = some .size) ∧
    (c.sizeOk → ¬c.fits c.state → c.checkOf fib = some .seed) ∧
    (c.sizeOk → c.fits c.state → ¬c.tapsOk fib → c.checkOf fib = some .tap) ∧
    (c.legalFor fib → c.checkOf fib = none) := by
  obtain ⟨g1, g2, g3, g4⟩ := c.galCheck_spec
  have hot := c.fits_iff c.ot
  cases fib with
  | false =>
    exact ⟨g1, g2, fun h h1 h2 => g3 h h1 (fun hf => h2 ⟨hf, by simp⟩), fun ⟨h, h1, h2⟩ => g4 h h1 h2.1⟩
  | true =>
    simp only [LfsrUnit.checkOf, if_true, LfsrUnit.fibCheck]
    refine ⟨fun h => by rw [g1 h], fun h h1 => by rw [g2 h h1], fun h h1 h2 => ?_, fun ⟨h, h1, h2, h3⟩ => ?_⟩
    · by_cases hf : c.fits c.fb
      · have h2 : c.cfg.oten = true ∧ ¬c.fits c.ot := by simpa [LfsrUnit.tapsOk, hf] using h2
        rw [g4 h h1 hf]
        exact if_pos ⟨h2.1, mt hot.1 h2.2⟩
      · rw [g3 h h1 hf]
    · rw [g4 h h1 h2]
      exact if_neg (fun ho => ho.2 (hot.2 (h3 rfl ho.1)))

end Sys2Proof.Machine
end

