-- ==== Sys2Proof/Laws/Exec.lean ====
section
/-! SUPPORT. What a command can do, said once: it completes with the result of its `Exec`, whose staged regions lie in
MEM, and it spends draws only if it reads MEM. -/

namespace Sys2Proof.Machine

/-- `Exec` of every command at a state, with the draws counter it leaves. -/
def commandResult (i : Instr) (s : State) : ExecResult × Nat :=
  match i with
  | .nop => (.ok {}, s.draws)
  | .lfsrFibStep u => (runLfsrFibStep u (s.snap.unit u), s.draws)
  | .lfsrFibGen u => (runLfsrFibGen u (s.snap.unit u) s.params.memSize s.snap.args.a0 s.snap.args.a1, s.draws)
  | .lfsrGalStep u => (runLfsrGalStep u (s.snap.unit u), s.draws)
  | .lfsrGalGen u => (runLfsrGalGen u (s.snap.unit u) s.params.memSize s.snap.args.a0 s.snap.args.a1, s.draws)
  | .rcgInfo => (runRcgInfo s.params s.snap.args, s.draws)
  | .rcgBuild => (runRcgBuild s.params s.snap.args, s.draws)
  | .bchParity => (runBchParity s.snap.args, s.draws)
  | .bchEncode => (runBchEncode s.snap.args, s.draws)
  | .bchEncodeIl => (runBchEncodeIl s.snap.args, s.draws)
  | .hamCheck => (runHamCheck s.params s.snap.args, s.draws)
  | .convEncode => runConvEncode s.params.memSize s.mem s.draws s.snap.cvpoly s.snap.args
  | .convRelease => (.ok { cvcap := some CvCap.reset }, s.draws)
  | .muxDual => runMuxDual s.params s.mem s.draws s.snap.args
  | .muxAltboc => runMuxAltboc s.params s.mem s.draws s.snap.args
  | .altModidx => (runAltModidx s.snap.args, s.draws)
  | .altSegment => (runAltSegment s.params s.snap.args, s.draws)

@[simp] theorem State.complete_draws (s : State) (r : ExecResult) : (s.complete r).draws = s.draws := by
  cases r <;> rfl

/-- Completing without having read MEM is completing with the draws as they were. -/
theorem State.complete_eq_completeDrawing (s : State) (r : ExecResult) : s.complete r = s.completeDrawing (r, s.draws) := by
  cases r <;> rfl

/-- A command is its `Exec` completed. -/
theorem exec_eq (i : Instr) (s : State) : exec i s = .next (s.completeDrawing (commandResult i s)) := by
  cases i <;> first | rfl | exact congrArg _ (State.complete_eq_completeDrawing s _)

/-- The next state of a command that commits. -/
theorem exec_of_ok {i : Instr} {s : State} {w : Writes} {d : Nat} (h : commandResult i s = (.ok w, d)) :
    exec i s = .next { s.commit w with draws := d } := by
  rw [exec_eq, h]; rfl

/-- The next state of a command that fails. -/
theorem exec_of_error {i : Instr} {s : State} {e : CmdError} {d : Nat} (h : commandResult i s = (.error e, d)) :
    exec i s = .next { s.doneErr e.code with draws := d } := by
  rw [exec_eq, h]; rfl

/-- The two ways a command can complete. -/
theorem exec_cases {i : Instr} {s t : State} (h : exec i s = .next t) :
    (∃ w d, commandResult i s = (.ok w, d) ∧ t = { s.commit w with draws := d }) ∨
      ∃ e d, commandResult i s = (.error e, d) ∧ t = { s.doneErr e.code with draws := d } := by
  rw [exec_eq] at h
  injection h with h
  cases hr : commandResult i s with
  | mk r d =>
    rw [hr] at h
    cases r with
    | ok w => exact .inl ⟨w, d, rfl, h.symm⟩
    | error e => exact .inr ⟨e, d, rfl, h.symm⟩

/-- Every error code is one of 1 to 10. -/
theorem CmdError.code_range (e : CmdError) : e.code ≠ 0#8 ∧ e.code.toNat ≤ 10 := by cases e <;> decide

/-! ### Lengths of the outputs -/

theorem length_codeBits {d : Descriptor} (hsum : d.g1Segments.sum = d.len) (e : SatEntry) :
    (codeBits d e).length = d.len := by
  have h2 : (g2Seq d e).length = d.len := by
    unfold g2Seq
    split <;> simp
  simp [codeBits, g1Seq, genSegments_eq, hsum, h2]

theorem length_satBytes {d : Descriptor} (hsum : d.g1Segments.sum = d.len) (e : SatEntry) :
    (satBytes d e).length = 2 * d.len := by
  simp [satBytes, length_codeBits hsum]
  omega

/-- The table has 2·L bytes per satellite. -/
theorem length_tableBytes {d : Descriptor} (hsum : d.g1Segments.sum = d.len) :
    (tableBytes d).length = 2 * d.len * d.sats.length := by
  unfold tableBytes
  induction d.sats with
  | nil => simp
  | cons e es ih => simp [length_satBytes hsum, ih, Nat.mul_succ, Nat.add_comm]

/-- A descriptor that passes its checks has segments that sum to its length. -/
theorem sum_of_check {d : Descriptor} (h : checkDescriptor d = none) : d.g1Segments.sum = d.len := by
  unfold checkDescriptor at h
  by_contra hne
  have : descSizeBad d = true := by simp [descSizeBad, hne]
  simp [this] at h

/-- Two symbols per input bit. -/
@[simp] theorem length_convRun (p : CvPoly) (s : BitVec 6) (bits : List Bool) :
    (convRun p s bits).1.length = 2 * bits.length := by
  induction bits generalizing s with
  | nil => rfl
  | cons b bs ih => simp [convRun, ih]; omega

/-- Twelve samples per chip. -/
theorem length_dualSamples (ps : PatternSet) {as bs : List Bool} (h : as.length = bs.length) :
    (dualSamples ps as bs).length = 12 * as.length := by
  unfold dualSamples
  induction as generalizing bs with
  | nil => simp
  | cons a as ih =>
    cases bs with
    | nil => simp at h
    | cons b bs =>
      rw [List.zipWith_cons_cons, List.flatMap_cons, List.length_append, ih (by simpa using h), Vector.length_toList,
        List.length_cons]
      omega

@[simp] theorem length_altPattern (p : Params) (q : Fin 16) : (altPattern p q).length = 8 := by simp [altPattern]

/-- A segment has 24 samples. -/
@[simp] theorem length_altSegmentOf (p : Params) (a b : Fin 16) : (altSegmentOf p a b).length = 24 := by
  simp [altSegmentOf]

/-- 24 samples per pair of chips. -/
theorem length_altComposite (p : Params) : ∀ qs : List (Fin 16), (altComposite p qs).length = 24 * (qs.length / 2)
  | [] => rfl
  | [_] => by simp [altComposite]
  | a :: b :: rest => by
    rw [altComposite, List.length_append, length_altSegmentOf, length_altComposite p rest]
    simp only [List.length_cons]
    omega

theorem length_altIndices (m : Word) {n : Nat} {as bs cs ds : List Bool} (ha : as.length = n) (hb : bs.length = n)
    (hc : cs.length = n) (hd : ds.length = n) : (altIndices m as bs cs ds).length = n := by
  induction n generalizing as bs cs ds with
  | zero =>
    rw [List.length_eq_zero_iff] at ha
    subst ha
    rfl
  | succ n ih =>
    match as, bs, cs, ds with
    | a :: as, b :: bs, c :: cs, d :: ds =>
      simp only [List.length_cons, Nat.add_right_cancel_iff] at ha hb hc hd
      simp [altIndices, ih ha hb hc hd]

/-! ### Staged regions lie in MEM -/

/-- Every staged region is empty or within MEM. -/
def Writes.inMem (w : Writes) (memSize : Nat) : Prop := ∀ r ∈ w.mem, r.2 = [] ∨ r.1 + r.2.length ≤ memSize

/-- A single staged region of a legal length. -/
theorem inMem_of_legal {memSize a n : Nat} {bs : List Byte} (h : legal memSize a n = true) (hn : bs.length = n) :
    bs = [] ∨ a + bs.length ≤ memSize := by
  rcases (legal_iff _ _ _).1 h with h | h
  · exact .inl (List.length_eq_zero_iff.1 (hn.trans h))
  · exact .inr (hn ▸ h)

theorem runLfsrGen_inMem {fib : Bool} {sel : UnitSel} {u : LfsrUnit} {n : Nat} {dst count : Word} {w : Writes}
    (h : (if fib then runLfsrFibGen sel u n dst count else runLfsrGalGen sel u n dst count) = .ok w) : w.inMem n := by
  cases fib <;> simp only [Bool.false_eq_true, if_false, if_true, runLfsrFibGen, runLfsrGalGen] at h <;> split at h
  all_goals first | cases h | skip
  all_goals split at h <;> cases h
  all_goals
    intro r hr
    rw [List.mem_singleton.1 hr]
    exact inMem_of_legal (by assumption) (by simp)

theorem runLfsrStep_mem {fib : Bool} {sel : UnitSel} {u : LfsrUnit} {w : Writes}
    (h : (if fib then runLfsrFibStep sel u else runLfsrGalStep sel u) = .ok w) : w.mem = [] := by
  cases fib <;> simp only [Bool.false_eq_true, if_false, if_true, runLfsrFibStep, runLfsrGalStep] at h <;>
    split at h <;> cases h <;> rfl

theorem runRcgBuild_inMem {p : Params} {a : Args} {w : Writes} (h : runRcgBuild p a = .ok w) : w.inMem p.memSize := by
  unfold runRcgBuild at h
  split at h
  · cases h
  · split at h
    · cases h
    · next hc =>
      split at h <;> cases h
      intro r hr
      rw [List.mem_singleton.1 hr]
      exact inMem_of_legal (by assumption) (length_tableBytes (sum_of_check hc))

theorem runConvEncode_inMem {n : Nat} {m : Memory} {d : Nat} {p : CvPoly} {a : Args} {w : Writes}
    (h : (runConvEncode n m d p a).1 = .ok w) : w.inMem n := by
  unfold runConvEncode at h
  split at h
  · cases h
  split at h
  · cases h
  split at h
  · cases h
  next hl =>
    simp only at h
    split at h <;> cases h
    next bits hb =>
      intro r hr
      rw [List.mem_singleton.1 hr]
      exact inMem_of_legal (not_not.1 hl).2 (by simp [length_bitsIn hb])

theorem runMuxDual_inMem {p : Params} {m : Memory} {d : Nat} {a : Args} {w : Writes}
    (h : (runMuxDual p m d a).1 = .ok w) : w.inMem p.memSize := by
  unfold runMuxDual at h
  split at h
  · cases h
  split at h
  · cases h
  next hl =>
    simp only at h
    split at h <;> cases h
    next as bs ha hb =>
      intro r hr
      rw [List.mem_singleton.1 hr]
      have h1 := length_bitsIn ha
      have h2 := length_bitsIn hb
      rw [length_readBytes] at h1 h2
      exact inMem_of_legal (not_not.1 hl).2.2 (by simp [length_dualSamples _ (h1.trans h2.symm), h1])

theorem iqRegions_inMem {n len : Nat} {dI dQ : Word} {l : List IQ} (hI : legal n dI.toNat len = true)
    (hQ : legal n dQ.toNat len = true) (hl : l.length = len) :
    ∀ r ∈ iqRegions dI dQ l, r.2 = [] ∨ r.1 + r.2.length ≤ n := by
  intro r hr
  rcases List.mem_cons.1 hr with rfl | hr
  · exact inMem_of_legal hI (by simp [hl])
  · rw [List.mem_singleton.1 hr]
    exact inMem_of_legal hQ (by simp [hl])

theorem runMuxAltboc_inMem {p : Params} {m : Memory} {d : Nat} {a : Args} {w : Writes}
    (h : (runMuxAltboc p m d a).1 = .ok w) : w.inMem p.memSize := by
  unfold runMuxAltboc at h
  split at h
  · cases h
  split at h
  · cases h
  next hodd =>
    split at h
    · cases h
    next hl =>
      simp only [altWrites] at h
      split at h <;> cases h
      next aI bI aQ bQ h0 h1 h2 h3 =>
        have e0 := length_bitsIn h0
        have e1 := length_bitsIn h1
        have e2 := length_bitsIn h2
        have e3 := length_bitsIn h3
        simp only [readCodes, length_readBytes] at e0 e1 e2 e3
        simp only [altRegionsLegal, Bool.not_eq_false, Bool.and_eq_true] at hl
        refine iqRegions_inMem hl.1.2 hl.2 ?_
        rw [length_altComposite, length_altIndices _ e0 e1 e2 e3]
        omega

theorem runAltSegment_inMem {p : Params} {a : Args} {w : Writes} (h : runAltSegment p a = .ok w) :
    w.inMem p.memSize := by
  unfold runAltSegment at h
  split at h
  · cases h
  split at h <;> cases h
  next hl => exact iqRegions_inMem (not_not.1 hl).1 (not_not.1 hl).2 (by simp [altSegmentAt])

/-- What every command stages lies in MEM. -/
theorem commandResult_inMem {i : Instr} {s : State} {w : Writes} {d : Nat} (h : commandResult i s = (.ok w, d)) :
    w.inMem s.params.memSize := by
  have h1 : (commandResult i s).1 = .ok w := by rw [h]
  have nomem : w.mem = [] → w.inMem s.params.memSize := fun hw r hr => by rw [hw] at hr; cases hr
  cases i with
  | nop => cases h1; exact nomem rfl
  | lfsrFibStep u => exact nomem (runLfsrStep_mem (fib := true) h1)
  | lfsrGalStep u => exact nomem (runLfsrStep_mem (fib := false) h1)
  | lfsrFibGen u => exact runLfsrGen_inMem (fib := true) h1
  | lfsrGalGen u => exact runLfsrGen_inMem (fib := false) h1
  | rcgInfo =>
    simp only [commandResult, runRcgInfo] at h1
    split at h1
    · cases h1
    · split at h1 <;> cases h1
      exact nomem rfl
  | rcgBuild => exact runRcgBuild_inMem h1
  | bchParity => simp only [commandResult, runBchParity] at h1; split at h1 <;> cases h1; exact nomem rfl
  | bchEncode => simp only [commandResult, runBchEncode] at h1; split at h1 <;> cases h1; exact nomem rfl
  | bchEncodeIl => simp only [commandResult, runBchEncodeIl] at h1; split at h1 <;> cases h1; exact nomem rfl
  | hamCheck => simp only [commandResult, runHamCheck] at h1; split at h1 <;> cases h1; exact nomem rfl
  | convEncode => exact runConvEncode_inMem h1
  | convRelease => cases h1; exact nomem rfl
  | muxDual => exact runMuxDual_inMem h1
  | muxAltboc => exact runMuxAltboc_inMem h1
  | altModidx => simp only [commandResult, runAltModidx] at h1; split at h1 <;> cases h1; exact nomem rfl
  | altSegment => exact runAltSegment_inMem h1

/-! ### Which writes a command stages -/

/-- Committing a staged LuSTATE touches the state alone. -/
theorem LfsrUnit.commit_keeps (u : LfsrUnit) (sel : UnitSel) (w : Option (UnitSel × Word)) :
    u.commit sel w = { u with state := (u.commit sel w).state } := by
  unfold LfsrUnit.commit
  split
  · split <;> rfl
  · rfl

/-- A staged write that does not name the unit leaves it as it is. -/
theorem LfsrUnit.commit_other {u : LfsrUnit} {sel : UnitSel} {w : Option (UnitSel × Word)}
    (h : ∀ v, w ≠ some (sel, v)) : u.commit sel w = u := by
  unfold LfsrUnit.commit
  split
  · next sel' v => exact if_neg (fun he : sel' = sel => h v (by rw [he]))
  · rfl

/-- A command stages LnSTATE only if it is an LFSR command on that unit, CVCAP only if it is an encoder's, and MEM only
if it has a MEM result. -/
theorem commandResult_shape {i : Instr} {s : State} {w : Writes} {d : Nat} (h : commandResult i s = (.ok w, d)) :
    (i ∉ [.lfsrFibStep .u0, .lfsrFibGen .u0, .lfsrGalStep .u0, .lfsrGalGen .u0] → ∀ v, w.unit ≠ some (.u0, v)) ∧
    (i ∉ [.lfsrFibStep .u1, .lfsrFibGen .u1, .lfsrGalStep .u1, .lfsrGalGen .u1] → ∀ v, w.unit ≠ some (.u1, v)) ∧
    (i ∉ [.convEncode, .convRelease] → w.cvcap = none) ∧
    (i ∉ [.lfsrFibGen .u0, .lfsrFibGen .u1, .lfsrGalGen .u0, .lfsrGalGen .u1, .rcgBuild, .convEncode, .muxDual,
        .muxAltboc, .altSegment] → w.mem = []) := by
  have h1 : (commandResult i s).1 = .ok w := by rw [h]
  clear h
  cases i
  case lfsrFibStep u | lfsrGalStep u | lfsrFibGen u | lfsrGalGen u =>
    simp only [commandResult, runLfsrFibStep, runLfsrGalStep, runLfsrFibGen, runLfsrGalGen] at h1
    repeat' (first | cases h1 | split at h1)
    all_goals cases u <;> simp [lfsrStepWrites, lfsrGenWrites]
  all_goals
    simp only [commandResult, runRcgInfo, runRcgBuild, runBchParity, runBchEncode, runBchEncodeIl, runHamCheck,
      runConvEncode, runMuxDual, runMuxAltboc, altWrites, runAltModidx, runAltSegment] at h1
    repeat' (first | cases h1 | split at h1 | simp only at h1)
    all_goals simp [convWrites]

/-- Which result registers a command writes (30_encoding.md rule R98). -/
theorem commandResult_results {i : Instr} {s : State} {w : Writes} {d : Nat} (h : commandResult i s = (.ok w, d)) :
    (i ∈ [.nop, .convRelease] → w.r0 = none) ∧ (i ∉ [.rcgInfo, .rcgBuild, .convEncode] → w.r1 = none) ∧
    (i ∉ [.rcgInfo, .rcgBuild] → w.r2 = none) ∧ (i ≠ .rcgInfo → w.r3 = none) := by
  have h1 : (commandResult i s).1 = .ok w := by rw [h]
  clear h
  cases i
  all_goals
    simp only [commandResult, runLfsrFibStep, runLfsrGalStep, runLfsrFibGen, runLfsrGalGen, runRcgInfo, runRcgBuild,
      runBchParity, runBchEncode, runBchEncodeIl, runHamCheck, runConvEncode, runMuxDual, runMuxAltboc, altWrites,
      runAltModidx, runAltSegment] at h1
    repeat' (first | cases h1 | split at h1 | simp only at h1)
    all_goals simp [convWrites, lfsrStepWrites, lfsrGenWrites]

/-- Only the commands that read MEM draw. -/
theorem commandResult_draws (i : Instr) (s : State) (h : i ∉ [.convEncode, .muxDual, .muxAltboc]) :
    (commandResult i s).2 = s.draws := by
  cases i <;> first | rfl | simp at h

/-- A captured state is VALID, or cleared whole. -/
theorem commandResult_cvcap {i : Instr} {s : State} {w : Writes} {d : Nat} {c : CvCap}
    (h : commandResult i s = (.ok w, d)) (hw : w.cvcap = some c) : c.valid = true ∨ c = CvCap.reset := by
  have h1 : (commandResult i s).1 = .ok w := by rw [h]
  clear h
  cases i
  all_goals
    simp only [commandResult, runLfsrFibStep, runLfsrGalStep, runLfsrFibGen, runLfsrGalGen, runRcgInfo, runRcgBuild,
      runBchParity, runBchEncode, runBchEncodeIl, runHamCheck, runConvEncode, runMuxDual, runMuxAltboc, altWrites,
      runAltModidx, runAltSegment] at h1
    repeat' (first | cases h1 | split at h1 | simp only at h1)
    all_goals simp [convWrites, lfsrStepWrites, lfsrGenWrites] at hw
    all_goals
      subst hw
      simp

/-- What a command does rests on its operands, MEM, the parameters and the draws alone. -/
theorem commandResult_congr {i : Instr} {s t : State} (h1 : s.snap = t.snap) (h2 : s.params = t.params)
    (h3 : s.mem = t.mem) (h4 : s.draws = t.draws) : commandResult i s = commandResult i t := by
  cases i <;> simp only [commandResult, h1, h2, h3, h4]

/-! ### The LFSR commands, both forms at once -/

/-- A step command on a legal unit. -/
theorem commandResult_lfsrStep (fib : Bool) (u : UnitSel) (s : State) (hl : (s.snap.unit u).legalFor fib) :
    commandResult (if fib then .lfsrFibStep u else .lfsrGalStep u) s =
      (.ok (lfsrStepWrites u ((s.snap.unit u).stepOf fib (s.snap.unit u).state)), s.draws) := by
  have hc := ((s.snap.unit u).checkOf_spec fib).2.2.2 hl
  cases fib
  · have hc : (s.snap.unit u).galCheck = none := hc
    simp [commandResult, runLfsrGalStep, hc, LfsrUnit.stepOf]
  · have hc : (s.snap.unit u).fibCheck = none := hc
    simp [commandResult, runLfsrFibStep, hc, LfsrUnit.stepOf]

/-- A generation command on a legal unit and region. -/
theorem commandResult_lfsrGen (fib : Bool) (u : UnitSel) (s : State) (hl : (s.snap.unit u).legalFor fib)
    (hm : s.inMem s.snap.args.a0.toNat s.snap.args.a1.toNat) :
    commandResult (if fib then .lfsrFibGen u else .lfsrGalGen u) s =
      (.ok (lfsrGenWrites u s.snap.args.a0 s.snap.args.a1
        (gen ((s.snap.unit u).stepOf fib) (s.snap.unit u).state s.snap.args.a1.toNat)), s.draws) := by
  have hc := ((s.snap.unit u).checkOf_spec fib).2.2.2 hl
  have hm := (legal_eq_inMem _ _ _).2 hm
  cases fib
  · have hc : (s.snap.unit u).galCheck = none := hc
    simp [commandResult, runLfsrGalGen, hc, hm, LfsrUnit.stepOf]
  · have hc : (s.snap.unit u).fibCheck = none := hc
    simp [commandResult, runLfsrFibGen, hc, hm, LfsrUnit.stepOf]

end Sys2Proof.Machine
end

