-- ==== Sys2Proof/Laws/Coders.lean ====
section
/-! SUPPORT. What the convolutional encoder, the interleaver and the segment table compute, once each. -/

namespace Sys2Proof.Machine

/-- Encoding two inputs one after the other, the second from the state after the first. -/
theorem convRun_append (p : CvPoly) (s : BitVec 6) (xs ys : List Bool) :
    convRun p s (xs ++ ys) =
      ((convRun p s xs).1 ++ (convRun p (convRun p s xs).2 ys).1, (convRun p (convRun p s xs).2 ys).2) := by
  induction xs generalizing s with
  | nil => rfl
  | cons b bs ih => simp only [List.cons_append, convRun, ih]

/-- The two symbols of input bit `i`. -/
theorem convRun_symbols (p : CvPoly) (s : BitVec 6) {bits : List Bool} {i : Nat} (hi : i < bits.length) :
    (convRun p s bits).1[2 * i]? = some (convStep p (convRun p s (bits.take i)).2 bits[i]).1.1 ∧
      (convRun p s bits).1[2 * i + 1]? = some (convStep p (convRun p s (bits.take i)).2 bits[i]).1.2 := by
  induction bits generalizing s i with
  | nil => simp at hi
  | cons b bs ih =>
    cases i with
    | zero => simp [convRun]
    | succ i =>
      have := ih (convStep p s b).2 (i := i) (by simpa using hi)
      simp only [convRun, List.take_succ_cons, List.getElem_cons_succ, show 2 * (i + 1) = 2 * i + 1 + 1 by omega,
        List.getElem?_cons_succ]
      exact this

/-- Entry `j` of block `i` of a list made of equal blocks. -/
theorem getElem?_flatMap_block {α β : Type} (f : α → List β) {n : Nat} (hf : ∀ x, (f x).length = n) (l : List α)
    (i : Nat) {j : Nat} (hj : j < n) : (l.flatMap f)[n * i + j]? = (l[i]?).bind (fun x => (f x)[j]?) := by
  induction l generalizing i with
  | nil => simp
  | cons x xs ih =>
    rw [List.flatMap_cons]
    cases i with
    | zero =>
      rw [List.getElem?_append_left (by rw [hf]; omega)]
      simp
    | succ i =>
      rw [List.getElem?_append_right (by rw [hf, Nat.mul_succ]; omega), hf,
        show n * (i + 1) + j - n = n * i + j by rw [Nat.mul_succ]; omega, ih]
      simp

/-- Sample `t` of a segment. -/
theorem altSegmentOf_get (p : Params) (a b : Fin 16) {t : Nat} (ht : t < 24) :
    (altSegmentOf p a b)[t]? = some (segmentSample p a b t) := by
  have hp : ∀ (q : Fin 16) (k : Nat) (h : k < 8), (altPattern p q)[k]? = some p.altStates[p.altPhase[q][k]] := by
    intro q k h
    simp [altPattern, h]
  unfold altSegmentOf segmentSample
  by_cases h1 : t < 8
  · rw [dif_pos h1, List.append_assoc, List.append_assoc, List.getElem?_append_left (by simpa using h1), hp _ _ h1]
  by_cases h2 : t < 12
  · rw [dif_neg h1, dif_pos h2, List.append_assoc, List.append_assoc, List.getElem?_append_right (by simp; omega),
      List.getElem?_append_left (by simp; omega), List.getElem?_take_of_lt (by simp; omega), length_altPattern,
      hp _ _ (by omega)]
  by_cases h3 : t < 16
  · rw [dif_neg h1, dif_neg h2, dif_pos h3, List.getElem?_append_left (by simp; omega),
      List.getElem?_append_right (by simp; omega), List.getElem?_drop]
    simp only [List.length_append, length_altPattern, List.length_take]
    rw [show 4 + (t - (8 + min 4 8)) = t - 8 by omega, hp _ _ (by omega)]
  · rw [dif_neg h1, dif_neg h2, dif_neg h3, dif_pos ht, List.getElem?_append_right (by simp; omega)]
    simp only [List.length_append, length_altPattern, List.length_take, List.length_drop]
    rw [show t - (8 + min 4 8 + (8 - 4)) = t - 16 by omega, hp _ _ (by omega)]

end Sys2Proof.Machine
end

