-- ==== Sys2Proof/Laws/PerInstr.lean ====
section
/-! SUPPORT. A family of statements about each command as syntax: its encoding is a legal command word that decodes to
it. -/

namespace Sys2Proof.Laws

/-- The encoding of a command is a legal word (30_encoding.md rule R91), below 2^9, and decodes to the command. -/
def EncodesLegally.Statement (i : Instr) : Prop :=
  wordLegal (encode i) = true ∧ (encode i).toNat < 512 ∧ decode (encode i) = .ok i

theorem EncodesLegally.nop : EncodesLegally.Statement .nop := ⟨rfl, by decide, rfl⟩

theorem EncodesLegally.lfsrFibStep (u : UnitSel) : EncodesLegally.Statement (.lfsrFibStep u) := by
  cases u <;> exact ⟨rfl, by decide, rfl⟩

theorem EncodesLegally.lfsrFibGen (u : UnitSel) : EncodesLegally.Statement (.lfsrFibGen u) := by
  cases u <;> exact ⟨rfl, by decide, rfl⟩

theorem EncodesLegally.lfsrGalStep (u : UnitSel) : EncodesLegally.Statement (.lfsrGalStep u) := by
  cases u <;> exact ⟨rfl, by decide, rfl⟩

theorem EncodesLegally.lfsrGalGen (u : UnitSel) : EncodesLegally.Statement (.lfsrGalGen u) := by
  cases u <;> exact ⟨rfl, by decide, rfl⟩

theorem EncodesLegally.rcgInfo : EncodesLegally.Statement .rcgInfo := ⟨rfl, by decide, rfl⟩

theorem EncodesLegally.rcgBuild : EncodesLegally.Statement .rcgBuild := ⟨rfl, by decide, rfl⟩

theorem EncodesLegally.bchParity : EncodesLegally.Statement .bchParity := ⟨rfl, by decide, rfl⟩

theorem EncodesLegally.bchEncode : EncodesLegally.Statement .bchEncode := ⟨rfl, by decide, rfl⟩

theorem EncodesLegally.bchEncodeIl : EncodesLegally.Statement .bchEncodeIl := ⟨rfl, by decide, rfl⟩

theorem EncodesLegally.hamCheck : EncodesLegally.Statement .hamCheck := ⟨rfl, by decide, rfl⟩

theorem EncodesLegally.convEncode : EncodesLegally.Statement .convEncode := ⟨rfl, by decide, rfl⟩

theorem EncodesLegally.convRelease : EncodesLegally.Statement .convRelease := ⟨rfl, by decide, rfl⟩

theorem EncodesLegally.muxDual : EncodesLegally.Statement .muxDual := ⟨rfl, by decide, rfl⟩

theorem EncodesLegally.muxAltboc : EncodesLegally.Statement .muxAltboc := ⟨rfl, by decide, rfl⟩

theorem EncodesLegally.altModidx : EncodesLegally.Statement .altModidx := ⟨rfl, by decide, rfl⟩

theorem EncodesLegally.altSegment : EncodesLegally.Statement .altSegment := ⟨rfl, by decide, rfl⟩

end Sys2Proof.Laws
end

