-- ==== Sys2Proof/Laws/Ranging.lean ====
section
/-! SUPPORT. What the descriptor checks and the registers of the ranging-code generator do, once each: each check passes
exactly when its item of 42_ranging.md rule R161 does, and a register's run gives its output sequence. -/

namespace Sys2Proof.Machine

/-! ### The descriptor checks -/

theorem sizeBad_eq_false {n : Nat} : sizeBad n = false ↔ 1 ≤ n ∧ n ≤ 32 := by simp [sizeBad]

theorem tapBad_eq_false {n : Nat} {t : Int} : tapBad n t = false ↔ tapIn n t := by
  simp [tapBad, tapIn]
  omega

theorem any_tapBad_eq_false {n : Nat} {l : List Int} : l.any (tapBad n) = false ↔ ∀ t ∈ l, tapIn n t := by
  simp only [List.any_eq_false, Bool.not_eq_true, tapBad_eq_false]

/-- Item 1. -/
theorem descSizeBad_eq_false {d : Descriptor} : descSizeBad d = false ↔ d.sizesOk := by
  obtain ⟨len, g1, segs, g2, sats⟩ := d
  cases g1 <;> cases g2 <;>
    simp [descSizeBad, Descriptor.sizesOk, RegCfg.sizeOk, regSize, sizeBad_eq_false, and_assoc]

/-- Item 2. -/
theorem descSeedBad_eq_false {d : Descriptor} : descSeedBad d = false ↔ d.seedsOk := by
  obtain ⟨len, g1, segs, g2, sats⟩ := d
  have hs : ∀ g : G2Cfg, sats.any (entrySeedBad (some g)) = false ↔
      ∀ v, SatEntry.seed v ∈ sats → v.length = g.n := by
    intro g
    rw [List.any_eq_false]
    refine ⟨fun h v hv => by simpa [entrySeedBad] using h _ hv, fun h e he => ?_⟩
    cases e with
    | seed v => simpa [entrySeedBad] using h v he
    | _ => simp [entrySeedBad]
  have hn : sats.any (entrySeedBad none) = false := by
    rw [List.any_eq_false]
    intro e _
    cases e <;> simp [entrySeedBad]
  cases g1 <;> cases g2 <;>
    simp [descSeedBad, Descriptor.seedsOk, RegCfg.seedOk, g1SeedBad, hs, hn, and_assoc, ushiftRight_eq_zero_iff_lt]

theorem g1TapBad_eq_false {g1 : RegCfg} : g1TapBad g1 = false ↔ g1.tapsOk := by
  cases g1 with
  | fib n seed fb out =>
    cases out <;> simp only [g1TapBad, RegCfg.tapsOk, Bool.or_eq_false_iff, any_tapBad_eq_false] <;> simp
  | gal n seed mask => simp [g1TapBad, RegCfg.tapsOk, ushiftRight_eq_zero_iff_lt]

/-- Item 3, where no entry lacks its G2. -/
theorem descTapBad_eq_false {d : Descriptor} (h : d.entriesHaveG2) : descTapBad d = false ↔ d.tapsOk := by
  obtain ⟨len, g1, segs, g2, sats⟩ := d
  have ht : ∀ g : G2Cfg, sats.any (entryTapBad (some g)) = false ↔
      ∀ l, SatEntry.outTaps l ∈ sats → ∀ t ∈ l, tapIn g.n t := by
    intro g
    rw [List.any_eq_false]
    refine ⟨fun h l hl => any_tapBad_eq_false.1 (by simpa [entryTapBad] using h _ hl), fun h e he => ?_⟩
    cases e with
    | outTaps l => simpa [entryTapBad] using any_tapBad_eq_false.2 (h l he)
    | _ => simp [entryTapBad]
  have hn : g2 = none → sats.any (entryTapBad none) = false := by
    intro hg
    rw [List.any_eq_false]
    intro e he
    rw [h hg e he]
    simp [entryTapBad]
  cases g2 with
  | none => simp [descTapBad, Descriptor.tapsOk, hn rfl, g1TapBad_eq_false]
  | some g =>
    simp only [descTapBad, Descriptor.tapsOk, Bool.or_eq_false_iff, any_tapBad_eq_false, ht, g1TapBad_eq_false,
      Option.some.injEq]
    simp [and_assoc]

/-- Item 4. -/
theorem descEntriesBad_eq_false {d : Descriptor} : descEntriesBad d = false ↔ d.entriesOk := by
  obtain ⟨len, g1, segs, g2, sats⟩ := d
  have e1 : sats.any isSeed = true ↔ ∃ v, SatEntry.seed v ∈ sats := by
    rw [List.any_eq_true]
    refine ⟨fun ⟨e, he, h⟩ => ?_, fun ⟨v, h⟩ => ⟨_, h, rfl⟩⟩
    cases e <;> simp [isSeed] at h
    exact ⟨_, he⟩
  have e2 : sats.any isOutTaps = true ↔ ∃ t, SatEntry.outTaps t ∈ sats := by
    rw [List.any_eq_true]
    refine ⟨fun ⟨e, he, h⟩ => ?_, fun ⟨v, h⟩ => ⟨_, h, rfl⟩⟩
    cases e <;> simp [isOutTaps] at h
    exact ⟨_, he⟩
  have e3 : ∀ e : SatEntry, isSingle e = true ↔ e = .single := by intro e; cases e <;> simp [isSingle]
  have e4 : (sats.any isSeed && sats.any isOutTaps) = false ↔
      ¬((∃ v, SatEntry.seed v ∈ sats) ∧ ∃ t, SatEntry.outTaps t ∈ sats) := by
    rw [← e1, ← e2, Bool.eq_false_iff, Ne, Bool.and_eq_true]
  cases g2 <;>
    simp only [descEntriesBad, Descriptor.entriesOk, Descriptor.entriesHaveG2, Bool.or_eq_false_iff, e4] <;>
    simp [e3, List.any_eq_false]
  exact fun _ => ⟨fun h hs => h _ hs rfl, fun h e he hs => h (hs ▸ he)⟩

/-- The checks are made in the order of rule R161. -/
theorem checkDescriptor_order (d : Descriptor) :
    (¬d.sizesOk → checkDescriptor d = some .size) ∧
    (d.sizesOk → ¬d.seedsOk → checkDescriptor d = some .seed) ∧
    (d.sizesOk → d.seedsOk →
      checkDescriptor d = if descTapBad d then some .tap else if descEntriesBad d then some .desc else none) := by
  rw [← descSizeBad_eq_false, ← descSeedBad_eq_false]
  unfold checkDescriptor
  cases descSizeBad d <;> cases descSeedBad d <;> simp

/-! ### The registers -/

/-- Bit k of a seed word is entry k of the seed (rule R162). -/
theorem getLsbD_seedWord (v : List Bool) {k : Nat} (hk : k < 32) : (seedWord v).getLsbD k = v[k]?.getD false := by
  induction v generalizing k with
  | nil => simp [seedWord]
  | cons b bs ih =>
    rw [seedWord, BitVec.getLsbD_or, BitVec.getLsbD_shiftLeft, getLsbD_bitWord]
    cases k with
    | zero => simp
    | succ k => simp [hk, ih (by omega : k < 32)]

/-- Bit k of a tap mask says whether stage k+1 is named (rule R162). -/
theorem getLsbD_tapMask {n : Nat} {l : List Int} (hl : ∀ t ∈ l, tapIn n t) {k : Nat} (hk : k < 32) :
    (tapMask l).getLsbD k = decide ((k : Int) + 1 ∈ l) := by
  induction l with
  | nil => simp [tapMask]
  | cons t l ih =>
    have ht := (hl t (by simp)).1
    rw [tapMask, BitVec.getLsbD_or, ih (fun t h => hl t (by simp [h])), BitVec.getLsbD_shiftLeft, BitVec.getLsbD_one]
    rw [Bool.eq_iff_iff]
    simp only [List.mem_cons, Bool.or_eq_true, Bool.and_eq_true, decide_eq_true_eq, Bool.not_eq_true',
      decide_eq_false_iff_not]
    refine or_congr_left ?_
    omega

/-- The parity of a state masked with a tap mask is the XOR of the stages named. -/
theorem oddOnes_tapMask {n : Nat} {l : List Int} (hl : ∀ t ∈ l, tapIn n t) (x : Word) :
    oddOnes (x &&& tapMask l) = tapXor l x := by
  unfold oddOnes tapXor
  congr 2
  refine List.countP_congr (fun k hk => ?_)
  rw [BitVec.getLsbD_and, getLsbD_tapMask hl (by simpa using hk), Bool.and_comm]

/-- One run of a register from its seed gives its output sequence (rules R162 and R167). -/
theorem outputs_regStep {c : RegCfg} (hn : c.sizeOk) (ht : c.tapsOk) :
    c.outputs (fun i => (regStep c (stateAfter (regStep c) (regSeed c) i)).1) := by
  refine ⟨stateAfter (regStep c) (regSeed c), fun k hk => ?_, fun i => ⟨fun k hk => ?_, ?_⟩⟩
  · cases c with
    | fib n seed fb out => exact getLsbD_seedWord seed hk
    | gal n seed mask => rfl
  · rw [stateAfter]
    generalize stateAfter _ _ i = x
    cases c with
    | fib n seed fb out =>
      simp only [regStep, fibStep_state_getLsbD hn.2 _ _ _ _ _ hk, oddOnes_tapMask ht.1]
      split
      · have h1 : 1 ≤ n := hn.1
        simp [show k < n by omega]
      · rfl
    | gal n seed mask => exact galStep_state_getLsbD mask x k
  · show (regStep c (stateAfter _ _ i)).1 = _
    generalize stateAfter _ _ i = x
    cases c with
    | fib n seed fb out =>
      cases out with
      | none => rfl
      | some l =>
        show parity (x &&& tapMask l) = tapXor l x
        rw [parity_eq_oddOnes, oddOnes_tapMask (ht.2 l rfl)]
    | gal n seed mask => rfl

end Sys2Proof.Machine
end

