-- ==== Sys2Proof/Laws/Step.lean ====
section
/-! SUPPORT. What the port and a step can do, said once: the inversion lemmas that later proofs cite. -/

namespace Sys2Proof.Machine

/-! ### The port -/

/-- Reading back the offset of a register finds it. -/
@[simp] theorem regAt_regOffset (r : Reg) : regAt (regOffset r) = some r := by cases r <;> rfl

/-- A register's offset is a multiple of 4 in the register window. -/
theorem regOffset_range (r : Reg) : regOffset r < 256 ∧ regOffset r % 4 = 0 := by cases r <;> decide

/-- Every word offset of the window from 0x78 on is reserved. -/
theorem regAt_reserved {o : Nat} (h : o = 0x4C ∨ 0x78 ≤ o) : regAt o = none := by
  refine List.find?_eq_none.2 (fun r _ => ?_)
  have : regOffset r ≠ 0x4C ∧ regOffset r < 0x78 := by cases r <;> decide
  simp only [beq_iff_eq]
  omega

/-- The register at an offset has that offset. -/
theorem regOffset_of_regAt {o : Nat} {r : Reg} (h : regAt o = some r) : regOffset r = o := by
  simpa using List.find?_some h

theorem inMemWindow_iff (n : Nat) (a : Access) :
    inMemWindow n a = true ↔ 0x01000000 ≤ a.offset ∧ a.offset < 0x01000000 + n := by
  rw [inMemWindow, Bool.and_eq_true, decide_eq_true_iff, decide_eq_true_iff]
  exact Iff.rfl

/-- An access below the MEM window never stalls. -/
theorem stalled_register {s : State} {a : Access} (h : a.offset < 256) : stalled s a = false := by
  have : inMemWindow s.params.memSize a = false := by
    rw [Bool.eq_false_iff, Ne, inMemWindow_iff]
    omega
  simp [stalled, this]

/-- What the port takes: an aligned register access, or a MEM access of width 1, 2 or 4, aligned and within MEM. -/
theorem portCheck_ok {n : Nat} {a : Access} {t : Target} (h : portCheck n a = .ok t) :
    (t = .register a.offset ∧ a.offset < 256 ∧ a.width = 4 ∧ a.offset % 4 = 0) ∨
      ∃ m, t = .memory m ∧ a.offset = 0x01000000 + m ∧ (a.width = 1 ∨ a.width = 2 ∨ a.width = 4) ∧ m % a.width = 0 ∧
        m + a.width ≤ n := by
  unfold portCheck at h
  split at h
  · split at h <;> cases h
    exact .inl ⟨rfl, by assumption, by omega, by omega⟩
  · split at h
    · next hw =>
      rw [inMemWindow_iff] at hw
      split at h
      · cases h
      split at h
      · cases h
      split at h <;> cases h
      refine .inr ⟨_, rfl, ?_, ?_, ?_, ?_⟩
      · unfold memBase; omega
      · omega
      · omega
      · omega
    · cases h

/-- An aligned word access of the register window is taken. -/
theorem portCheck_register (n : Nat) {a : Access} (h1 : a.offset < 256) (h2 : a.width = 4) (h3 : a.offset % 4 = 0) :
    portCheck n a = .ok (.register a.offset) := by
  simp [portCheck, h1, h2, h3]

/-- An aligned MEM access of width 1, 2 or 4 within MEM is taken. -/
theorem portCheck_memory {n m : Nat} {a : Access} (h1 : a.offset = 0x01000000 + m)
    (h2 : a.width = 1 ∨ a.width = 2 ∨ a.width = 4) (h3 : m % a.width = 0) (h4 : m + a.width ≤ n) :
    portCheck n a = .ok (.memory m) := by
  have hw : inMemWindow n a = true := by
    rw [inMemWindow_iff]
    omega
  have hm : a.offset - memBase = m := by unfold memBase; omega
  unfold portCheck
  rw [if_neg (by omega), if_pos hw, if_neg (not_not.2 h2), hm, if_neg (not_not.2 h3), if_neg (by omega)]

/-- What the port refuses. -/
theorem portCheck_error {n : Nat} {a : Access} {e : BusError} (h : portCheck n a = .error e) :
    (a.offset < 256 ∧ ¬(a.width = 4 ∧ a.offset % 4 = 0)) ∨
      (0x01000000 ≤ a.offset ∧ a.offset < 0x01000000 + n ∧
        (¬(a.width = 1 ∨ a.width = 2 ∨ a.width = 4) ∨ (a.offset - 0x01000000) % a.width ≠ 0 ∨
          n < a.offset - 0x01000000 + a.width)) ∨
      (256 ≤ a.offset ∧ a.offset < 0x01000000) ∨ 0x01000000 + n ≤ a.offset := by
  unfold portCheck at h
  split at h
  · next h1 =>
    split at h
    · cases h
    · next h2 => exact .inl ⟨h1, h2⟩
  · next h1 =>
    split at h
    · next hw =>
      rw [inMemWindow_iff] at hw
      refine .inr (.inl ⟨hw.1, hw.2, ?_⟩)
      split at h
      · next h2 => exact .inl h2
      split at h
      · next h2 => exact .inr (.inl h2)
      split at h
      · next h2 => exact .inr (.inr h2)
      · cases h
    · next hw =>
      rw [inMemWindow_iff] at hw
      exact .inr (.inr (by omega))

/-! ### A register write -/

/-- What a write of the register window changes outside the registers it may reset: never MEM, the parameters, the
draws, the inputs or the responses. -/
theorem State.writeReg_keeps (s : State) (r : Reg) (v : Word) :
    (s.writeReg r v).mem = s.mem ∧ (s.writeReg r v).params = s.params ∧ (s.writeReg r v).draws = s.draws ∧
      (s.writeReg r v).inputs = s.inputs ∧ (s.writeReg r v).responses = s.responses := by
  cases r with
  | ctrl =>
    simp only [State.writeReg, State.writeCtrl]
    split
    · exact ⟨rfl, rfl, rfl, rfl, rfl⟩
    · split <;> exact ⟨rfl, rfl, rfl, rfl, rfl⟩
  | cmd =>
    simp only [State.writeReg, State.writeCmd]
    split <;> exact ⟨rfl, rfl, rfl, rfl, rfl⟩
  | _ => exact ⟨rfl, rfl, rfl, rfl, rfl⟩

/-- The ways a write of the register window can act on the engine and STATUS: a soft reset, a clear, an overrun, an
acceptance, or neither changes. -/
theorem State.writeWindow_cases (s : State) (o : Nat) (v : Word) :
    s.writeWindow o v = s.softReset ∨
    s.writeWindow o v = { s with status := s.status.cleared } ∨
    (s.engine.busy = true ∧ s.writeWindow o v = s.overrun) ∨
    (s.engine.busy = false ∧ s.writeWindow o v = s.accept v) ∨
    (∃ args u0 u1 p, s.writeWindow o v = { s with args := args, u0 := u0, u1 := u1, cvpoly := p }) := by
  have stay : ∃ args u0 u1 p, s = { s with args := args, u0 := u0, u1 := u1, cvpoly := p } :=
    ⟨s.args, s.u0, s.u1, s.cvpoly, rfl⟩
  unfold State.writeWindow
  cases hr : regAt o with
  | none => exact .inr (.inr (.inr (.inr stay)))
  | some r =>
    cases r with
    | ctrl =>
      simp only [State.writeReg, State.writeCtrl]
      split
      · exact .inl rfl
      · split
        · exact .inr (.inl rfl)
        · exact .inr (.inr (.inr (.inr stay)))
    | cmd =>
      simp only [State.writeReg, State.writeCmd]
      cases hb : s.engine.busy
      · exact .inr (.inr (.inr (.inl ⟨rfl, rfl⟩)))
      · exact .inr (.inr (.inl ⟨rfl, rfl⟩))
    | id | status | res0 | res1 | res2 | res3 | memsize | nsig | ndual | cvcap =>
      exact .inr (.inr (.inr (.inr stay)))
    | _ => exact .inr (.inr (.inr (.inr ⟨_, _, _, _, rfl⟩)))

/-! ### The step -/

/-- What the engine's turn does. -/
theorem engineStep_cases {s t : State} (h : engineStep s = .next t) :
    (s.engine = .idle ∧ t = s) ∨
    (∃ w sn i, s.engine = .running w sn ∧ decode w = .ok i ∧ exec i s = .next t) ∨
    (∃ w sn e, s.engine = .running w sn ∧ decode w = .error e ∧ t = s.doneErr 1#8) := by
  unfold engineStep at h
  split at h
  · next he => injection h with h; exact .inl ⟨he, h.symm⟩
  · next w sn he =>
    split at h
    · next i hi => exact .inr (.inl ⟨w, sn, i, he, hi, h⟩)
    · next e hd => injection h with h; exact .inr (.inr ⟨w, sn, e, he, hd, h.symm⟩)

/-- The engine's turn never stops the machine. -/
theorem engineStep_next (s : State) : ∃ t, engineStep s = .next t := by
  unfold engineStep
  split
  · exact ⟨_, rfl⟩
  · split
    · exact ⟨_, exec_eq _ _⟩
    · exact ⟨_, rfl⟩

/-- After the engine's turn the engine is idle. -/
theorem engineStep_idle {s t : State} (h : engineStep s = .next t) : t.engine = .idle := by
  rcases engineStep_cases h with ⟨he, rfl⟩ | ⟨w, sn, i, _, _, hx⟩ | ⟨w, sn, e, _, _, rfl⟩
  · exact he
  · rcases exec_cases hx with ⟨w, d, _, rfl⟩ | ⟨e, d, _, rfl⟩ <;> rfl
  · rfl

/-- The five ways a step goes: the engine's turn, with or without an input spent on it; a hardware reset; an access the
port takes; an access it refuses, whose fault is recorded. -/
theorem step_cases {s t : State} (h : step s = .next t) :
    (engineStep s = .next t ∧ (s.inputs = [] ∨ ∃ a rest, s.inputs = .access a :: rest ∧ stalled s a = true)) ∨
    (∃ rest, s.inputs = .engineTurn :: rest ∧ engineStep { s with inputs := rest } = .next t) ∨
    (∃ rest, s.inputs = .hardwareReset :: rest ∧ t = { s with inputs := rest }.hardReset) ∨
    (∃ a rest tg, s.inputs = .access a :: rest ∧ stalled s a = false ∧ portCheck s.params.memSize a = .ok tg ∧
      t = { s with inputs := rest }.perform tg a) ∨
    (∃ a rest e, s.inputs = .access a :: rest ∧ stalled s a = false ∧ portCheck s.params.memSize a = .error e ∧
      t = { s with inputs := rest, responses := .fault (.busError e a) :: s.responses }) := by
  unfold step takeStep at h
  split at h
  · next hi => exact .inl ⟨h, .inl hi⟩
  · next rest hi => exact .inr (.inl ⟨rest, hi, h⟩)
  · next rest hi => injection h with h; exact .inr (.inr (.inl ⟨rest, hi, h.symm⟩))
  · next a rest hi =>
    split at h
    · next hs => exact .inl ⟨h, .inr ⟨a, rest, hi, hs⟩⟩
    · next hs =>
      injection h with h
      unfold hostAccess at h
      split at h
      · next tg hp => exact .inr (.inr (.inr (.inl ⟨a, rest, tg, hi, by simpa using hs, hp, h.symm⟩)))
      · next e hp => exact .inr (.inr (.inr (.inr ⟨a, rest, e, hi, by simpa using hs, hp, h.symm⟩)))

/-- The step on an access the port refuses and that does not stall: the fault is recorded. -/
theorem step_refused {s : State} {a : Access} {rest : List Input} {e : BusError} (hi : s.inputs = .access a :: rest)
    (hs : stalled s a = false) (hp : portCheck s.params.memSize a = .error e) :
    step s = .next { s with inputs := rest, responses := .fault (.busError e a) :: s.responses } := by
  simp [step, takeStep, hi, hs, hostAccess, hp, State.respond]

/-- The step on a register-window access the port takes, at any time. -/
theorem step_register {s : State} {a : Access} {rest : List Input} (hi : s.inputs = .access a :: rest)
    (h1 : a.offset < 256) (h2 : a.width = 4) (h3 : a.offset % 4 = 0) :
    step s = .next ({ s with inputs := rest }.perform (.register a.offset) a) := by
  have hs : stalled s a = false := stalled_register h1
  simp [step, takeStep, hi, hs, hostAccess, portCheck_register _ h1 h2 h3]

/-- The step on a write of a register. -/
theorem step_write {s : State} {r : Reg} {v : Word} {rest : List Input}
    (hi : s.inputs = .access (.write (regOffset r) 4 v) :: rest) :
    step s = .next (({ s with inputs := rest }.writeReg r v).respond .written) := by
  rw [step_register hi (regOffset_range r).1 rfl (regOffset_range r).2]
  simp [State.perform, Access.offset, State.writeWindow]

/-- The step on a MEM-window access the port takes, while idle. -/
theorem step_memory {s : State} {a : Access} {m : Nat} {rest : List Input} (he : s.engine = .idle)
    (hi : s.inputs = .access a :: rest) (h1 : a.offset = 0x01000000 + m)
    (h2 : a.width = 1 ∨ a.width = 2 ∨ a.width = 4) (h3 : m % a.width = 0) (h4 : m + a.width ≤ s.params.memSize) :
    step s = .next ({ s with inputs := rest }.perform (.memory m) a) := by
  simp [step, takeStep, hi, stalled, he, hostAccess, portCheck_memory h1 h2 h3 h4]

/-- The engine's turn while it runs a legal word: the command completes. -/
theorem engineStep_running {s : State} {w : Word} {sn : Snapshot} {i : Instr} (he : s.engine = .running w sn)
    (hd : decode w = .ok i) : engineStep s = .next (s.completeDrawing (commandResult i s)) := by
  unfold engineStep
  rw [he]
  simp only [hd]
  exact exec_eq i s

/-- The engine's turn while it runs an illegal word: E_OPCODE. -/
theorem engineStep_illegal {s : State} {w : Word} {sn : Snapshot} {e : DecodeReject} (he : s.engine = .running w sn)
    (hd : decode w = .error e) : engineStep s = .next (s.doneErr 1#8) := by
  unfold engineStep
  rw [he]
  simp only [hd]
  rfl

/-- The step on the engine's turn. -/
theorem step_engineTurn {s : State} {rest : List Input} (hi : s.inputs = .engineTurn :: rest) :
    step s = engineStep { s with inputs := rest } := by
  simp [step, takeStep, hi]

/-! ### Several steps -/

/-- A run goes on from the next state, for any machine. -/
theorem run_next {M : Host.Core} {s t : M.State} (h : M.step s = .next t) (k : Nat) : M.run (k + 1) s = M.run k t := by
  rw [Host.Core.run.eq_def]
  simp only [h]

/-- No step leaves the state as it is. -/
theorem core_run_zero (s : State) : core.run 0 s = .next s := rfl

/-- A run of the block goes on from the next state. -/
theorem core_run_next {s t : State} (h : step s = .next t) (k : Nat) : core.run (k + 1) s = core.run k t :=
  run_next (M := core) h k

end Sys2Proof.Machine
end

