-- ==== Sys2Proof/Tests/Slice0.lean ====
section
/-! SUPPORT. The model's own tests: expected values from spec/95_test_vectors.md (each theorem names its vector), the
decoding of every command's word written out bit by bit, the ill-formed words, and a witness for the hypotheses of every
statement that has some. The ROM contents are the example contents of 95_test_vectors.md, not the hardware's. -/

namespace Sys2Proof.Tests

open Sys2Proof Sys2Proof.Machine

/-! ### The example ROM of 95_test_vectors.md -/

/-- TOY of 95_test_vectors.md section 3.2. -/
def toy (sats : List SatEntry) : Descriptor where
  len := 15
  g1 := .fib 4 [true, true, true, true] [3, 4] none
  g1Segments := [10, 5]
  g2 := some ⟨4, [1, 4], [true, true, true, true]⟩
  sats := sats

/-- T_j as a mask: position p is in it exactly when bit j−1 of p is 1. -/
def exampleTable (j : Nat) : BitVec 77 :=
  BitVec.ofNat 77 ((List.range 77).foldl (fun acc k => if (k + 9).testBit (j - 1) then acc + 2 ^ k else acc) 0)

/-- `DUAL_PATSETS[0][j]`: 10·j + t. -/
def examplePattern (j : Nat) : Vector Byte 12 := Vector.ofFn (fun t => BitVec.ofNat 8 (10 * j + t.val))

/-- The example ROM: SIGNALS = [L1OF, sT1, sT2], MEM_SIZE = 2^16. -/
def exampleParams : Params where
  memLog := 0
  signals :=
    [.l1of [511], .other (toy [.outTaps [1, 3], .outTaps [2, 4]]),
     .other (toy [.seed [true, false, false, false], .seed [false, false, false, true]])]
  hamTables := #v[exampleTable 1, exampleTable 2, exampleTable 3, exampleTable 4, exampleTable 5, exampleTable 6,
    exampleTable 7]
  dualFirst := #v[examplePattern 0, examplePattern 1, examplePattern 2, examplePattern 3]
  dualRest := []
  altStates := Vector.ofFn (fun k => ⟨BitVec.ofNat 8 k.val, -BitVec.ofNat 8 k.val⟩)
  altPhase := Vector.ofFn (fun q => Vector.ofFn (fun t => Fin.ofNat 9 (q.val + t.val)))

/-- The state after hardware reset, with the example ROM. -/
def fresh : State := { State.reset with params := exampleParams }

/-- `fresh` with argument registers. -/
def withArgs (a0 a1 a2 a3 a4 : Word) : State := { fresh with args := ⟨a0, a1, a2, a3, a4, 0#32, 0#32, 0#32⟩ }

/-- `fresh` with unit U0 of size `n`. -/
def withU0 (n : Nat) (oten : Bool) (state fb ot : Word) : State := { fresh with u0 := ⟨⟨BitVec.ofNat 6 n, oten⟩, state, fb, ot⟩ }

/-- The state after the command word `w` has run from `s`: its acceptance and one step. -/
def after (w : Nat) (s : State) : Option State :=
  match step (s.withFetchWord 32 w) with
  | .next t => some t
  | _ => none

/-- The bytes of MEM from an address on. -/
def bytesAt (s : State) (a n : Nat) : List (Option Byte) := (List.range n).map (fun k => s.mem.peek (a + k))

/-- Bytes written with numerals. -/
def defined (l : List Nat) : List (Option Byte) := l.map (fun b => some (BitVec.ofNat 8 b))

/-- MEM with bytes at an address. -/
def memOf (a : Nat) (l : List Nat) : Memory := Memory.pokes [] a (l.map (BitVec.ofNat 8))

/-- The state after one step, with inputs. -/
def stepped (s : State) (l : List Input) : Option State :=
  match step { s with inputs := l } with
  | .next t => some t
  | _ => none

/-! ### Decoding: every command's word, from the fields of 30_encoding.md rules R90 and R92 -/

theorem test_decode_nop : decode 0b00000000000000000000000_0_00000000#32 = .ok .nop := rfl
theorem test_decode_lfsr_fib_step : decode 0b00000000000000000000000_0_00000001#32 = .ok (.lfsrFibStep .u0) := rfl
theorem test_decode_lfsr_fib_step_u1 : decode 0b00000000000000000000000_1_00000001#32 = .ok (.lfsrFibStep .u1) := rfl
theorem test_decode_lfsr_fib_gen : decode 0b00000000000000000000000_0_00000010#32 = .ok (.lfsrFibGen .u0) := rfl
theorem test_decode_lfsr_gal_step_u1 : decode 0b00000000000000000000000_1_00000011#32 = .ok (.lfsrGalStep .u1) := rfl
theorem test_decode_lfsr_gal_gen : decode 0b00000000000000000000000_0_00000100#32 = .ok (.lfsrGalGen .u0) := rfl
theorem test_decode_rcg_info : decode 0b00000000000000000000000_0_00010000#32 = .ok .rcgInfo := rfl
theorem test_decode_rcg_build : decode 0b00000000000000000000000_0_00010001#32 = .ok .rcgBuild := rfl
theorem test_decode_bch_parity : decode 0b00000000000000000000000_0_00100000#32 = .ok .bchParity := rfl
theorem test_decode_bch_encode : decode 0b00000000000000000000000_0_00100001#32 = .ok .bchEncode := rfl
theorem test_decode_bch_encode_il : decode 0b00000000000000000000000_0_00100010#32 = .ok .bchEncodeIl := rfl
theorem test_decode_ham_check : decode 0b00000000000000000000000_0_00101000#32 = .ok .hamCheck := rfl
theorem test_decode_conv_encode : decode 0b00000000000000000000000_0_00110000#32 = .ok .convEncode := rfl
theorem test_decode_conv_release : decode 0b00000000000000000000000_0_00110001#32 = .ok .convRelease := rfl
theorem test_decode_mux_dual : decode 0b00000000000000000000000_0_01000000#32 = .ok .muxDual := rfl
theorem test_decode_mux_altboc : decode 0b00000000000000000000000_0_01000001#32 = .ok .muxAltboc := rfl
theorem test_decode_alt_modidx : decode 0b00000000000000000000000_0_01000010#32 = .ok .altModidx := rfl
theorem test_decode_alt_segment : decode 0b00000000000000000000000_0_01000011#32 = .ok .altSegment := rfl

/-! ### Ill-formed words, one per check of WellFormed (30_encoding.md rule R91) -/

theorem test_illformed_opcode :
    opcodeKnown 0x05#32 = false ∧ wordLegal 0x05#32 = false ∧ decode 0x05#32 = .error .unknownOpcode := by decide
theorem test_illformed_reserved :
    reservedBitsZero 0x200#32 = false ∧ wordLegal 0x200#32 = false ∧ decode 0x200#32 = .error .reservedBitsSet := by
  decide
theorem test_illformed_unit :
    unitFieldAllowed 0x120#32 = false ∧ wordLegal 0x120#32 = false ∧ decode 0x120#32 = .error .unitOnUnitlessCommand := by
  decide
theorem test_wellformed_unit : wordLegal 0x101#32 = true ∧ wordLegal 0x43#32 = true := by decide

/-! ### One step per command, against the vectors of 95_test_vectors.md -/

/-- V-CTL-1. -/
theorem test_nop :
    (after 0x00 { fresh with status := ⟨true, true, false, 5#8⟩ }).map (fun t => t.readReg .status) = some 0x2#32 := by
  decide

/-- V-LFSR-1. -/
theorem test_fib_step :
    (after 0x01 (withU0 4 false 0x9#32 0xC#32 0#32)).map (fun t => (t.res.r0, t.u0.state)) = some (1#32, 0x3#32) := by decide

/-- V-LFSR-6: N = 32, and the top bit is shifted out. -/
theorem test_fib_step_wide :
    (after 0x01 (withU0 32 false 0x80000001#32 0x80200003#32 0#32)).map (fun t => (t.res.r0, t.u0.state)) =
      some (1#32, 0x2#32) := by decide

/-- Section 2.2: the first 16 bytes of the L1OF register. -/
theorem test_fib_gen :
    (after 0x02 { withU0 9 true 0x1FF#32 0x110#32 0x040#32 with args := ⟨0x100#32, 16#32, 0, 0, 0, 0, 0, 0⟩ }).map
      (fun t => (t.res.r0, bytesAt t 0xFF 18)) =
      some (16#32, [none] ++ defined [1, 1, 1, 1, 1, 1, 1, 0, 0, 0, 0, 0, 1, 1, 1, 1] ++ [none]) := by decide +kernel

/-- V-LFSR-20: E_RANGE, and nothing is committed. -/
theorem test_fib_gen_range :
    (after 0x02 { withU0 4 false 0x1#32 0xC#32 0#32 with args := ⟨0xFFFE#32, 3#32, 0, 0, 0, 0, 0, 0⟩ }).map
      (fun t => (t.readReg .status, t.u0.state, t.mem)) = some (0x906#32, 0x1#32, []) := by decide

/-- V-LFSR-3, on unit U1. -/
theorem test_gal_step :
    (after 0x103 { fresh with u1 := ⟨⟨4, true⟩, 0x1#32, 0xC#32, 0xFFFFFFFF#32⟩ }).map
      (fun t => (t.res.r0, t.u1.state, t.u0.state)) = some (1#32, 0xC#32, 0#32) := by decide

/-- V-LFSR-19: E_TAP. -/
theorem test_gal_step_tap :
    (after 0x03 (withU0 4 false 0x1#32 0x10#32 0#32)).map (fun t => t.readReg .status) = some 0x506#32 := by decide

/-- V-LFSR-10. -/
theorem test_gal_gen :
    (after 0x04 { withU0 4 false 0x1#32 0xC#32 0#32 with args := ⟨0x20#32, 15#32, 0, 0, 0, 0, 0, 0⟩ }).map
      (fun t => (t.u0.state, bytesAt t 0x20 16)) =
      some (1#32, defined [1, 0, 0, 1, 1, 0, 1, 0, 1, 1, 1, 1, 0, 0, 0] ++ [none]) := by decide

/-- V-RCG-1. -/
theorem test_rcg_info : (after 0x10 (withArgs 0 0 0 0 0)).map (fun t => t.res) = some ⟨1#32, 511#32, 9#32, 0#32⟩ := by decide

/-- V-RCG-10. -/
theorem test_rcg_info_index : (after 0x10 (withArgs 3 0 0 0 0)).map (fun t => t.readReg .status) = some 0x206#32 := by decide

/-- V-RCG-3, V-RCG-4 and V-RCG-7: the whole table of sT1. -/
theorem test_rcg_build_taps :
    (after 0x11 (withArgs 1 0x400 0 0 0)).map (fun t => (t.res.r2, bytesAt t 0x400 61)) =
      some (60#32, defined
        ([1, 255, 1, 1, 255, 1, 1, 255, 1, 255, 255, 1, 1, 255, 255] ++
          [255, 1, 255, 255, 1, 255, 255, 1, 255, 1, 1, 255, 255, 1, 1] ++
          [1, 1, 255, 1, 255, 255, 1, 255, 1, 1, 1, 255, 255, 255, 1] ++
          [255, 255, 1, 255, 1, 1, 255, 1, 255, 255, 255, 1, 1, 1, 255]) ++ [none]) := by decide +kernel

/-- V-RCG-6: satellite 1 of sT2, seeded. -/
theorem test_rcg_build_seed :
    (after 0x11 (withArgs 2 0 0 0 0)).map (fun t => (t.res.r0, bytesAt t 30 15)) =
      some (2#32, defined [255, 1, 1, 1, 1, 1, 1, 255, 255, 1, 1, 255, 1, 1, 255]) := by decide +kernel

/-- V-BCH-8. -/
theorem test_bch_parity : (after 0x20 (withArgs 0x123 0 0 0 0)).map (fun t => t.res.r0) = some 0x4#32 := by decide

/-- V-BCH-16: E_BITVAL. -/
theorem test_bch_parity_bitval : (after 0x20 (withArgs 0x800 0 0 0 0)).map (fun t => t.readReg .status) = some 0xA06#32 := by
  decide

/-- V-BCH-6. -/
theorem test_bch_encode : (after 0x21 (withArgs 0x555 0 0 0 0)).map (fun t => t.res.r0) = some 0x6D55#32 := by decide

/-- V-BCH-15. -/
theorem test_bch_encode_il :
    (after 0x22 (withArgs 0x2AB3C5 0 0 0 0)).map (fun t => t.res.r0) = some 0x2EA77239#32 := by decide

/-- V-HAM-6. -/
theorem test_ham_check :
    (after 0x28 (withArgs 0x12345678 0x9ABCDEF0 0xABC 0 0)).map (fun t => t.res.r0) = some 0x92#32 := by decide +kernel

/-- V-HAM-4: the top message bit. -/
theorem test_ham_check_top : (after 0x28 (withArgs 0 0 0x1000 0 0)).map (fun t => t.res.r0) = some 0xD5#32 := by decide +kernel

/-- V-CONV-4. -/
theorem test_conv_encode :
    (after 0x30 { withArgs 0 8 0x40 3 0x15 with
        cvpoly := polyOfWord 0x5B79#32, mem := memOf 0 [1, 0, 1, 1, 0, 0, 1, 0] }).map
      (fun t => (t.res.r0, t.res.r1, t.readReg .cvcap, bytesAt t 0x40 16)) =
      some (0x32#32, 16#32, 0x8000001B#32, defined [1, 1, 0, 1, 1, 0, 0, 1, 0, 0, 1, 0, 0, 0, 0, 0]) := by decide

/-- V-CONV-8: an input byte 0x02 is E_BITVAL, and CVCAP is unchanged (V-CTL-15). -/
theorem test_conv_encode_bitval :
    (after 0x30 { withArgs 0 2 0x40 1 0 with cvcap := ⟨true, 0x1B⟩, mem := memOf 0 [1, 2] }).map
      (fun t => (t.readReg .status, t.readReg .cvcap)) = some (0xA06#32, 0x8000001B#32) := by decide

/-- V-CONV-9. -/
theorem test_conv_release :
    (after 0x31 { fresh with cvcap := ⟨true, 0x1B⟩ }).map (fun t => (t.readReg .cvcap, t.readReg .status)) =
      some (0#32, 0x2#32) := by decide

/-- V-MUX-1, with srcA as the signed code of V-MUX-2. -/
theorem test_mux_dual :
    (after 0x40 { withArgs 0 0x10 0x20 4 0x40 with
        mem := Memory.pokes (memOf 0x10 [1, 255, 1, 1]) 0x20 [0, 0, 1, 0] }).map (fun t => (t.res.r0, bytesAt t 0x40 26)) =
      some (48#32, defined ([20, 21, 22, 23, 24, 25, 26, 27, 28, 29, 30, 31] ++ [0, 1, 2, 3, 4, 5, 6, 7, 8, 9, 10, 11] ++
        [30, 31])) := by decide

/-- V-MUX-3: L = 0, and a pattern set out of range. -/
theorem test_mux_dual_corners :
    (after 0x40 (withArgs 0 0 0 0 0)).map (fun t => (t.res.r0, t.mem)) = some (0#32, []) ∧
      (after 0x40 (withArgs 1 0 0 0 0)).map (fun t => t.readReg .status) = some 0x206#32 := by decide

/-- The four codes of V-ALT-8 to V-ALT-10. -/
def altCodes : Memory :=
  Memory.pokes (Memory.pokes (Memory.pokes (memOf 0 [1, 0, 1, 1]) 4 [0, 1, 1, 0]) 8 [0, 0, 1, 1]) 12 [1, 1, 0, 0]

/-- V-ALT-9: combination m = 10. -/
theorem test_mux_altboc :
    (after 0x41 { fresh with args := ⟨0, 4, 8, 12, 4, 0x100, 0x140, 10⟩, mem := altCodes }).map
      (fun t => (t.res.r0, bytesAt t 0x100 24, bytesAt t 0x12C 5, bytesAt t 0x140 8)) =
      some (48#32, defined [3, 4, 5, 6, 7, 8, 0, 1, 3, 4, 5, 6, 1, 2, 3, 4, 6, 7, 8, 0, 1, 2, 3, 4],
        defined [4, 5, 6, 7] ++ [none], defined [0xFD, 0xFC, 0xFB, 0xFA, 0xF9, 0xF8, 0x00, 0xFF]) := by decide

/-- V-ALT-11: E_INDEX before E_ODDLEN, and E_ODDLEN. -/
theorem test_mux_altboc_errors :
    (after 0x41 { fresh with args := ⟨0, 0, 0, 0, 3, 0, 0, 16⟩ }).map (fun t => t.readReg .status) = some 0x206#32 ∧
      (after 0x41 { fresh with args := ⟨0, 0, 0, 0, 3, 0, 0, 0⟩ }).map (fun t => t.readReg .status) = some 0x706#32 := by
  decide

/-- V-ALT-1 and V-ALT-6. -/
theorem test_alt_modidx :
    (after 0x42 (withArgs 1 0 1 0 0)).map (fun t => t.res.r0) = some 10#32 ∧
      (after 0x42 (withArgs 2 0 0 0 0)).map (fun t => t.readReg .status) = some 0xA06#32 := by decide

/-- V-ALT-3. -/
theorem test_alt_segment :
    (after 0x43 (withArgs 0x35 0x10 0x40 0 0)).map (fun t => (bytesAt t 0x10 25, bytesAt t 0x40 8)) =
      some (defined [3, 4, 5, 6, 7, 8, 0, 1, 3, 4, 5, 6, 0, 1, 2, 3, 5, 6, 7, 8, 0, 1, 2, 3] ++ [none],
        defined [0xFD, 0xFC, 0xFB, 0xFA, 0xF9, 0xF8, 0x00, 0xFF]) := by decide

/-- Rule R245: where the regions overlap, Q stands (log 8). -/
theorem test_alt_segment_overlap :
    (after 0x43 (withArgs 0x35 0x10 0x11 0 0)).map (fun t => bytesAt t 0x10 3) = some (defined [3, 0xFD, 0xFC]) := by decide

/-! ### Command control, the port and reset -/

/-- V-CTL-2. -/
theorem test_illegal_word :
    (after 0x05 fresh).map (fun t => (t.readReg .status, t.readReg .cmd)) = some (0x106#32, 0x5#32) := by decide

/-- V-CTL-5: a CMD write while BUSY. -/
theorem test_overrun :
    (stepped (fresh.accept 0x20#32) [.access (.write 0x0C 4 0#32)]).map (fun t => (t.readReg .status, t.readReg .cmd)) =
      some (0x9#32, 0x20#32) := by decide

/-- V-CTL-6: CLR while a command runs. -/
theorem test_clr_while_busy :
    (stepped (fresh.accept 0x20#32).overrun [.access (.write 0x04 4 2#32)]).map (fun t => t.readReg .status) =
      some 0x1#32 := by decide

/-- V-CTL-8: SRST while a command runs keeps MEM. -/
theorem test_srst :
    (stepped { fresh.accept 0x11#32 with mem := memOf 0x20 [0x5A] } [.access (.write 0x04 4 1#32)]).map
      (fun t => (t.readReg .status, t.readReg .cmd, bytesAt t 0x20 1)) = some (0#32, 0#32, defined [0x5A]) := by decide

/-- V-CTL-10: a reserved offset. -/
theorem test_reserved_offset :
    (stepped fresh [.access (.write 0x4C 4 0x12345678#32)]).map (fun t => t.readWindow 0x4C) = some 0#32 := by decide

/-- V-CTL-11: little-endian bytes. -/
theorem test_mem_word :
    (stepped fresh [.access (.write 0x01000010 4 0x11223344#32)]).map (fun t => bytesAt t 0x10 4) =
      some (defined [0x44, 0x33, 0x22, 0x11]) ∧
    (stepped { fresh with mem := memOf 0x10 [0x44, 0x33, 0x22, 0x11] } [.access (.read 0x01000012 2)]).map
      (fun t => t.responses) = some [.data 0x1122#32] := by decide

/-- V-CTL-12 and V-CTL-13: bus errors. -/
theorem test_bus_errors :
    portCheck exampleParams.memSize (.read 0x02 4) = .error .registerAccess ∧
    portCheck exampleParams.memSize (.read 0x08 2) = .error .registerAccess ∧
    portCheck exampleParams.memSize (.write 0x01000011 2 0#32) = .error .memAlignment ∧
    portCheck exampleParams.memSize (.read 0x01000012 4) = .error .memAlignment ∧
    portCheck exampleParams.memSize (.read 0x0100 4) = .error .noWindow ∧
    portCheck exampleParams.memSize (.read 0x01010000 1) = .error .noWindow ∧
    portCheck exampleParams.memSize (.read 0x0100FFFF 1) = .ok (.memory 0xFFFF) := by decide

/-- Rules R62 and R260: a refused access while a command runs is recorded and the command goes on. -/
theorem test_bus_error_while_busy :
    (stepped (fresh.accept 0x20#32) [.access (.read 0x08 2), .engineTurn]).bind
      (fun t => (stepped t t.inputs).map (fun u => (t.engine.busy, u.readReg .status, u.responses))) =
      some (true, 0x2#32, [.fault (.busError .registerAccess (.read 0x08 2))]) := by decide

/-- V-CTL-7: a MEM read waits for the running command. -/
theorem test_mem_stall :
    (stepped (fresh.accept 0x00#32) [.access (.read 0x01000000 1)]).map (fun t => (t.engine, t.responses, t.inputs)) =
      some (.idle, [], [.access (.read 0x01000000 1)]) := by decide

/-- MEM after reset is in canonical form. -/
theorem test_reset_memory : State.reset.mem.wf State.reset.params.memSize = true := rfl

/-! ### Witnesses: concrete states and operands that meet the hypotheses of each statement that has some

Each is named after its statement; where a statement has several clauses, one conjunct meets each of them, at a boundary
value of its range. -/

/-- `s` with inputs. -/
def waiting (s : State) (l : List Input) : State := { s with inputs := l }

/-- `fresh` running the command word `w`. -/
def busy (w : Word) (l : List Input) : State := waiting (fresh.accept w) l

/-- A unit that is legal in both forms, its top cell and its top taps in use. -/
def legalUnit : LfsrUnit := ⟨⟨4#6, true⟩, 0x9#32, 0xC#32, 0x8#32⟩

/-- `fresh` with unit U1 legal. -/
def withU1 (args : Args) : State := { fresh with u1 := legalUnit, args := args }

/-- A region in MEM. -/
theorem within {s : State} {a n : Nat} (h : n = 0 ∨ a + n ≤ s.params.memSize) : s.inMem a n := h

/-- A region not in MEM. -/
theorem outside {s : State} {a n : Nat} (h : ¬(n = 0 ∨ a + n ≤ s.params.memSize)) : ¬s.inMem a n := h

theorem legalUnit_legal (fib : Bool) : legalUnit.legalFor fib :=
  ⟨⟨by decide, by decide⟩, (legalUnit.fits_iff _).1 (by decide), (legalUnit.fits_iff _).1 (by decide),
    fun _ _ => (legalUnit.fits_iff _).1 (by decide)⟩

/-- One failing word per condition of R91, waiting to be written, and running with each turn of the engine: no input, its
own turn, and a stalled access at each end of the MEM window. -/
theorem witness_IllegalWordCompletesWithOpcodeError :
    (∀ w ∈ [0x05#32, 0x200#32, 0x120#32],
      ¬(w.toNat % 256 ∈ [0x00, 0x01, 0x02, 0x03, 0x04, 0x10, 0x11, 0x20, 0x21, 0x22, 0x28, 0x30, 0x31, 0x40, 0x41, 0x42,
            0x43] ∧
          w.toNat / 512 = 0 ∧
          (w.getLsbD 8 = false ∨ w.toNat % 256 = 1 ∨ w.toNat % 256 = 2 ∨ w.toNat % 256 = 3 ∨ w.toNat % 256 = 4))) ∧
    (∀ w : Word, (waiting fresh [.access (.write 0x0C 4 w)]).engine = .idle ∧
      (waiting fresh [.access (.write 0x0C 4 w)]).inputs = [.access (.write 0x0C 4 w)] ∧
      ∀ l, (busy w l).engine = .running w fresh.takeSnapshot ∧ (busy w l).inputs = l) ∧
    ∀ o ∈ [0x01000000, 0x0100FFFF],
      0x01000000 ≤ (Access.read o 1).offset ∧ (Access.read o 1).offset < 0x01000000 + fresh.params.memSize :=
  ⟨by simp, fun _ => ⟨rfl, rfl, fun _ => ⟨rfl, rfl⟩⟩, by decide⟩

/-- No input, the engine's turn, and a stalled access at each end of the MEM window. -/
theorem witness_StepRunsDecodedCommand :
    (busy 0x11#32 []).engine = .running 0x11#32 fresh.takeSnapshot ∧ decode 0x11#32 = .ok .rcgBuild ∧
    (busy 0x11#32 []).inputs = [] ∧ (busy 0x11#32 [.engineTurn]).inputs = [.engineTurn] ∧
    (∀ o ∈ [0x01000000, 0x0100FFFF],
      0x01000000 ≤ (Access.read o 1).offset ∧
        (Access.read o 1).offset < 0x01000000 + (busy 0x11#32 [.access (.read o 1)]).params.memSize ∧
        (busy 0x11#32 [.access (.read o 1)]).inputs = [.access (.read o 1)]) :=
  ⟨rfl, rfl, rfl, rfl, by decide⟩

theorem witness_IdleCommandWriteIsAccepted :
    (waiting fresh [.access (.write 0x0C 4 0x20#32)]).engine = .idle ∧
      (waiting fresh [.access (.write 0x0C 4 0x20#32)]).inputs = [.access (.write 0x0C 4 0x20#32)] := ⟨rfl, rfl⟩

theorem witness_BusyCommandWriteOverruns :
    (busy 0x20#32 [.access (.write 0x0C 4 0x00#32)]).engine = .running 0x20#32 fresh.takeSnapshot ∧
      (busy 0x20#32 [.access (.write 0x0C 4 0x00#32)]).inputs = [.access (.write 0x0C 4 0x00#32)] := ⟨rfl, rfl⟩

/-- LFSR_FIB_STEP on a unit of size 0 fails. -/
theorem witness_ErrorCommitsNothing :
    exec (.lfsrFibStep .u0) fresh = .next (fresh.doneErr 3#8) ∧ (fresh.doneErr 3#8).status.err = true := ⟨rfl, rfl⟩

theorem witness_CommandFrame : exec .nop fresh = .next fresh.doneOk ∧ exec .convRelease fresh = .next fresh.doneOk :=
  ⟨rfl, rfl⟩

/-- Both forms. -/
theorem witness_LfsrStepResult (fib : Bool) : ((withU1 Args.reset).snap.unit .u1).legalFor fib := legalUnit_legal fib

/-- Both forms, the region up to the last MEM byte. -/
theorem witness_LfsrGenResult (fib : Bool) :
    ((withU1 ⟨0xFFF1#32, 15#32, 0, 0, 0, 0, 0, 0⟩).snap.unit .u1).legalFor fib ∧
      (withU1 ⟨0xFFF1#32, 15#32, 0, 0, 0, 0, 0, 0⟩).snap.args.a0.toNat = 0xFFF1 ∧
      (withU1 ⟨0xFFF1#32, 15#32, 0, 0, 0, 0, 0, 0⟩).snap.args.a1.toNat = 15 ∧
      (withU1 ⟨0xFFF1#32, 15#32, 0, 0, 0, 0, 0, 0⟩).inMem 0xFFF1 15 :=
  ⟨legalUnit_legal fib, rfl, rfl, within (by decide)⟩

/-- Sizes 0 and 33; a state bit at N; a tap at N, a feedback one and, in the Fibonacci form, an output one; and a
region one byte too long. -/
theorem witness_LfsrErrorsInOrder :
    ¬((withU0 0 false 1#32 1#32 0#32).snap.unit .u0).sizeOk ∧ ¬((withU0 33 false 1#32 1#32 0#32).snap.unit .u0).sizeOk ∧
    (((withU0 4 false 0x10#32 0xC#32 0#32).snap.unit .u0).sizeOk ∧
      ¬((withU0 4 false 0x10#32 0xC#32 0#32).snap.unit .u0).fits ((withU0 4 false 0x10#32 0xC#32 0#32).snap.unit .u0).state) ∧
    (((withU0 4 false 0x1#32 0x10#32 0#32).snap.unit .u0).sizeOk ∧
      ((withU0 4 false 0x1#32 0x10#32 0#32).snap.unit .u0).fits ((withU0 4 false 0x1#32 0x10#32 0#32).snap.unit .u0).state ∧
      ¬((withU0 4 false 0x1#32 0x10#32 0#32).snap.unit .u0).tapsOk false) ∧
    (((withU0 4 true 0x1#32 0xC#32 0x10#32).snap.unit .u0).sizeOk ∧
      ((withU0 4 true 0x1#32 0xC#32 0x10#32).snap.unit .u0).fits ((withU0 4 true 0x1#32 0xC#32 0x10#32).snap.unit .u0).state ∧
      ¬((withU0 4 true 0x1#32 0xC#32 0x10#32).snap.unit .u0).tapsOk true) ∧
    (∀ fib, ((withU1 ⟨0xFFF1#32, 16#32, 0, 0, 0, 0, 0, 0⟩).snap.unit .u1).legalFor fib ∧
      ¬(withU1 ⟨0xFFF1#32, 16#32, 0, 0, 0, 0, 0, 0⟩).inMem
        (withU1 ⟨0xFFF1#32, 16#32, 0, 0, 0, 0, 0, 0⟩).snap.args.a0.toNat
        (withU1 ⟨0xFFF1#32, 16#32, 0, 0, 0, 0, 0, 0⟩).snap.args.a1.toNat) := by
  refine ⟨by unfold LfsrUnit.sizeOk; decide, by unfold LfsrUnit.sizeOk; decide, ⟨by unfold LfsrUnit.sizeOk; decide, ?_⟩,
    ⟨by unfold LfsrUnit.sizeOk; decide, (LfsrUnit.fits_iff _ _).1 (by decide), fun h => ?_⟩,
    ⟨by unfold LfsrUnit.sizeOk; decide, (LfsrUnit.fits_iff _ _).1 (by decide), fun h => ?_⟩,
    fun fib => ⟨legalUnit_legal fib, outside (by decide)⟩⟩
  · exact mt (LfsrUnit.fits_iff _ _).2 (by decide)
  · exact absurd ((LfsrUnit.fits_iff _ _).2 h.1) (by decide)
  · exact absurd ((LfsrUnit.fits_iff _ _).2 (h.2 rfl rfl)) (by decide)

/-- A run of 7 and 8 outputs up to the last MEM byte. -/
theorem witness_LfsrGenContinues (fib : Bool) :
    ((withU1 Args.reset).unitNow .u1).legalFor fib ∧ (withU1 Args.reset).inMem (0xFFF1#32).toNat (7 + 8) :=
  ⟨legalUnit_legal fib, within (by decide)⟩

/-- sT1 is well-formed. -/
theorem toy_wellFormed : Descriptor.WellFormed (toy [.outTaps [1, 3], .outTaps [2, 4]]) := by
  constructor <;>
    simp [toy, Descriptor.sizesOk, Descriptor.seedsOk, Descriptor.tapsOk, Descriptor.entriesOk, Descriptor.entriesHaveG2,
      RegCfg.sizeOk, RegCfg.seedOk, RegCfg.tapsOk, tapIn]

theorem witness_RcgInfoReportsSizes :
    (withArgs 1 0 0 0 0).params.signals[(withArgs 1 0 0 0 0).snap.args.a0.toNat]? =
        some (.other (toy [.outTaps [1, 3], .outTaps [2, 4]])) ∧
      Descriptor.WellFormed (descriptorOf (.other (toy [.outTaps [1, 3], .outTaps [2, 4]]))) ∧
      (descriptorOf (.other (toy [.outTaps [1, 3], .outTaps [2, 4]]))).len < 2 ^ 32 ∧
      (descriptorOf (.other (toy [.outTaps [1, 3], .outTaps [2, 4]]))).sats.length < 2 ^ 32 :=
  ⟨rfl, toy_wellFormed, by decide, by decide⟩

/-- The table of 60 bytes up to the last MEM byte; satellite 1, chip 14. -/
theorem witness_RcgBuildWritesTable :
    (withArgs 1 0xFFC4 0 0 0).params.signals[(withArgs 1 0xFFC4 0 0 0).snap.args.a0.toNat]? =
        some (.other (toy [.outTaps [1, 3], .outTaps [2, 4]])) ∧
      descriptorOf (.other (toy [.outTaps [1, 3], .outTaps [2, 4]])) = toy [.outTaps [1, 3], .outTaps [2, 4]] ∧
      Descriptor.WellFormed (toy [.outTaps [1, 3], .outTaps [2, 4]]) ∧
      (withArgs 1 0xFFC4 0 0 0).snap.args.a1.toNat = 0xFFC4 ∧
      (withArgs 1 0xFFC4 0 0 0).inMem 0xFFC4
        (2 * (toy [.outTaps [1, 3], .outTaps [2, 4]]).len * (toy [.outTaps [1, 3], .outTaps [2, 4]]).sats.length) ∧
      (toy [.outTaps [1, 3], .outTaps [2, 4]]).len < 2 ^ 32 ∧
      (toy [.outTaps [1, 3], .outTaps [2, 4]]).sats.length < 2 ^ 32 ∧
      (toy [.outTaps [1, 3], .outTaps [2, 4]]).sats[1]? = some (.outTaps [2, 4]) ∧
      14 < (toy [.outTaps [1, 3], .outTaps [2, 4]]).len :=
  ⟨rfl, rfl, toy_wellFormed, rfl, within (by decide), by decide, by decide, rfl, by decide⟩

theorem witness_RcgTableIsSignedChips :
    (withArgs 1 0xFFC4 0 0 0).params.signals[(withArgs 1 0xFFC4 0 0 0).snap.args.a0.toNat]? =
        some (.other (toy [.outTaps [1, 3], .outTaps [2, 4]])) ∧
      descriptorOf (.other (toy [.outTaps [1, 3], .outTaps [2, 4]])) = toy [.outTaps [1, 3], .outTaps [2, 4]] ∧
      (withArgs 1 0xFFC4 0 0 0).snap.args.a1.toNat = 0xFFC4 ∧
      (∃ t, exec .rcgBuild (withArgs 1 0xFFC4 0 0 0) = .next t ∧ t.status.err = false) ∧
      1 < (toy [.outTaps [1, 3], .outTaps [2, 4]]).sats.length ∧ 14 < (toy [.outTaps [1, 3], .outTaps [2, 4]]).len :=
  ⟨rfl, rfl, rfl, ⟨_, rfl, by decide⟩, by decide, by decide⟩

/-- `toy` with another G1. -/
def toyG1 (g1 : RegCfg) : Descriptor := { toy [.outTaps [1, 3]] with g1 := g1 }

/-- The first index that is none; one size, seed and tap just out of range; entries of both kinds; an entry without its
G2; a region one byte too long. -/
theorem witness_RangingErrorsInOrder :
    (withArgs 3 0 0 0 0).params.signals.length ≤ (withArgs 3 0 0 0 0).snap.args.a0.toNat ∧
    (∀ d, { withArgs 0 0 0 0 0 with params := { exampleParams with signals := [.other d] } }.params.signals[0]? =
        some (.other d) ∧ descriptorOf (.other d) = d) ∧
    ¬(toyG1 (.gal 33 0#32 0#32)).sizesOk ∧
    ((toyG1 (.gal 4 0x10#32 0#32)).sizesOk ∧ ¬(toyG1 (.gal 4 0x10#32 0#32)).seedsOk) ∧
    ((toyG1 (.gal 4 0xF#32 0x10#32)).sizesOk ∧ (toyG1 (.gal 4 0xF#32 0x10#32)).seedsOk ∧
      (toyG1 (.gal 4 0xF#32 0x10#32)).entriesHaveG2 ∧ ¬(toyG1 (.gal 4 0xF#32 0x10#32)).tapsOk) ∧
    ((toy [.outTaps [1, 4], .seed [true, false, false, true]]).sizesOk ∧
      (toy [.outTaps [1, 4], .seed [true, false, false, true]]).seedsOk ∧
      (toy [.outTaps [1, 4], .seed [true, false, false, true]]).entriesHaveG2 ∧
      (toy [.outTaps [1, 4], .seed [true, false, false, true]]).tapsOk ∧
      ¬(toy [.outTaps [1, 4], .seed [true, false, false, true]]).entriesOk) ∧
    ({ toy [.outTaps [1, 3]] with g2 := none }.sizesOk ∧ { toy [.outTaps [1, 3]] with g2 := none }.seedsOk ∧
      ¬{ toy [.outTaps [1, 3]] with g2 := none }.entriesHaveG2) ∧
    ((withArgs 1 0xFFC5 0 0 0).params.signals[(withArgs 1 0xFFC5 0 0 0).snap.args.a0.toNat]? =
        some (.other (toy [.outTaps [1, 3], .outTaps [2, 4]])) ∧
      Descriptor.WellFormed (toy [.outTaps [1, 3], .outTaps [2, 4]]) ∧
      ¬(withArgs 1 0xFFC5 0 0 0).inMem (withArgs 1 0xFFC5 0 0 0).snap.args.a1.toNat
        (2 * (toy [.outTaps [1, 3], .outTaps [2, 4]]).len * (toy [.outTaps [1, 3], .outTaps [2, 4]]).sats.length)) := by
  refine ⟨by decide, fun _ => ⟨rfl, rfl⟩, ?_, ?_, ?_, ?_, ?_, rfl, toy_wellFormed, outside (by decide)⟩ <;>
    simp [toy, toyG1, Descriptor.sizesOk, Descriptor.seedsOk, Descriptor.tapsOk, Descriptor.entriesOk,
      Descriptor.entriesHaveG2, RegCfg.sizeOk, RegCfg.seedOk, RegCfg.tapsOk, tapIn]

theorem witness_BchCodewordsAreMultiples : (withArgs 0x7FF 0 0 0 0).snap.args.a0.toNat < 2 ^ 11 := by decide

theorem witness_BchInterleaveAlternatesCodewords : (withArgs 0x3FFFFF 0 0 0 0).snap.args.a0.toNat < 2 ^ 22 := by decide

theorem witness_BchShiftIsTheAssignments : (withArgs 0x7FF 0 0 0 0).snap.args.a0.toNat < 2 ^ 11 := by decide

theorem witness_HamCheckComputesParities :
    (withArgs 0x80000001 0x80000001 0x1FFF 0 0).snap.args.a2.toNat < 2 ^ 13 ∧
    ∀ k, k < 77 →
      (0x1FFF8000000180000001#77).getLsbD k =
        if k < 32 then (withArgs 0x80000001 0x80000001 0x1FFF 0 0).snap.args.a0.getLsbD k
        else if k < 64 then (withArgs 0x80000001 0x80000001 0x1FFF 0 0).snap.args.a1.getLsbD (k - 32)
        else (withArgs 0x80000001 0x80000001 0x1FFF 0 0).snap.args.a2.getLsbD (k - 64) := ⟨by decide, by decide⟩

theorem witness_PackedOperandErrors :
    2 ^ 11 ≤ (withArgs 0x800 0 0 0 0).snap.args.a0.toNat ∧ 2 ^ 22 ≤ (withArgs 0x400000 0 0 0 0).snap.args.a0.toNat ∧
    2 ^ 13 ≤ (withArgs 0 0 0x2000 0 0).snap.args.a2.toNat ∧ 2 ≤ (withArgs 2 0 0 0 0).snap.args.a0.toNat ∧
    2 ≤ (withArgs 0 2 0 0 0).snap.args.a1.toNat ∧ 2 ≤ (withArgs 0 0 2 0 0).snap.args.a2.toNat ∧
    2 ≤ (withArgs 0 0 0 2 0).snap.args.a3.toNat := by decide

/-- Three input bytes at the end of MEM, capture index 2, initial state 0x3F. -/
def convState : State := { withArgs 0xFFFD 3 0x40 2 0x3F with mem := memOf 0xFFFD [1, 0, 255] }

theorem witness_ConvEncodeConvolves :
    convState.snap.args.a0.toNat = 0xFFFD ∧ convState.snap.args.a1.toNat = [0x01#8, 0x00#8, 0xFF#8].length ∧
    convState.snap.args.a2.toNat = 0x40 ∧ convState.snap.args.a3.toNat = 2 ∧ convState.snap.args.a4.toNat < 2 ^ 6 ∧
    2 < [0x01#8, 0x00#8, 0xFF#8].length ∧ convState.inMem 0xFFFD [0x01#8, 0x00#8, 0xFF#8].length ∧
    convState.inMem 0x40 (2 * [0x01#8, 0x00#8, 0xFF#8].length) ∧ reads convState.mem convState.draws 0xFFFD [0x01#8, 0x00#8, 0xFF#8] 0 ∧
    decodesTo [0x01#8, 0x00#8, 0xFF#8] [true, false, false] :=
  ⟨rfl, rfl, rfl, rfl, by decide, by decide, within (by decide), within (by decide), ⟨rfl, rfl, rfl, rfl⟩,
    by simp [decodesTo]⟩

theorem witness_ConvEncodeResumes :
    0 < 1 ∧ 0 < 2 ∧ [0x01#8, 0x00#8, 0xFF#8].length = 1 + 2 ∧ (0x3F#32).toNat < 2 ^ 6 ∧
    (0xFFFD#32).toNat + (1 + 2) ≤ convState.params.memSize ∧ (0x40#32).toNat + 2 * (1 + 2) ≤ convState.params.memSize ∧
    ((0xFFFD#32).toNat + (1 + 2) ≤ (0x40#32).toNat ∨ (0x40#32).toNat + 2 * (1 + 2) ≤ (0xFFFD#32).toNat) ∧
    holds convState.mem (0xFFFD#32).toNat [0x01#8, 0x00#8, 0xFF#8] ∧
    decodesTo [0x01#8, 0x00#8, 0xFF#8] [true, false, false] :=
  ⟨by decide, by decide, rfl, by decide, by decide, by decide, by decide, by unfold holds; decide, by simp [decodesTo]⟩

/-- Initial state 0x40; capture index equal to the length, also of an empty input; each region one byte too long; an
input byte 2. -/
theorem witness_ConvEncodeErrorsInOrder :
    2 ^ 6 ≤ (withArgs 0 0 0 0 0x40).snap.args.a4.toNat ∧
    ((withArgs 0 8 0 8 0x3F).snap.args.a4.toNat < 2 ^ 6 ∧
      (withArgs 0 8 0 8 0x3F).snap.args.a1.toNat ≤ (withArgs 0 8 0 8 0x3F).snap.args.a3.toNat) ∧
    ((withArgs 0 0 0 0 0).snap.args.a4.toNat < 2 ^ 6 ∧
      (withArgs 0 0 0 0 0).snap.args.a1.toNat ≤ (withArgs 0 0 0 0 0).snap.args.a3.toNat) ∧
    ((withArgs 0xFFFE 3 0 2 0).snap.args.a4.toNat < 2 ^ 6 ∧
      (withArgs 0xFFFE 3 0 2 0).snap.args.a3.toNat < (withArgs 0xFFFE 3 0 2 0).snap.args.a1.toNat ∧
      ¬((withArgs 0xFFFE 3 0 2 0).inMem (withArgs 0xFFFE 3 0 2 0).snap.args.a0.toNat
          (withArgs 0xFFFE 3 0 2 0).snap.args.a1.toNat ∧
        (withArgs 0xFFFE 3 0 2 0).inMem (withArgs 0xFFFE 3 0 2 0).snap.args.a2.toNat
          (2 * (withArgs 0xFFFE 3 0 2 0).snap.args.a1.toNat))) ∧
    ¬(withArgs 0 3 0xFFFB 2 0).inMem (withArgs 0 3 0xFFFB 2 0).snap.args.a2.toNat
      (2 * (withArgs 0 3 0xFFFB 2 0).snap.args.a1.toNat) ∧
    (convState.snap.args.a4.toNat < 2 ^ 6 ∧ convState.snap.args.a3.toNat < convState.snap.args.a1.toNat ∧
      convState.inMem convState.snap.args.a0.toNat convState.snap.args.a1.toNat ∧
      convState.inMem convState.snap.args.a2.toNat (2 * convState.snap.args.a1.toNat) ∧
      2 < convState.snap.args.a1.toNat ∧
      { convState with mem := memOf 0xFFFF [2] }.mem.peek (convState.snap.args.a0.toNat + 2) = some 2#8 ∧
      2#8 ≠ 0x00#8 ∧ 2#8 ≠ 0x01#8 ∧ 2#8 ≠ 0xFF#8) := by
  refine ⟨by decide, ⟨by decide, by decide⟩, ⟨by decide, by decide⟩,
    ⟨by decide, by decide, fun h => absurd h.1 (outside (by decide))⟩, outside (by decide),
    by decide, by decide, within (by decide), within (by decide), by decide, by decide, by decide, by decide, by decide⟩

/-- Two chips in three forms, the output up to the last MEM byte. -/
def dualState : State :=
  { withArgs 0 0x10 0x20 2 0xFFE8 with mem := Memory.pokes (memOf 0x10 [1, 255]) 0x20 [0, 1] }

theorem witness_MuxDualSelectsPatterns :
    (dualState.params.dualFirst :: dualState.params.dualRest)[dualState.snap.args.a0.toNat]? =
        some dualState.params.dualFirst ∧
      dualState.snap.args.a1.toNat = 0x10 ∧ dualState.snap.args.a2.toNat = 0x20 ∧
      dualState.snap.args.a3.toNat = [0x01#8, 0xFF#8].length ∧ [0x00#8, 0x01#8].length = [0x01#8, 0xFF#8].length ∧
      dualState.snap.args.a4.toNat = 0xFFE8 ∧ dualState.inMem 0x10 2 ∧ dualState.inMem 0x20 2 ∧
      dualState.inMem 0xFFE8 (12 * 2) ∧ reads dualState.mem dualState.draws 0x10 [0x01#8, 0xFF#8] 0 ∧
      reads dualState.mem 0 0x20 [0x00#8, 0x01#8] 0 ∧ decodesTo [0x01#8, 0xFF#8] [true, false] ∧
      decodesTo [0x00#8, 0x01#8] [false, true] ∧ (1 : Fin 4).val = 2 * false.toNat + true.toNat :=
  ⟨rfl, rfl, rfl, rfl, rfl, rfl, within (by decide), within (by decide), within (by decide), ⟨rfl, rfl, rfl⟩,
    ⟨rfl, rfl, rfl⟩, by simp [decodesTo], by simp [decodesTo], rfl⟩

/-- Two chips of each code, m = 10, the Q output up to the last MEM byte. -/
def altState : State :=
  { fresh with args := ⟨0, 4, 8, 12, 2, 0x100, 0xFFE8, 10⟩, mem := altCodes }

theorem witness_MuxAltbocComposesSegments :
    altState.snap.args.a4.toNat = 2 ∧ 2 % 2 = 0 ∧ altState.snap.args.a7.toNat < 16 ∧
    (altState.inMem altState.snap.args.a0.toNat 2 ∧ altState.inMem altState.snap.args.a1.toNat 2 ∧
      altState.inMem altState.snap.args.a2.toNat 2 ∧ altState.inMem altState.snap.args.a3.toNat 2 ∧
      altState.inMem altState.snap.args.a5.toNat (12 * 2) ∧ altState.inMem altState.snap.args.a6.toNat (12 * 2)) ∧
    (reads altState.mem altState.draws altState.snap.args.a0.toNat [0x01#8, 0x00#8] 0 ∧
      reads altState.mem 0 altState.snap.args.a1.toNat [0x00#8, 0x01#8] 0 ∧
      reads altState.mem 0 altState.snap.args.a2.toNat [0x00#8, 0x00#8] 0 ∧
      reads altState.mem 0 altState.snap.args.a3.toNat [0x01#8, 0x01#8] 0) ∧
    (decodesTo [0x01#8, 0x00#8] [true, false] ∧ decodesTo [0x00#8, 0x01#8] [false, true] ∧
      decodesTo [0x00#8, 0x00#8] [false, false] ∧ decodesTo [0x01#8, 0x01#8] [true, true]) ∧
    ∀ i, i < 2 → ((fun i => if i = 0 then 3 else 15 : Nat → Fin 16) i).val =
      8 * (([true, false][i]?.getD false) ^^ altState.snap.args.a7.getLsbD 3).toNat +
      4 * (([false, true][i]?.getD false) ^^ altState.snap.args.a7.getLsbD 2).toNat +
      2 * (([false, false][i]?.getD false) ^^ altState.snap.args.a7.getLsbD 1).toNat +
      (([true, true][i]?.getD false) ^^ altState.snap.args.a7.getLsbD 0).toNat :=
  ⟨rfl, rfl, by decide,
    ⟨within (by decide), within (by decide), within (by decide), within (by decide), within (by decide),
      within (by decide)⟩,
    ⟨⟨rfl, rfl, rfl⟩, ⟨rfl, rfl, rfl⟩, ⟨rfl, rfl, rfl⟩, ⟨rfl, rfl, rfl⟩⟩,
    ⟨by simp [decodesTo], by simp [decodesTo], by simp [decodesTo], by simp [decodesTo]⟩, by decide⟩

/-- Segment 255, both destinations sharing bytes, the Q one up to the last MEM byte. -/
theorem witness_AltSegmentReadsSegment :
    (withArgs 255 0xFFE0 0xFFE8 0 0).snap.args.a0.toNat = 16 * (15 : Fin 16).val + (15 : Fin 16).val ∧
      (withArgs 255 0xFFE0 0xFFE8 0 0).inMem (withArgs 255 0xFFE0 0xFFE8 0 0).snap.args.a1.toNat 24 ∧
      (withArgs 255 0xFFE0 0xFFE8 0 0).inMem (withArgs 255 0xFFE0 0xFFE8 0 0).snap.args.a2.toNat 24 :=
  ⟨rfl, within (by decide), within (by decide)⟩

theorem witness_AltModidxPacksBits :
    (withArgs 1 0 1 1 0).snap.args.a0.toNat < 2 ∧ (withArgs 1 0 1 1 0).snap.args.a1.toNat < 2 ∧
      (withArgs 1 0 1 1 0).snap.args.a2.toNat < 2 ∧ (withArgs 1 0 1 1 0).snap.args.a3.toNat < 2 := by decide

/-- Indices at the first value out of range; an odd length; a region one byte too long of each command; an input byte
2 in each position. -/
theorem witness_MultiplexerErrorsInOrder :
    1 + (withArgs 1 0 0 0 0).params.dualRest.length ≤ (withArgs 1 0 0 0 0).snap.args.a0.toNat ∧
    ((withArgs 0 0 0 2 0xFFE9).snap.args.a0.toNat < 1 + (withArgs 0 0 0 2 0xFFE9).params.dualRest.length ∧
      ¬(withArgs 0 0 0 2 0xFFE9).inMem (withArgs 0 0 0 2 0xFFE9).snap.args.a4.toNat
        (12 * (withArgs 0 0 0 2 0xFFE9).snap.args.a3.toNat)) ∧
    16 ≤ { fresh with args := ⟨0, 0, 0, 0, 0, 0, 0, 16⟩ }.snap.args.a7.toNat ∧
    ({ fresh with args := ⟨0, 0, 0, 0, 3, 0, 0, 15⟩ }.snap.args.a7.toNat < 16 ∧
      { fresh with args := ⟨0, 0, 0, 0, 3, 0, 0, 15⟩ }.snap.args.a4.toNat % 2 = 1) ∧
    ({ fresh with args := ⟨0, 0, 0, 0, 2, 0, 0xFFE9, 15⟩ }.snap.args.a7.toNat < 16 ∧
      { fresh with args := ⟨0, 0, 0, 0, 2, 0, 0xFFE9, 15⟩ }.snap.args.a4.toNat % 2 = 0 ∧
      ¬{ fresh with args := ⟨0, 0, 0, 0, 2, 0, 0xFFE9, 15⟩ }.inMem
        { fresh with args := ⟨0, 0, 0, 0, 2, 0, 0xFFE9, 15⟩ }.snap.args.a6.toNat
        (12 * { fresh with args := ⟨0, 0, 0, 0, 2, 0, 0xFFE9, 15⟩ }.snap.args.a4.toNat)) ∧
    256 ≤ (withArgs 256 0 0 0 0).snap.args.a0.toNat ∧
    ((withArgs 255 0xFFE9 0 0 0).snap.args.a0.toNat < 256 ∧
      ¬(withArgs 255 0xFFE9 0 0 0).inMem (withArgs 255 0xFFE9 0 0 0).snap.args.a1.toNat 24) ∧
    ((dualState.snap.args.a0.toNat < 1 + dualState.params.dualRest.length ∧
        dualState.inMem dualState.snap.args.a1.toNat dualState.snap.args.a3.toNat ∧
        dualState.inMem dualState.snap.args.a2.toNat dualState.snap.args.a3.toNat ∧
        dualState.inMem dualState.snap.args.a4.toNat (12 * dualState.snap.args.a3.toNat) ∧
        1 < dualState.snap.args.a3.toNat) ∧
      (∀ x ∈ [0x11, 0x21],
        { dualState with mem := memOf x [2] }.mem.peek (dualState.snap.args.a1.toNat + 1) = some 2#8 ∨
          { dualState with mem := memOf x [2] }.mem.peek (dualState.snap.args.a2.toNat + 1) = some 2#8)) ∧
    ((altState.snap.args.a7.toNat < 16 ∧ altState.snap.args.a4.toNat % 2 = 0 ∧ 1 < altState.snap.args.a4.toNat) ∧
      (∀ x ∈ [1, 5, 9, 13],
        { altState with mem := memOf x [2] }.mem.peek (altState.snap.args.a0.toNat + 1) = some 2#8 ∨
        { altState with mem := memOf x [2] }.mem.peek (altState.snap.args.a1.toNat + 1) = some 2#8 ∨
        { altState with mem := memOf x [2] }.mem.peek (altState.snap.args.a2.toNat + 1) = some 2#8 ∨
        { altState with mem := memOf x [2] }.mem.peek (altState.snap.args.a3.toNat + 1) = some 2#8)) ∧
    2#8 ≠ 0x00#8 ∧ 2#8 ≠ 0x01#8 ∧ 2#8 ≠ 0xFF#8 :=
  ⟨by decide, ⟨by decide, outside (by decide)⟩, by decide, ⟨by decide, by decide⟩,
    ⟨by decide, by decide, outside (by decide)⟩, by decide, ⟨by decide, outside (by decide)⟩,
    ⟨⟨by decide, within (by decide), within (by decide), within (by decide), by decide⟩, by decide⟩,
    ⟨⟨by decide, by decide, by decide⟩, by decide⟩, by decide, by decide, by decide⟩

/-- `convState` with one defined and two undefined input bytes; the two multiplexers on codes of undefined chips. -/
def convMixed : State := { convState with mem := memOf 0xFFFE [1] }
def dualUndefined : State := { dualState with mem := [] }
def altUndefined : State := { altState with mem := [] }

theorem witness_UndefinedInputIsDrawn :
    (convMixed.snap.args.a4.toNat < 2 ^ 6 ∧ convMixed.snap.args.a3.toNat < convMixed.snap.args.a1.toNat ∧
      convMixed.inMem convMixed.snap.args.a0.toNat convMixed.snap.args.a1.toNat ∧
      convMixed.inMem convMixed.snap.args.a2.toNat (2 * convMixed.snap.args.a1.toNat) ∧
      undefinedIn convMixed.mem convMixed.snap.args.a0.toNat 3 = 2) ∧
    (dualUndefined.snap.args.a0.toNat < 1 + dualUndefined.params.dualRest.length ∧
      dualUndefined.inMem dualUndefined.snap.args.a1.toNat dualUndefined.snap.args.a3.toNat ∧
      dualUndefined.inMem dualUndefined.snap.args.a2.toNat dualUndefined.snap.args.a3.toNat ∧
      dualUndefined.inMem dualUndefined.snap.args.a4.toNat (12 * dualUndefined.snap.args.a3.toNat)) ∧
    (altUndefined.snap.args.a7.toNat < 16 ∧ altUndefined.snap.args.a4.toNat % 2 = 0 ∧
      altUndefined.inMem altUndefined.snap.args.a0.toNat altUndefined.snap.args.a4.toNat ∧
      altUndefined.inMem altUndefined.snap.args.a1.toNat altUndefined.snap.args.a4.toNat ∧
      altUndefined.inMem altUndefined.snap.args.a2.toNat altUndefined.snap.args.a4.toNat ∧
      altUndefined.inMem altUndefined.snap.args.a3.toNat altUndefined.snap.args.a4.toNat ∧
      altUndefined.inMem altUndefined.snap.args.a5.toNat (12 * altUndefined.snap.args.a4.toNat) ∧
      altUndefined.inMem altUndefined.snap.args.a6.toNat (12 * altUndefined.snap.args.a4.toNat)) :=
  ⟨⟨by decide, by decide, within (by decide), within (by decide), by decide⟩,
    ⟨by decide, within (by decide), within (by decide), within (by decide)⟩,
    by decide, by decide, within (by decide), within (by decide), within (by decide), within (by decide),
    within (by decide), within (by decide)⟩

/-- Every offset of the window; NSIG and NDUAL fit. -/
theorem witness_RegisterReadsHaveNoEffect :
    (∀ k < 64, 4 * k < 256 ∧ 4 * k % 4 = 0 ∧ (waiting fresh [.access (.read (4 * k) 4)]).inputs =
      [.access (.read (4 * k) 4)]) ∧
    fresh.params.signals.length < 2 ^ 32 ∧ 1 + fresh.params.dualRest.length < 2 ^ 32 ∧ 0x70 = regOffset .cvpoly :=
  ⟨fun _ h => ⟨by omega, by omega, rfl⟩, by decide, by decide, rfl⟩

/-- One register of each shape. -/
theorem witness_RegisterWritesStoreWritableBits :
    (Reg.l1ot ∈ [Reg.arg0, .arg1, .arg2, .arg3, .arg4, .arg5, .arg6, .arg7, .l0state, .l0fb, .l0ot, .l1state, .l1fb,
        .l1ot] ∧ Reg.l0cfg ∈ [Reg.l0cfg, .l1cfg]) ∧
      ∀ r ∈ [Reg.l1ot, .l0cfg, .cvpoly],
        (waiting fresh [.access (.write (regOffset r) 4 0xFFFFFFFF#32)]).inputs =
          [.access (.write (regOffset r) 4 0xFFFFFFFF#32)] := by decide

/-- A listed offset, both ends of the reserved tail, and CTRL with all of bits [31:2] set. -/
theorem witness_ReadOnlyWritesAreIgnored :
    ∀ o ∈ [0x74, 0x78, 0xFC, 0x04],
      (o ∈ [0x00, 0x08, 0x30, 0x34, 0x38, 0x3C, 0x40, 0x44, 0x48, 0x4C, 0x74] ∨ (0x78 ≤ o ∧ o < 256 ∧ o % 4 = 0) ∨
        (o = 0x04 ∧ (0xFFFFFFFC#32).getLsbD 0 = false ∧ (0xFFFFFFFC#32).getLsbD 1 = false)) ∧
        (waiting fresh [.access (.write o 4 0xFFFFFFFC#32)]).inputs = [.access (.write o 4 0xFFFFFFFC#32)] := by decide

/-- An access the port takes, and one it refuses for each reason, at the ends of the windows; and the refused ones outside
the MEM window while a command runs. -/
theorem witness_PortRefusesExactlyTheListed :
    (∀ a ∈ [Access.read 0xFC 4, .read 0xFC 2, .read 0x0100FFFF 1, .read 0x0100FFFF 3, .read 0x0100FFFF 2,
        .read 0x100 4, .read 0x00FFFFFF 1, .read 0x01010000 1],
      (waiting fresh [.access a]).engine = .idle ∧ (waiting fresh [.access a]).inputs = [.access a]) ∧
    ∀ a ∈ [Access.read 0xFC 4, .read 0xFC 2, .write 0x02 4 0#32, .read 0x100 4, .read 0x00FFFFFF 1, .read 0x01010000 1],
      (busy 0x20#32 [.access a]).inputs = [.access a] ∧ (busy 0x20#32 [.access a]).engine ≠ .idle ∧
        (a.offset < 0x01000000 ∨ 0x01000000 + fresh.params.memSize ≤ a.offset) := by decide

/-- Each width, at the end of MEM. -/
theorem witness_MemWriteIsLittleEndian :
    ∀ w ∈ [1, 2, 4],
      (waiting fresh [.access (.write (0x01000000 + (0x10000 - w)) w 0x11223344#32)]).engine = .idle ∧
        (w = 1 ∨ w = 2 ∨ w = 4) ∧ (0x10000 - w) % w = 0 ∧ 0x10000 - w + w ≤ fresh.params.memSize ∧
        (waiting fresh [.access (.write (0x01000000 + (0x10000 - w)) w 0x11223344#32)]).inputs =
          [.access (.write (0x01000000 + (0x10000 - w)) w 0x11223344#32)] := by decide

/-- A word at the end of MEM. -/
theorem witness_MemReadIsLittleEndian :
    (waiting { fresh with mem := memOf 0xFFFC [1, 2, 3, 0x84] } [.access (.read (0x01000000 + 0xFFFC) 4)]).engine = .idle ∧
      0xFFFC % 4 = 0 ∧ 0xFFFC + 4 ≤ fresh.params.memSize ∧ [0x01#8, 0x02#8, 0x03#8, 0x84#8].length = 4 ∧
      holds { fresh with mem := memOf 0xFFFC [1, 2, 3, 0x84] }.mem 0xFFFC [0x01#8, 0x02#8, 0x03#8, 0x84#8] :=
  ⟨rfl, rfl, by decide, rfl, by unfold holds; decide⟩

theorem witness_UndefinedByteReadsAreFreshDraws :
    (waiting fresh [.access (.read (0x01000000 + 0xFFFF) 1), .access (.read (0x01000000 + 0xFFFF) 1)]).engine = .idle ∧
      0xFFFF < fresh.params.memSize ∧ fresh.mem.peek 0xFFFF = none := by decide

/-- An access at each end of the MEM window. -/
theorem witness_MemAccessStallsWhileBusy :
    ∀ o ∈ [0x01000000, 0x0100FFFF],
      (busy 0x00#32 [.access (.read o 1)]).engine = .running 0x00#32 fresh.takeSnapshot ∧
        (busy 0x00#32 [.access (.read o 1)]).inputs = [.access (.read o 1)] ∧
        0x01000000 ≤ (Access.read o 1).offset ∧ (Access.read o 1).offset < 0x01000000 + fresh.params.memSize := by decide

theorem witness_ClrClearsStatus :
    (2#32).getLsbD 1 = true ∧ (2#32).getLsbD 0 = false ∧
      (busy 0x20#32 [.access (.write 0x04 4 2#32)]).inputs = [.access (.write 0x04 4 2#32)] := by decide

/-- SRST and CLR together, while a command runs. -/
theorem witness_SoftResetKeepsMem :
    (3#32).getLsbD 0 = true ∧ (busy 0x20#32 [.access (.write 0x04 4 3#32)]).inputs = [.access (.write 0x04 4 3#32)] := by
  decide

theorem witness_HardwareResetUndefinesMem : (busy 0x20#32 [.hardwareReset]).inputs = [.hardwareReset] := rfl

/-- A running block that meets the invariant, and its step. -/
theorem witness_StepKeepsInvariant :
    (busy 0x00#32 [.engineTurn]).Inv ∧ step (busy 0x00#32 [.engineTurn]) = .next (busy 0x00#32 []).doneOk := by
  refine ⟨⟨rfl, ?_, fun _ => rfl, fun w sn h => ?_, fun _ => rfl⟩, rfl⟩
  · exact ⟨by decide, by decide, by decide⟩
  · cases h; rfl

theorem witness_StepKeepsParameters : step (busy 0x00#32 [.engineTurn]) = .next (busy 0x00#32 []).doneOk := rfl

/-- A register read while a command runs. -/
theorem witness_NoPartialResultsWhileBusy :
    step (busy 0x20#32 [.access (.read 0x0C 4)]) =
        .next { busy 0x20#32 [] with responses := [.data 0x20#32] } ∧
      (busy 0x20#32 [.access (.read 0x0C 4)]).engine.busy = true ∧
      { busy 0x20#32 [] with responses := [.data 0x20#32] }.engine.busy = true := ⟨rfl, rfl, rfl⟩

/-- Each of the three events. -/
theorem witness_MemChangesOnlyByThreeEvents :
    (stepped { (withU0 4 false 0x1#32 0xC#32 0#32 : State) with args := ⟨0, 1#32, 0, 0, 0, 0, 0, 0⟩ }
        [.access (.write 0x0C 4 2#32)]).bind (fun t => (stepped t [.engineTurn]).map (fun t' => decide (t'.mem ≠ t.mem))) =
      some true ∧
    (stepped { fresh with mem := memOf 0 [1] } [.hardwareReset]).map (fun t => decide (t.mem ≠ memOf 0 [1])) = some true ∧
    (stepped fresh [.access (.write 0x0100FFFF 1 7#32)]).map (fun t => decide (t.mem ≠ fresh.mem)) = some true := by decide

/-- A listed register, and L1STATE while a command of the other unit and an illegal word run. -/
theorem witness_RunningCommandIgnoresRegisterWrites :
    (∀ w, (busy w []).engine = .running w fresh.takeSnapshot) ∧
      Reg.cvpoly ∈ [Reg.arg0, .arg1, .arg2, .arg3, .arg4, .arg5, .arg6, .arg7, .l0cfg, .l0fb, .l0ot, .l1cfg, .l1fb,
        .l1ot, .cvpoly] ∧
      ∀ w ∈ [0x02#32, 0x05#32], ∀ i, decode w = .ok i →
        i ∉ [.lfsrFibStep .u1, .lfsrFibGen .u1, .lfsrGalStep .u1, .lfsrGalGen .u1] := by
  refine ⟨fun _ => rfl, by decide, fun w hw i hi => ?_⟩
  rcases List.mem_cons.1 hw with rfl | hw
  · cases hi; decide
  · cases List.mem_singleton.1 hw; cases hi

/-- LFSR_GAL_STEP on U1. -/
theorem witness_SeedWriteWhileBusyIsLost :
    ((withU1 Args.reset).accept 0x103#32).engine = .running 0x103#32 (withU1 Args.reset).takeSnapshot ∧
      decode 0x103#32 = .ok (.lfsrGalStep .u1) ∧
      (stepped ((withU1 Args.reset).accept 0x103#32) [.engineTurn]).map (fun t => t.status.err) = some false := by decide

theorem witness_RunningEngineCompletes : (busy 0x20#32 [.access (.read 0x08 4)]).engine.busy = true := rfl

theorem witness_IdleBlockStaysIdle : fresh.engine = .idle ∧ fresh.inputs = [] := ⟨rfl, rfl⟩

end Sys2Proof.Tests
end

section
/-! The parameters of 00_scope.md rule R6 (MEM_SIZE and the ROM tables) are constant (rule R7): each thing a step can do
leaves them as they are, so a step does. -/

namespace Sys2Proof.Machine

/-- A command, whether it commits or fails, completes under the parameters it ran with. -/
theorem exec_params {i : Instr} {s t : State} (h : exec i s = .next t) : t.params = s.params := by
  rcases exec_cases h with ⟨w, d, _, rfl⟩ | ⟨e, d, _, rfl⟩
  · exact s.commit_params w
  · exact s.doneErr_params e.code

theorem engineStep_params {s t : State} (h : engineStep s = .next t) : t.params = s.params := by
  rcases engineStep_cases h with ⟨_, rfl⟩ | ⟨w, sn, i, _, _, hexec⟩ | ⟨w, sn, e, _, _, rfl⟩
  · rfl
  · exact exec_params hexec
  · exact s.doneErr_params _

/-- No register of the window holds a parameter: MEMSIZE, NSIG and NDUAL are read-only. -/
@[simp] theorem State.writeWindow_params (s : State) (o : Nat) (v : Word) :
    (s.writeWindow o v).params = s.params := by
  unfold State.writeWindow
  cases regAt o with
  | none => rfl
  | some r =>
    obtain ⟨_, hparams, _⟩ := s.writeReg_keeps r v
    exact hparams

@[simp] theorem State.perform_params (s : State) (tg : Target) (a : Access) :
    (s.perform tg a).params = s.params := by
  cases tg with
  | register o => cases a <;> simp [State.perform]
  | memory m => cases a <;> simp [State.perform]

/-- Settles O53: the parameters survive each of the ways a step can go (`step_cases`). -/
theorem stepKeepsParameters : Obligations.StepKeepsParameters := by
  intro s t h
  rcases step_cases h with ⟨hturn, _⟩ | ⟨rest, _, hturn⟩ | ⟨rest, _, rfl⟩ | ⟨a, rest, tg, _, _, _, rfl⟩ |
    ⟨a, rest, e, _, _, _, rfl⟩
  · exact engineStep_params hturn
  · exact engineStep_params (s := { s with inputs := rest }) hturn
  · exact State.hardReset_params _
  · exact State.perform_params _ tg a
  · rfl

end Sys2Proof.Machine
end

section
/-! The invariant of the block's state (rules R21, R26, R27, R36, R40, R261 and R262): each thing a step can do keeps it,
so every step does. -/

namespace Sys2Proof.Machine

/-! ### STATUS -/

/-- DONE, ERR 0 and ERRCODE 0, as an acceptance, a completion without error and CTRL.CLR leave them. -/
theorem Status.consistent_of_noError (done overrun : Bool) : Status.Consistent ⟨done, false, overrun, 0#8⟩ where
  errIffCode := by simp
  codeReported := Nat.zero_le 10
  errOnlyDone := by simp

/-- A reported error: DONE and ERR with one of the codes 1 to 10. -/
theorem Status.consistent_of_error (overrun : Bool) {code : Byte} (hne : code ≠ 0#8) (hle : code.toNat ≤ 10) :
    Status.Consistent ⟨true, true, overrun, code⟩ where
  errIffCode := by simpa using hne
  codeReported := hle
  errOnlyDone := fun _ => rfl

/-- Setting OVERRUN touches none of DONE, ERR and ERRCODE. -/
theorem Status.Consistent.overran {st : Status} (h : st.Consistent) : st.overran.Consistent :=
  ⟨h.errIffCode, h.codeReported, h.errOnlyDone⟩

/-! ### The operations -/

/-- The invariant speaks of six fields only. -/
theorem State.Inv.congr {s t : State} (h : s.Inv) (hengine : t.engine = s.engine) (hstatus : t.status = s.status)
    (hcmd : t.cmd = s.cmd) (hcvcap : t.cvcap = s.cvcap) (hmem : t.mem = s.mem) (hparams : t.params = s.params) :
    t.Inv where
  memCanonical := by rw [hmem, hparams]; exact h.memCanonical
  statusConsistent := by rw [hstatus]; exact h.statusConsistent
  busyNotDone := by rw [hengine, hstatus]; exact h.busyNotDone
  cmdIsRunning := by rw [hengine, hcmd]; exact h.cmdIsRunning
  captureCleared := by rw [hcvcap]; exact h.captureCleared

/-- With the engine idle nothing is left to show of DONE and of CMD. -/
theorem State.inv_of_idle {s : State} (hidle : s.engine = .idle) (hmem : s.mem.wf s.params.memSize = true)
    (hstatus : s.status.Consistent) (hcap : s.cvcap.valid = false → s.cvcap.state = 0#6) : s.Inv where
  memCanonical := hmem
  statusConsistent := hstatus
  busyNotDone := by simp [hidle]
  cmdIsRunning := by simp [hidle]
  captureCleared := hcap

theorem State.Inv.withInputs {s : State} (h : s.Inv) (l : List Input) : ({ s with inputs := l } : State).Inv :=
  h.congr rfl rfl rfl rfl rfl rfl

theorem State.Inv.withDraws {s : State} (h : s.Inv) (d : Nat) : ({ s with draws := d } : State).Inv :=
  h.congr rfl rfl rfl rfl rfl rfl

theorem State.Inv.respond {s : State} (h : s.Inv) (r : Response) : (s.respond r).Inv :=
  h.congr rfl rfl rfl rfl rfl rfl

theorem State.Inv.doneErr {s : State} (h : s.Inv) {code : Byte} (hne : code ≠ 0#8) (hle : code.toNat ≤ 10) :
    (s.doneErr code).Inv :=
  State.inv_of_idle rfl h.memCanonical (Status.consistent_of_error _ hne hle) h.captureCleared

/-- A commit keeps the invariant when its regions lie in MEM and a staged CVCAP is VALID or cleared whole. -/
theorem State.Inv.commit {s : State} {w : Writes} (h : s.Inv) (hmem : w.inMem s.params.memSize)
    (hcap : ∀ c, w.cvcap = some c → c.valid = true ∨ c = CvCap.reset) : (s.commit w).Inv := by
  refine State.inv_of_idle rfl (Memory.wf_commit h.memCanonical hmem) (Status.consistent_of_noError true _) ?_
  rw [State.commit_cvcap]
  cases hw : w.cvcap with
  | none => exact h.captureCleared
  | some c =>
    rcases hcap c hw with hvalid | rfl
    · exact fun hinvalid => absurd hvalid (by simpa using hinvalid)
    · exact fun _ => rfl

theorem State.Inv.softReset {s : State} (h : s.Inv) : s.softReset.Inv :=
  State.inv_of_idle rfl h.memCanonical Status.reset_consistent (fun _ => rfl)

/-- A hardware reset meets the invariant from any state: an undefined MEM is canonical. -/
theorem State.inv_hardReset (s : State) : s.hardReset.Inv :=
  State.inv_of_idle rfl rfl Status.reset_consistent (fun _ => rfl)

/-- Acceptance clears DONE, and CMD reads the word that now runs (rules R27 and R110). -/
theorem State.Inv.accept {s : State} (h : s.Inv) (w : Word) : (s.accept w).Inv where
  memCanonical := h.memCanonical
  statusConsistent := Status.consistent_of_noError false _
  busyNotDone := fun _ => rfl
  cmdIsRunning := by
    intro w' sn hrunning
    cases hrunning
    rfl
  captureCleared := h.captureCleared

/-- A dropped command word leaves DONE and CMD as they are (rule R112). -/
theorem State.Inv.overrun {s : State} (h : s.Inv) : s.overrun.Inv where
  memCanonical := h.memCanonical
  statusConsistent := h.statusConsistent.overran
  busyNotDone := h.busyNotDone
  cmdIsRunning := h.cmdIsRunning
  captureCleared := h.captureCleared

/-- CTRL.CLR leaves the engine, CMD, MEM and CVCAP as they are (rule R265). -/
theorem State.Inv.clear {s : State} (h : s.Inv) : ({ s with status := s.status.cleared } : State).Inv where
  memCanonical := h.memCanonical
  statusConsistent := Status.consistent_of_noError false false
  busyNotDone := fun _ => rfl
  cmdIsRunning := h.cmdIsRunning
  captureCleared := h.captureCleared

/-! ### The port and the engine -/

theorem State.Inv.writeWindow {s : State} (h : s.Inv) (o : Nat) (v : Word) : (s.writeWindow o v).Inv := by
  rcases s.writeWindow_cases o v with hw | hw | ⟨_, hw⟩ | ⟨_, hw⟩ | ⟨args, u0, u1, p, hw⟩ <;> rw [hw]
  · exact h.softReset
  · exact h.clear
  · exact h.overrun
  · exact h.accept v
  · exact h.congr rfl rfl rfl rfl rfl rfl

theorem State.Inv.readMem {s : State} (h : s.Inv) (a n : Nat) : (s.readMem a n).Inv :=
  h.congr rfl rfl rfl rfl rfl rfl

/-- A host write within MEM keeps MEM canonical. -/
theorem State.Inv.writeMem {s : State} (h : s.Inv) {a n : Nat} (hin : a + n ≤ s.params.memSize) (v : Word) :
    (s.writeMem a n v).Inv where
  memCanonical := Memory.wf_pokes h.memCanonical (.inr (by simpa using hin))
  statusConsistent := h.statusConsistent
  busyNotDone := h.busyNotDone
  cmdIsRunning := h.cmdIsRunning
  captureCleared := h.captureCleared

/-- An access the port takes keeps the invariant: what it takes of MEM lies in MEM (rule R62). -/
theorem State.Inv.perform {s : State} (h : s.Inv) {a : Access} {tg : Target}
    (hcheck : portCheck s.params.memSize a = .ok tg) : (s.perform tg a).Inv := by
  rcases portCheck_ok hcheck with ⟨rfl, _⟩ | ⟨m, rfl, _, _, _, hin⟩
  · cases a with
    | read o n => exact h.respond _
    | write o n v => exact (h.writeWindow o v).respond _
  · cases a with
    | read o n => exact h.readMem m n
    | write o n v => exact h.writeMem hin v

/-- Every command keeps the invariant: what it stages lies in MEM, what it captures is VALID or cleared, and what it
reports is one of the codes 1 to 10. -/
theorem State.Inv.exec {s t : State} {i : Instr} (h : s.Inv) (hexec : exec i s = .next t) : t.Inv := by
  rcases exec_cases hexec with ⟨w, d, hok, rfl⟩ | ⟨e, d, _, rfl⟩
  · exact (h.commit (commandResult_inMem hok) (fun c hc => commandResult_cvcap hok hc)).withDraws d
  · obtain ⟨hne, hle⟩ := e.code_range
    exact (h.doneErr hne hle).withDraws d

theorem State.Inv.engineStep {s t : State} (h : s.Inv) (hturn : engineStep s = .next t) : t.Inv := by
  rcases engineStep_cases hturn with ⟨_, rfl⟩ | ⟨w, sn, i, _, _, hexec⟩ | ⟨w, sn, e, _, _, rfl⟩
  · exact h
  · exact h.exec hexec
  · exact h.doneErr (by decide) (by decide)

/-- Settles O52: each of the ways a step can go (`step_cases`) keeps the invariant. -/
theorem stepKeepsInvariant : Obligations.StepKeepsInvariant := by
  intro s t h hstep
  rcases step_cases hstep with ⟨hturn, _⟩ | ⟨rest, _, hturn⟩ | ⟨rest, _, rfl⟩ | ⟨a, rest, tg, _, _, hcheck, rfl⟩ |
    ⟨a, rest, e, _, _, _, rfl⟩
  · exact h.engineStep hturn
  · exact (h.withInputs rest).engineStep hturn
  · exact State.inv_hardReset _
  · exact (h.withInputs rest).perform hcheck
  · exact (h.withInputs rest).respond _

end Sys2Proof.Machine
end

section
/-! The register window (rules R23 to R39): what a host reads at each offset, which writes are ignored, and what the
other writes store. -/

namespace Sys2Proof.Machine

/-! ### A step on a register access -/

/-- A read of the register window answers the word at its offset and does nothing else (rule R63). -/
theorem step_readWindow {s : State} {o : Nat} {rest : List Input} (hrange : o < 256) (halign : o % 4 = 0)
    (hi : s.inputs = .access (.read o 4) :: rest) :
    step s = .next { s with inputs := rest, responses := .data (s.readWindow o) :: s.responses } :=
  step_register hi hrange rfl halign

/-- A write of the register window acts at its offset and is acknowledged. -/
theorem step_writeWindow {s : State} {o : Nat} {v : Word} {rest : List Input} (hrange : o < 256) (halign : o % 4 = 0)
    (hi : s.inputs = .access (.write o 4 v) :: rest) :
    step s = .next (({ s with inputs := rest }.writeWindow o v).respond .written) :=
  step_register hi hrange rfl halign

/-! ### The register at an offset -/

theorem State.readWindow_of_regOffset (s : State) {o : Nat} (r : Reg) (ho : o = regOffset r) :
    s.readWindow o = s.readReg r := by
  simp [State.readWindow, ho]

theorem State.readWindow_reserved (s : State) {o : Nat} (ho : o = 0x4C ∨ 0x78 ≤ o) : s.readWindow o = 0#32 := by
  simp [State.readWindow, regAt_reserved ho]

theorem State.writeWindow_of_regOffset (s : State) {o : Nat} (r : Reg) (ho : o = regOffset r) (v : Word) :
    s.writeWindow o v = s.writeReg r v := by
  simp [State.writeWindow, ho]

theorem State.writeWindow_reserved (s : State) {o : Nat} (ho : o = 0x4C ∨ 0x78 ≤ o) (v : Word) :
    s.writeWindow o v = s := by
  simp [State.writeWindow, regAt_reserved ho]

/-! ### Registers with reserved bits: each bit of the word read

Below each bit, `grind` decides which part of the concatenation it lies in. -/

/-- The one bit of a Boolean field, as a case distinction. -/
theorem getLsbD_ofBool_eq_ite (b : Bool) (i : Nat) : (BitVec.ofBool b).getLsbD i = if i = 0 then b else false := by
  by_cases hi : i = 0 <;> simp [BitVec.getLsbD_ofBool, hi]

/-- STATUS (rule R26). -/
theorem Status.getLsbD_word (st : Status) (busy : Bool) (i : Nat) :
    (st.word busy).getLsbD i =
      if i = 0 then busy else if i = 1 then st.done else if i = 2 then st.err else if i = 3 then st.overrun
      else if 8 ≤ i ∧ i < 16 then st.errcode.getLsbD (i - 8) else false := by
  simp only [Status.word, BitVec.getLsbD_append, getLsbD_ofBool_eq_ite, BitVec.getLsbD_zero]
  grind

/-- LnCFG (rule R31). -/
theorem LfsrCfg.getLsbD_word (c : LfsrCfg) (i : Nat) :
    c.word.getLsbD i = if i < 6 then c.n.getLsbD i else if i = 8 then c.oten else false := by
  simp only [LfsrCfg.word, BitVec.getLsbD_append, getLsbD_ofBool_eq_ite, BitVec.getLsbD_zero]
  grind

/-- CVPOLY (rule R35). -/
theorem CvPoly.getLsbD_word (p : CvPoly) (i : Nat) :
    p.word.getLsbD i =
      if i < 7 then p.ga.getLsbD i else if 8 ≤ i ∧ i < 15 then p.gb.getLsbD (i - 8)
      else if i = 16 then p.inva else if i = 17 then p.invb else false := by
  simp only [CvPoly.word, BitVec.getLsbD_append, getLsbD_ofBool_eq_ite, BitVec.getLsbD_zero]
  grind

/-- CVCAP (rule R36). -/
theorem CvCap.getLsbD_word (c : CvCap) (i : Nat) :
    c.word.getLsbD i = if i < 6 then c.state.getLsbD i else if i = 31 then c.valid else false := by
  simp only [CvCap.word, BitVec.getLsbD_append, getLsbD_ofBool_eq_ite, BitVec.getLsbD_zero]
  grind

/-! ### Registers with reserved bits: what a write stores of its value -/

/-- A write of LnCFG stores bits [5:0] and 8 (rule R31). -/
theorem cfgOfWord_word (v : Word) : (cfgOfWord v).word = v &&& 0x0000013F#32 := by
  have hmask : ∀ i < 32, (0x0000013F#32).getLsbD i = if i < 6 then true else if i = 8 then true else false := by
    decide
  refine BitVec.eq_of_getLsbD_eq (fun i hi => ?_)
  simp only [LfsrCfg.getLsbD_word, BitVec.getLsbD_and, hmask i hi, cfgOfWord, BitVec.getLsbD_extractLsb']
  grind

/-- A write of CVPOLY stores bits [6:0], [14:8], 16 and 17 (rule R35). -/
theorem polyOfWord_word (v : Word) : (polyOfWord v).word = v &&& 0x00037F7F#32 := by
  have hmask : ∀ i < 32, (0x00037F7F#32).getLsbD i =
      if i < 7 then true else if 8 ≤ i ∧ i < 15 then true else if i = 16 then true else if i = 17 then true
      else false := by
    decide
  refine BitVec.eq_of_getLsbD_eq (fun i hi => ?_)
  simp only [CvPoly.getLsbD_word, BitVec.getLsbD_and, hmask i hi, polyOfWord, BitVec.getLsbD_extractLsb']
  grind

/-! ### Registers with reserved bits: the fields and the reserved bits of the word read -/

theorem Status.word_fields (st : Status) (busy : Bool) :
    (st.word busy).getLsbD 0 = busy ∧ (st.word busy).getLsbD 1 = st.done ∧ (st.word busy).getLsbD 2 = st.err ∧
      (st.word busy).getLsbD 3 = st.overrun ∧ (st.word busy).extractLsb' 8 8 = st.errcode ∧
      (st.word busy).extractLsb' 4 4 = 0#4 ∧ (st.word busy).extractLsb' 16 16 = 0#16 := by
  have hcode : (st.word busy).extractLsb' 8 8 = st.errcode := by
    refine BitVec.eq_of_getLsbD_eq (fun i hi => ?_)
    rw [BitVec.getLsbD_extractLsb', Status.getLsbD_word]
    grind
  have hlow : (st.word busy).extractLsb' 4 4 = 0#4 := by
    refine BitVec.eq_of_getLsbD_eq (fun i hi => ?_)
    rw [BitVec.getLsbD_extractLsb', Status.getLsbD_word, BitVec.getLsbD_zero]
    grind
  have hhigh : (st.word busy).extractLsb' 16 16 = 0#16 := by
    refine BitVec.eq_of_getLsbD_eq (fun i hi => ?_)
    rw [BitVec.getLsbD_extractLsb', Status.getLsbD_word, BitVec.getLsbD_zero]
    grind
  exact ⟨st.getLsbD_word busy 0, st.getLsbD_word busy 1, st.getLsbD_word busy 2, st.getLsbD_word busy 3, hcode, hlow,
    hhigh⟩

theorem LfsrCfg.word_fields (c : LfsrCfg) :
    c.word.extractLsb' 0 6 = c.n ∧ c.word.getLsbD 8 = c.oten ∧ c.word &&& 0xFFFFFEC0#32 = 0#32 := by
  have hn : c.word.extractLsb' 0 6 = c.n := by
    refine BitVec.eq_of_getLsbD_eq (fun i hi => ?_)
    simp [LfsrCfg.getLsbD_word, hi]
  have hoten : c.word.getLsbD 8 = c.oten := c.getLsbD_word 8
  have hstored : c.word &&& 0x0000013F#32 = c.word := by rw [← cfgOfWord_word, cfgOfWord, hn, hoten]
  refine ⟨hn, hoten, ?_⟩
  rw [← hstored, BitVec.and_assoc]
  exact BitVec.and_zero

theorem CvPoly.word_fields (p : CvPoly) :
    p.word.extractLsb' 0 7 = p.ga ∧ p.word.extractLsb' 8 7 = p.gb ∧ p.word.getLsbD 16 = p.inva ∧
      p.word.getLsbD 17 = p.invb ∧ p.word &&& 0xFFFC8080#32 = 0#32 := by
  have hga : p.word.extractLsb' 0 7 = p.ga := by
    refine BitVec.eq_of_getLsbD_eq (fun i hi => ?_)
    simp [CvPoly.getLsbD_word, hi]
  have hgb : p.word.extractLsb' 8 7 = p.gb := by
    refine BitVec.eq_of_getLsbD_eq (fun i hi => ?_)
    rw [BitVec.getLsbD_extractLsb', CvPoly.getLsbD_word]
    grind
  have hinva : p.word.getLsbD 16 = p.inva := p.getLsbD_word 16
  have hinvb : p.word.getLsbD 17 = p.invb := p.getLsbD_word 17
  have hstored : p.word &&& 0x00037F7F#32 = p.word := by
    rw [← polyOfWord_word, polyOfWord, hga, hgb, hinva, hinvb]
  refine ⟨hga, hgb, hinva, hinvb, ?_⟩
  rw [← hstored, BitVec.and_assoc]
  exact BitVec.and_zero

theorem CvCap.word_fields (c : CvCap) :
    c.word.getLsbD 31 = c.valid ∧ c.word.extractLsb' 6 25 = 0#25 ∧ c.word.extractLsb' 0 6 = c.state := by
  have hreserved : c.word.extractLsb' 6 25 = 0#25 := by
    refine BitVec.eq_of_getLsbD_eq (fun i hi => ?_)
    rw [BitVec.getLsbD_extractLsb', CvCap.getLsbD_word, BitVec.getLsbD_zero]
    grind
  have hstate : c.word.extractLsb' 0 6 = c.state := by
    refine BitVec.eq_of_getLsbD_eq (fun i hi => ?_)
    simp [CvCap.getLsbD_word, hi]
  exact ⟨c.getLsbD_word 31, hreserved, hstate⟩

/-! ### Reads -/

/-- NDUAL counts the first pattern set and the further ones. -/
theorem countWord_dualPatsets {p : Params} (h : 1 + p.dualRest.length < 2 ^ 32) :
    countWord p.dualPatsets.length = BitVec.ofNat 32 (1 + p.dualRest.length) := by
  have hlength : p.dualPatsets.length = 1 + p.dualRest.length := Nat.add_comm _ _
  rw [hlength, countWord_of_lt h]

/-- Settles O39: the answer is the word at the offset, which is its register's, and the fields of the registers with
reserved bits are read off their words. -/
theorem registerReadsHaveNoEffect : Obligations.RegisterReadsHaveNoEffect := by
  intro s o rest hrange halign hi
  have hreg : ∀ r, o = regOffset r → s.readWindow o = s.readReg r := s.readWindow_of_regOffset
  refine ⟨s.readWindow o, step_readWindow hrange halign hi, hreg .id, hreg .ctrl, fun h => ?status, hreg .cmd,
    hreg .arg0, hreg .arg1, hreg .arg2, hreg .arg3, hreg .arg4, hreg .arg5, hreg .arg6, hreg .arg7,
    hreg .res0, hreg .res1, hreg .res2, hreg .res3, hreg .memsize,
    fun h hfits => (hreg .nsig h).trans (countWord_of_lt hfits),
    fun h hfits => (hreg .ndual h).trans (countWord_dualPatsets hfits),
    fun h => ?l0cfg, hreg .l0state, hreg .l0fb, hreg .l0ot, fun h => ?l1cfg, hreg .l1state, hreg .l1fb, hreg .l1ot,
    fun h => ?cvpoly, fun h => ?cvcap, s.readWindow_reserved, hreg⟩
  case status => rw [hreg .status h]; exact s.status.word_fields s.engine.busy
  case l0cfg => rw [hreg .l0cfg h]; exact s.u0.cfg.word_fields
  case l1cfg => rw [hreg .l1cfg h]; exact s.u1.cfg.word_fields
  case cvpoly => rw [hreg .cvpoly h]; exact s.cvpoly.word_fields
  case cvcap => rw [hreg .cvcap h]; exact s.cvcap.word_fields

/-! ### Writes that store -/

/-- The bits a host write stores, of the registers it only stores to: neither read-only nor CTRL or CMD, which act. -/
def writableBits : Reg → Option Word
  | .arg0 | .arg1 | .arg2 | .arg3 | .arg4 | .arg5 | .arg6 | .arg7
  | .l0state | .l0fb | .l0ot | .l1state | .l1fb | .l1ot => some 0xFFFFFFFF#32
  | .l0cfg | .l1cfg => some 0x0000013F#32
  | .cvpoly => some 0x00037F7F#32
  | _ => none

/-- A stored write reads back as its writable bits, the reserved ones as 0. -/
theorem State.readReg_writeReg_same (s : State) {r : Reg} {mask : Word} (hr : writableBits r = some mask) (v : Word) :
    (s.writeReg r v).readReg r = v &&& mask := by
  cases r <;> cases hr
  case l0cfg | l1cfg => exact cfgOfWord_word v
  case cvpoly => exact polyOfWord_word v
  all_goals exact (BitVec.and_allOnes (x := v)).symm

/-- No two registers share storage: a stored write changes no other register. -/
theorem State.readReg_writeReg_other (s : State) {r r' : Reg} {mask : Word} (hr : writableBits r = some mask)
    (hne : r' ≠ r) (v : Word) : (s.writeReg r v).readReg r' = s.readReg r' := by
  cases r <;> cases hr
  all_goals
    cases r'
    all_goals first | rfl | exact absurd rfl hne

/-- A stored write leaves the engine alone, running or idle. -/
theorem State.writeReg_engine (s : State) {r : Reg} {mask : Word} (hr : writableBits r = some mask) (v : Word) :
    (s.writeReg r v).engine = s.engine := by
  cases r <;> cases hr <;> rfl

/-- Settles O40: the write's step is the register's own write, whose effect the lemmas above state. -/
theorem registerWritesStoreWritableBits : Obligations.RegisterWritesStoreWritableBits := by
  intro s r v mask rest hr hi
  have hbits : writableBits r = some mask := by
    rcases hr with ⟨hr, rfl⟩ | ⟨hr, rfl⟩ | ⟨rfl, rfl⟩
    · clear hi; revert r; decide
    · clear hi; revert r; decide
    · rfl
  obtain ⟨hmem, hparams, hdraws, hinputs, _⟩ := ({ s with inputs := rest } : State).writeReg_keeps r v
  exact ⟨_, step_write hi, State.readReg_writeReg_same _ hbits v,
    fun r' hne => State.readReg_writeReg_other _ hbits hne v, State.writeReg_engine _ hbits v,
    hmem, hparams, hdraws, hinputs⟩

/-! ### Writes that are ignored -/

/-- The read-only registers (rules R24, R26, R29, R36 and R37). -/
def readOnlyRegs : List Reg := [.id, .status, .res0, .res1, .res2, .res3, .memsize, .nsig, .ndual, .cvcap]

theorem State.writeReg_readOnly (s : State) {r : Reg} (hr : r ∈ readOnlyRegs) (v : Word) : s.writeReg r v = s := by
  simp only [readOnlyRegs, List.mem_cons, List.not_mem_nil, or_false] at hr
  rcases hr with rfl | rfl | rfl | rfl | rfl | rfl | rfl | rfl | rfl | rfl <;> rfl

/-- A write of CTRL with SRST and CLR 0 does nothing, whatever its other bits (rule R25). -/
theorem State.writeReg_ctrl_ignored (s : State) {v : Word} (hsrst : v.getLsbD 0 = false) (hclr : v.getLsbD 1 = false) :
    s.writeReg .ctrl v = s := by
  simp only [State.writeReg, State.writeCtrl, hsrst, hclr, Bool.false_eq_true, if_false]

/-- Settles O41: each of the offsets is a read-only register's, a reserved one, or CTRL's. -/
theorem readOnlyWritesAreIgnored : Obligations.ReadOnlyWritesAreIgnored := by
  intro s o v rest ho hi
  have hlisted : ∀ o ∈ [0x00, 0x08, 0x30, 0x34, 0x38, 0x3C, 0x40, 0x44, 0x48, 0x4C, 0x74],
      (o < 256 ∧ o % 4 = 0) ∧ (o = 0x4C ∨ ∃ r ∈ readOnlyRegs, o = regOffset r) := by decide
  have hwindow : (o < 256 ∧ o % 4 = 0) ∧ ∀ t : State, t.writeWindow o v = t := by
    rcases ho with ho | ⟨hfrom, hrange, halign⟩ | ⟨rfl, hsrst, hclr⟩
    · obtain ⟨hreach, hreserved | ⟨r, hr, hreg⟩⟩ := hlisted o ho
      · exact ⟨hreach, fun t => t.writeWindow_reserved (.inl hreserved) v⟩
      · exact ⟨hreach, fun t => (t.writeWindow_of_regOffset r hreg v).trans (t.writeReg_readOnly hr v)⟩
    · exact ⟨⟨hrange, halign⟩, fun t => t.writeWindow_reserved (.inr hfrom) v⟩
    · exact ⟨by decide, fun t => (t.writeWindow_of_regOffset .ctrl rfl v).trans (t.writeReg_ctrl_ignored hsrst hclr)⟩
  obtain ⟨⟨hrange, halign⟩, hignored⟩ := hwindow
  rw [step_writeWindow hrange halign hi, hignored]
  rfl

end Sys2Proof.Machine
end

section
/-! The MEM window (rules R60 to R67): which accesses the port takes, what a read and a write of MEM do, when an access
waits for the engine, and what can change MEM. -/

namespace Sys2Proof.Machine

/-! ### Which accesses the port refuses -/

/-- The items of rule R62, by offset and width. -/
def portRefuses (memSize : Nat) (a : Access) : Prop :=
  (a.offset < 256 ∧ ¬(a.width = 4 ∧ a.offset % 4 = 0)) ∨
    (0x01000000 ≤ a.offset ∧ a.offset < 0x01000000 + memSize ∧
      (¬(a.width = 1 ∨ a.width = 2 ∨ a.width = 4) ∨ (a.offset - 0x01000000) % a.width ≠ 0 ∨
        memSize < a.offset - 0x01000000 + a.width)) ∨
    (256 ≤ a.offset ∧ a.offset < 0x01000000) ∨ 0x01000000 + memSize ≤ a.offset

/-- What the port takes is none of the items of rule R62. -/
theorem not_portRefuses_of_ok {n : Nat} {a : Access} {tg : Target} (h : portCheck n a = .ok tg) : ¬portRefuses n a := by
  unfold portRefuses
  rcases portCheck_ok h with ⟨_, hrange, hwidth, halign⟩ | ⟨m, _, hoffset, hwidth, halign, hend⟩
  · omega
  · have hm : a.offset - 0x01000000 = m := by omega
    have hpos : 0 < a.width := by omega
    rw [hm]
    omega

/-- The port's decision is an error exactly for the items of rule R62. -/
theorem portCheck_error_iff (n : Nat) (a : Access) : (∃ e, portCheck n a = .error e) ↔ portRefuses n a := by
  constructor
  · rintro ⟨e, he⟩
    exact portCheck_error he
  · intro hrefuses
    cases hcheck : portCheck n a with
    | error e => exact ⟨e, rfl⟩
    | ok tg => exact absurd hrefuses (not_portRefuses_of_ok hcheck)

/-- An access the port takes is answered with data or an acknowledgement. -/
theorem State.perform_answers (s : State) (tg : Target) (a : Access) (f : Fault) :
    (s.perform tg a).responses ≠ .fault f :: s.responses := by
  cases tg with
  | register o => cases a <;> simp [State.perform]
  | memory m => cases a <;> simp [State.perform]

/-! ### The stall -/

/-- An access that can stall is one of the MEM window. -/
theorem stalled_eq_false {s : State} {a : Access}
    (h : s.engine = .idle ∨ a.offset < 0x01000000 ∨ 0x01000000 + s.params.memSize ≤ a.offset) :
    stalled s a = false := by
  rcases h with hidle | houtside
  · simp [stalled, hidle]
  · have hwindow : inMemWindow s.params.memSize a = false := by
      rw [Bool.eq_false_iff, Ne, inMemWindow_iff]
      omega
    simp [stalled, hwindow]

/-- A MEM-window access that does not stall finds the engine idle. -/
theorem idle_of_not_stalled {s : State} {a : Access} (h : stalled s a = false)
    (hwindow : inMemWindow s.params.memSize a = true) : s.engine = .idle := by
  cases hengine : s.engine with
  | idle => rfl
  | running w sn => simp [stalled, hengine, hwindow] at h

/-- The step on an access that does not stall: the port's decision, performed or recorded as a fault. -/
theorem step_access {s : State} {a : Access} {rest : List Input} (hi : s.inputs = .access a :: rest)
    (hstall : stalled s a = false) : step s = .next (hostAccess a { s with inputs := rest }) := by
  simp [step, takeStep, hi, hstall]

/-- The step on an access that stalls is the engine's. -/
theorem step_stalled {s : State} {a : Access} {rest : List Input} (hi : s.inputs = .access a :: rest)
    (hstall : stalled s a = true) : step s = engineStep s := by
  simp [step, takeStep, hi, hstall]

/-- Settles O42: the step records a fault exactly when the port's decision is an error. -/
theorem portRefusesExactlyTheListed : Obligations.PortRefusesExactlyTheListed := by
  intro s a rest hi hturn
  have hstall : stalled s a = false := stalled_eq_false hturn
  refine Iff.trans ?_ (portCheck_error_iff s.params.memSize a)
  constructor
  · rintro ⟨why, hstep⟩
    cases hcheck : portCheck s.params.memSize a with
    | error e => exact ⟨e, rfl⟩
    | ok tg =>
      rw [step_access hi hstall, hostAccess, hcheck] at hstep
      injection hstep with hnext
      exact absurd (congrArg State.responses hnext) (State.perform_answers _ tg a _)
  · rintro ⟨e, hcheck⟩
    exact ⟨e, step_refused hi hstall hcheck⟩

/-- No command touches what the model keeps of the port: the waiting inputs and the answers given. -/
theorem exec_port {i : Instr} {s t : State} (h : exec i s = .next t) :
    t.inputs = s.inputs ∧ t.responses = s.responses := by
  rcases exec_cases h with ⟨w, d, _, rfl⟩ | ⟨e, d, _, rfl⟩
  · exact ⟨rfl, rfl⟩
  · exact ⟨rfl, rfl⟩

theorem engineStep_port {s t : State} (h : engineStep s = .next t) :
    t.inputs = s.inputs ∧ t.responses = s.responses := by
  rcases engineStep_cases h with ⟨_, rfl⟩ | ⟨w, sn, i, _, _, hexec⟩ | ⟨w, sn, e, _, _, rfl⟩
  · exact ⟨rfl, rfl⟩
  · exact exec_port hexec
  · exact ⟨rfl, rfl⟩

/-- Settles O46: the access stalls, so the step is the engine's turn. -/
theorem memAccessStallsWhileBusy : Obligations.MemAccessStallsWhileBusy := by
  intro s w sn a rest hengine hi hfrom hend
  have hwindow : inMemWindow s.params.memSize a = true := (inMemWindow_iff _ a).2 ⟨hfrom, hend⟩
  have hstall : stalled s a = true := by simp [stalled, hengine, hwindow]
  obtain ⟨t, hturn⟩ := engineStep_next s
  obtain ⟨hinputs, hresponses⟩ := engineStep_port hturn
  exact ⟨t, (step_stalled hi hstall).trans hturn, engineStep_idle hturn, hinputs.trans hi, hresponses⟩

/-! ### What changes MEM -/

/-- A command that changes MEM completes without error. -/
theorem exec_mem {i : Instr} {s t : State} (h : exec i s = .next t) (hmem : t.mem ≠ s.mem) :
    t.status.done = true ∧ t.status.err = false := by
  rcases exec_cases h with ⟨w, d, _, rfl⟩ | ⟨e, d, _, rfl⟩
  · exact ⟨rfl, rfl⟩
  · exact absurd rfl hmem

/-- The engine's turn changes MEM only by completing a running command without error. -/
theorem engineStep_mem {s t : State} (h : engineStep s = .next t) (hmem : t.mem ≠ s.mem) :
    s.engine.busy = true ∧ t.engine = .idle ∧ t.status.done = true ∧ t.status.err = false := by
  rcases engineStep_cases h with ⟨_, rfl⟩ | ⟨w, sn, i, hengine, _, hexec⟩ | ⟨w, sn, e, _, _, rfl⟩
  · exact absurd rfl hmem
  · exact ⟨by rw [hengine]; rfl, engineStep_idle h, exec_mem hexec hmem⟩
  · exact absurd rfl hmem

/-- No register of the window is a byte of MEM. -/
@[simp] theorem State.writeWindow_mem (s : State) (o : Nat) (v : Word) : (s.writeWindow o v).mem = s.mem := by
  unfold State.writeWindow
  cases regAt o with
  | none => rfl
  | some r =>
    obtain ⟨hmem, _⟩ := s.writeReg_keeps r v
    exact hmem

/-- Of the accesses the port takes, only a write of the MEM window changes MEM. -/
theorem State.perform_mem {s : State} {tg : Target} {a : Access} (hmem : (s.perform tg a).mem ≠ s.mem) :
    ∃ m o w v, tg = .memory m ∧ a = .write o w v := by
  cases tg with
  | register o => cases a <;> simp [State.perform] at hmem
  | memory m =>
    cases a with
    | read o w => exact absurd rfl hmem
    | write o w v => exact ⟨m, o, w, v, rfl, rfl⟩

/-- Settles O55: of the ways a step can go (`step_cases`), the engine's turn, a hardware reset and a performed write of
the MEM window are those that can change MEM. -/
theorem memChangesOnlyByThreeEvents : Obligations.MemChangesOnlyByThreeEvents := by
  intro s t hstep hmem
  rcases step_cases hstep with ⟨hturn, _⟩ | ⟨rest, _, hturn⟩ | ⟨rest, hi, rfl⟩ | ⟨a, rest, tg, hi, hstall, hcheck, rfl⟩ |
    ⟨a, rest, e, _, _, _, rfl⟩
  · exact .inl (engineStep_mem hturn hmem)
  · exact .inl (engineStep_mem (s := { s with inputs := rest }) hturn hmem)
  · exact .inr (.inl ⟨rest, hi⟩)
  · obtain ⟨m, o, w, v, rfl, rfl⟩ := State.perform_mem hmem
    rcases portCheck_ok hcheck with ⟨htarget, _⟩ | ⟨m', _, hoffset, hwidth, _, hend⟩
    · cases htarget
    · have hwindow : inMemWindow s.params.memSize (.write o w v) = true := by
        rw [inMemWindow_iff]
        omega
      have hfrom : 0x01000000 ≤ o := by
        simp only [Access.offset] at hoffset
        omega
      exact .inr (.inr ⟨idle_of_not_stalled hstall hwindow, o, w, v, rest, hi, hfrom⟩)
  · exact absurd rfl hmem

/-! ### Reads and writes of MEM -/

/-- The step on a MEM read the port takes, while idle. -/
theorem step_readMem {s : State} {a w : Nat} {rest : List Input} (hidle : s.engine = .idle)
    (hw : w = 1 ∨ w = 2 ∨ w = 4) (halign : a % w = 0) (hend : a + w ≤ s.params.memSize)
    (hi : s.inputs = .access (.read (0x01000000 + a) w) :: rest) :
    step s = .next (({ s with inputs := rest } : State).readMem a w) :=
  step_memory hidle hi rfl hw halign hend

/-- The step on a MEM write the port takes, while idle. -/
theorem step_writeMem {s : State} {a w : Nat} {v : Word} {rest : List Input} (hidle : s.engine = .idle)
    (hw : w = 1 ∨ w = 2 ∨ w = 4) (halign : a % w = 0) (hend : a + w ≤ s.params.memSize)
    (hi : s.inputs = .access (.write (0x01000000 + a) w v) :: rest) :
    step s = .next (({ s with inputs := rest } : State).writeMem a w v) :=
  step_memory hidle hi rfl hw halign hend

/-- Byte i of a written word stands at address a+i. -/
theorem Memory.peek_pokes_bytesOfWord (m : Memory) (a : Nat) (v : Word) {w i : Nat} (hi : i < w) :
    (m.pokes a (bytesOfWord v w)).peek (a + i) = some (v.extractLsb' (8 * i) 8) := by
  rw [Memory.peek_pokes, length_bytesOfWord, if_pos (by omega), Nat.add_sub_cancel_left, getElem?_bytesOfWord v hi]

/-- A written region leaves every other byte as it was. -/
theorem Memory.peek_pokes_outside (m : Memory) {a x : Nat} {bs : List Byte} (hx : x < a ∨ a + bs.length ≤ x) :
    (m.pokes a bs).peek x = m.peek x := by
  rw [Memory.peek_pokes, if_neg (by omega)]

/-- Settles O43: the step writes the word's bytes as one region. -/
theorem memWriteIsLittleEndian : Obligations.MemWriteIsLittleEndian := by
  intro s a w v rest hidle hw halign hend hi
  refine ⟨_, step_writeMem hidle hw halign hend hi, rfl, fun i hlt => ?_, fun x hx => ?_⟩
  · exact Memory.peek_pokes_bytesOfWord s.mem a v hlt
  · exact Memory.peek_pokes_outside s.mem (by rwa [length_bytesOfWord])

/-- Bits [8i+7:8i] of a little-endian word are its byte i. -/
theorem extractLsb'_wordOfBytes {bs : List Byte} {i : Nat} (hi : i < bs.length) (hlen : bs.length ≤ 4) :
    some ((wordOfBytes bs).extractLsb' (8 * i) 8) = bs[i]? := by
  rw [List.getElem?_eq_getElem hi]
  refine congrArg some (BitVec.eq_of_getLsbD_eq (fun j hj => ?_))
  rw [BitVec.getLsbD_extractLsb', getLsbD_wordOfBytes bs (by omega) hj, List.getElem?_eq_getElem hi]
  simp [hj]

/-- A little-endian word has no bit above its bytes. -/
theorem toNat_wordOfBytes_lt (bs : List Byte) : (wordOfBytes bs).toNat < 2 ^ (8 * bs.length) := by
  rw [← ushiftRight_eq_zero_iff_lt, ushiftRight_eq_zero_iff]
  intro k hk
  by_cases hk32 : k < 32
  · rw [← Nat.div_add_mod k 8, getLsbD_wordOfBytes bs (by omega) (by omega),
      List.getElem?_eq_none (show bs.length ≤ k / 8 by omega)]
    exact BitVec.getLsbD_zero
  · exact BitVec.getLsbD_of_ge _ _ (by omega)

/-- A read of defined bytes answers them as a little-endian word and changes nothing else. -/
theorem State.readMem_of_holds {s : State} {a : Nat} {bs : List Byte} (h : holds s.mem a bs) :
    s.readMem a bs.length = { s with responses := .data (wordOfBytes bs) :: s.responses } := by
  simp only [State.readMem, readBytes_of_holds s.draws h, State.respond]

/-- Settles O44: the step answers the little-endian word of the bytes. -/
theorem memReadIsLittleEndian : Obligations.MemReadIsLittleEndian := by
  intro s a w bytes rest hidle hw halign hend hlen hbytes hi
  subst hlen
  refine ⟨wordOfBytes bytes, ?_, fun i hlt => extractLsb'_wordOfBytes hlt (by omega), toNat_wordOfBytes_lt bytes⟩
  exact (step_readMem hidle hw halign hend hi).trans (congrArg _ (State.readMem_of_holds hbytes))

/-- A read of one undefined byte answers the next draw and spends it. -/
theorem State.readMem_of_undefined {s : State} {a : Nat} (h : s.mem.peek a = none) :
    s.readMem a 1 =
      { s with
        draws := s.draws + 1
        responses := .data ((Config.freeByte s.draws).setWidth 32) :: s.responses } := by
  simp [State.readMem, readBytes, readByte_none h, wordOfBytes, State.respond]

/-- The step on a read of one undefined byte, while idle. -/
theorem step_readUndefined {s : State} {a : Nat} {rest : List Input} (hidle : s.engine = .idle)
    (hlt : a < s.params.memSize) (hundefined : s.mem.peek a = none)
    (hi : s.inputs = .access (.read (0x01000000 + a) 1) :: rest) :
    step s = .next
      { s with
        inputs := rest
        draws := s.draws + 1
        responses := .data ((Config.freeByte s.draws).setWidth 32) :: s.responses } :=
  (step_readMem hidle (.inl rfl) (Nat.mod_one a) hlt hi).trans (congrArg _ (State.readMem_of_undefined hundefined))

/-- Settles O45: the first read leaves the byte undefined, so the second makes the next draw. -/
theorem undefinedByteReadsAreFreshDraws : Obligations.UndefinedByteReadsAreFreshDraws := by
  intro s a rest hidle hlt hundefined hi
  refine ⟨_, step_readUndefined hidle hlt hundefined hi, hundefined, ?_⟩
  exact step_readUndefined hidle hlt hundefined rfl

/-! ### Input bytes of a command -/

/-- `Exec` of a command over the input bytes `bs`: the writes it stages when each is a bit, else E_BITVAL (rule R75). -/
def bitChecked (r : ExecResult) (bs : List Byte) : Prop :=
  ((∀ x ∈ bs, isBit x) ∧ ∃ w, r = .ok w) ∨ ((¬∀ x ∈ bs, isBit x) ∧ r = .error .bitVal)

/-- The two ways an input decodes. -/
theorem bitsIn_cases (bs : List Byte) :
    ((∀ x ∈ bs, isBit x) ∧ ∃ xs, bitsIn bs = some xs) ∨ ((¬∀ x ∈ bs, isBit x) ∧ bitsIn bs = none) := by
  rw [← bitsIn_isSome]
  cases bitsIn bs with
  | none => exact .inr ⟨by simp, rfl⟩
  | some xs => exact .inl ⟨⟨xs, rfl⟩, xs, rfl⟩

/-- A command completes with its result and the draws it made. -/
theorem exec_of_result {i : Instr} {s : State} {r : ExecResult} {d : Nat} (h : commandResult i s = (r, d)) :
    exec i s = .next (s.completeDrawing (r, d)) := by
  rw [exec_eq, h]

/-- A completion whose result is that of a bit check: no error exactly when each byte is a bit, and an error commits
nothing. -/
theorem State.completeDrawing_of_bitChecked {s : State} {r : ExecResult} {bs : List Byte} (h : bitChecked r bs)
    (d : Nat) :
    ((s.completeDrawing (r, d)).status.err = false ↔ ∀ x ∈ bs, isBit x) ∧
      ((s.completeDrawing (r, d)).status.err = true →
        s.completeDrawing (r, d) = { s.doneErr 10#8 with draws := d }) := by
  rcases h with ⟨hbits, w, rfl⟩ | ⟨hbad, rfl⟩
  · exact ⟨iff_of_true rfl hbits, fun herr => absurd herr Bool.false_ne_true⟩
  · exact ⟨iff_of_false Bool.noConfusion hbad, fun _ => rfl⟩

/-- CONV_ENCODE on legal operands checks the bytes of its input region. -/
theorem commandResult_convEncode {s : State} (hseed : s.snap.args.a4.toNat < 2 ^ 6)
    (hcap : s.snap.args.a3.toNat < s.snap.args.a1.toNat) (hin : s.inMem s.snap.args.a0.toNat s.snap.args.a1.toNat)
    (hout : s.inMem s.snap.args.a2.toNat (2 * s.snap.args.a1.toNat)) :
    ∃ r, commandResult .convEncode s =
        (r, (readBytes s.mem s.draws s.snap.args.a0.toNat s.snap.args.a1.toNat).2) ∧
      bitChecked r (readBytes s.mem s.draws s.snap.args.a0.toNat s.snap.args.a1.toNat).1 := by
  rw [← ushiftRight_eq_zero_iff_lt] at hseed
  rw [← legal_eq_inMem] at hin hout
  simp only [commandResult, runConvEncode]
  rw [if_neg (not_not.2 hseed), if_neg (by omega), if_neg (not_not.2 ⟨hin, hout⟩)]
  refine ⟨_, rfl, ?_⟩
  rcases bitsIn_cases (readBytes s.mem s.draws s.snap.args.a0.toNat s.snap.args.a1.toNat).1 with
    ⟨hbits, xs, hxs⟩ | ⟨hbad, hnone⟩
  · exact .inl ⟨hbits, _, by rw [hxs]⟩
  · exact .inr ⟨hbad, by rw [hnone]⟩

/-- MUX_DUAL on legal operands checks the bytes of its two input regions. -/
theorem commandResult_muxDual {s : State} (hindex : s.snap.args.a0.toNat < 1 + s.params.dualRest.length)
    (hin0 : s.inMem s.snap.args.a1.toNat s.snap.args.a3.toNat)
    (hin1 : s.inMem s.snap.args.a2.toNat s.snap.args.a3.toNat)
    (hout : s.inMem s.snap.args.a4.toNat (12 * s.snap.args.a3.toNat)) {c0 c1 : List Byte × Nat}
    (hc0 : c0 = readBytes s.mem s.draws s.snap.args.a1.toNat s.snap.args.a3.toNat)
    (hc1 : c1 = readBytes s.mem c0.2 s.snap.args.a2.toNat s.snap.args.a3.toNat) :
    ∃ r, commandResult .muxDual s = (r, c1.2) ∧ bitChecked r (c0.1 ++ c1.1) := by
  have hlist : s.snap.args.a0.toNat < s.params.dualPatsets.length := by
    simp only [Params.dualPatsets, List.length_cons]
    omega
  rw [← legal_eq_inMem] at hin0 hin1 hout
  simp only [commandResult, runMuxDual, List.getElem?_eq_getElem hlist]
  rw [if_neg (not_not.2 ⟨hin0, hin1, hout⟩), ← hc0, ← hc1]
  refine ⟨_, rfl, ?_⟩
  simp only [bitChecked, List.forall_mem_append]
  rcases bitsIn_cases c0.1 with ⟨hbits0, xs, hxs⟩ | ⟨hbad, hnone⟩
  · rcases bitsIn_cases c1.1 with ⟨hbits1, ys, hys⟩ | ⟨hbad, hnone⟩
    · exact .inl ⟨⟨hbits0, hbits1⟩, _, by rw [hxs, hys]⟩
    · exact .inr ⟨fun h => hbad h.2, by rw [hxs, hnone]⟩
  · exact .inr ⟨fun h => hbad h.1, by rw [hnone]⟩

/-- The writes of MUX_ALTBOC check the bytes of the four codes. -/
theorem altWrites_bitChecked (p : Params) (a : Args) (b0 b1 b2 b3 : List Byte) :
    bitChecked (altWrites p a (b0, b1, b2, b3)) (b0 ++ b1 ++ b2 ++ b3) := by
  simp only [bitChecked, List.forall_mem_append, altWrites]
  rcases bitsIn_cases b0 with ⟨hbits0, x0, hx0⟩ | ⟨hbad, hnone⟩
  · rcases bitsIn_cases b1 with ⟨hbits1, x1, hx1⟩ | ⟨hbad, hnone⟩
    · rcases bitsIn_cases b2 with ⟨hbits2, x2, hx2⟩ | ⟨hbad, hnone⟩
      · rcases bitsIn_cases b3 with ⟨hbits3, x3, hx3⟩ | ⟨hbad, hnone⟩
        · exact .inl ⟨⟨⟨⟨hbits0, hbits1⟩, hbits2⟩, hbits3⟩, _, by rw [hx0, hx1, hx2, hx3]⟩
        · exact .inr ⟨fun ⟨_, h⟩ => hbad h, by rw [hx0, hx1, hx2, hnone]⟩
      · exact .inr ⟨fun ⟨⟨_, h⟩, _⟩ => hbad h, by rw [hx0, hx1, hnone]⟩
    · exact .inr ⟨fun ⟨⟨⟨_, h⟩, _⟩, _⟩ => hbad h, by rw [hx0, hnone]⟩
  · exact .inr ⟨fun ⟨⟨⟨h, _⟩, _⟩, _⟩ => hbad h, by rw [hnone]⟩

/-- MUX_ALTBOC on legal operands stages the writes over the four codes it reads. -/
theorem commandResult_muxAltboc {s : State} (hindex : s.snap.args.a7.toNat < 16)
    (heven : s.snap.args.a4.toNat % 2 = 0) (hin0 : s.inMem s.snap.args.a0.toNat s.snap.args.a4.toNat)
    (hin1 : s.inMem s.snap.args.a1.toNat s.snap.args.a4.toNat)
    (hin2 : s.inMem s.snap.args.a2.toNat s.snap.args.a4.toNat)
    (hin3 : s.inMem s.snap.args.a3.toNat s.snap.args.a4.toNat)
    (houtI : s.inMem s.snap.args.a5.toNat (12 * s.snap.args.a4.toNat))
    (houtQ : s.inMem s.snap.args.a6.toNat (12 * s.snap.args.a4.toNat)) :
    commandResult .muxAltboc s =
      (altWrites s.params s.snap.args (readCodes s.mem s.draws s.snap.args).1,
        (readCodes s.mem s.draws s.snap.args).2) := by
  have hregions : altRegionsLegal s.params.memSize s.snap.args = true := by
    simp only [altRegionsLegal, Bool.and_eq_true, legal_eq_inMem]
    exact ⟨⟨⟨⟨⟨hin0, hin1⟩, hin2⟩, hin3⟩, houtI⟩, houtQ⟩
  have hnibble : s.snap.args.a7 >>> 4 = 0#32 := (ushiftRight_eq_zero_iff_lt _ 4).2 hindex
  simp only [commandResult, runMuxAltboc]
  rw [if_neg (not_not.2 hnibble), if_neg (not_not.2 heven), if_neg (by simp [hregions])]

/-- Settles O38: each command's result is that of a check of the bytes it reads, region after region. -/
theorem undefinedInputIsDrawn : Obligations.UndefinedInputIsDrawn := by
  intro s
  refine ⟨fun hseed hcap hin hout => ?conv, fun hindex hin0 hin1 hout => ?dual,
    fun hindex heven hin0 hin1 hin2 hin3 houtI houtQ => ?altboc⟩
  case conv =>
    obtain ⟨r, hresult, hbits⟩ := commandResult_convEncode hseed hcap hin hout
    refine ⟨_, _, exec_of_result hresult, length_readBytes .., reads_readBytes .., ?_,
      State.completeDrawing_of_bitChecked hbits _⟩
    rw [length_readBytes]
    exact readBytes_undefinedIn ..
  case dual =>
    obtain ⟨r, hresult, hbits⟩ := commandResult_muxDual hindex hin0 hin1 hout rfl rfl
    refine ⟨_, _, _, _, exec_of_result hresult, length_readBytes .., length_readBytes ..,
      reads_readBytes .., reads_readBytes .., ?_, State.completeDrawing_of_bitChecked hbits _⟩
    rw [length_readBytes, length_readBytes, ← readBytes_undefinedIn s.mem s.draws, ← readBytes_undefinedIn]
    rfl
  case altboc =>
    have hresult := commandResult_muxAltboc hindex heven hin0 hin1 hin2 hin3 houtI houtQ
    refine ⟨_, _, _, _, _, _, _, _, exec_of_result hresult,
      ⟨length_readBytes .., length_readBytes .., length_readBytes .., length_readBytes ..⟩,
      reads_readBytes .., reads_readBytes .., reads_readBytes .., reads_readBytes .., ?_,
      State.completeDrawing_of_bitChecked (altWrites_bitChecked s.params s.snap.args _ _ _ _) _⟩
    rw [length_readBytes, length_readBytes, length_readBytes, length_readBytes,
      ← readBytes_undefinedIn s.mem s.draws, ← readBytes_undefinedIn, ← readBytes_undefinedIn, ← readBytes_undefinedIn]
    rfl

end Sys2Proof.Machine
end

section
/-! The encoding of commands (rules R90 to R95): the fields of a command word, what the decoder and the encoder each say
of them, and which words are legal. -/

namespace Sys2Proof

/-! ### The fields of a command word (rule R90) -/

/-- Concatenations of the same widths are equal exactly when their parts are. -/
theorem append_eq_append_iff {m n : Nat} (a c : BitVec m) (b d : BitVec n) : a ++ b = c ++ d ↔ a = c ∧ b = d := by
  constructor
  · intro h
    have hhigh := congrArg (BitVec.extractLsb' n m) h
    have hlow := congrArg (BitVec.extractLsb' 0 n) h
    rw [BitVec.extractLsb'_append_eq_left, BitVec.extractLsb'_append_eq_left] at hhigh
    rw [BitVec.extractLsb'_append_eq_right, BitVec.extractLsb'_append_eq_right] at hlow
    exact ⟨hhigh, hlow⟩
  · rintro ⟨rfl, rfl⟩
    rfl

/-- A word is its bits [31:9], U and OP one after the other. -/
theorem word_eq_fields (w : Word) : w.extractLsb' 9 23 ++ w.extractLsb' 8 1 ++ w.extractLsb' 0 8 = w := by
  rw [BitVec.extractLsb'_append_extractLsb'_eq_extractLsb' (start₁ := 8) (len₁ := 1) rfl,
    BitVec.extractLsb'_append_extractLsb'_eq_extractLsb' (start₁ := 0) (len₁ := 8) rfl]
  exact BitVec.extractLsb'_eq_self

/-- Bit 8 selects a unit exactly when it holds that unit's field. -/
theorem unitOfWord_eq_iff (w : Word) (u : UnitSel) : unitOfWord w = u ↔ w.extractLsb' 8 1 = unitField u := by
  have hbit : w.extractLsb' 8 1 = BitVec.ofBool (w.getLsbD 8) := by
    refine BitVec.eq_of_getLsbD_eq (fun i hi => ?_)
    obtain rfl : i = 0 := by omega
    simp
  rw [hbit, unitOfWord]
  cases w.getLsbD 8 <;> cases u <;> decide

theorem unitOfWord_eq_u0_iff (w : Word) : unitOfWord w = .u0 ↔ w.getLsbD 8 = false := by
  unfold unitOfWord
  cases w.getLsbD 8 <;> decide

theorem opField_toNat (w : Word) : (w.extractLsb' 0 8).toNat = w.toNat % 256 := by
  simp [BitVec.extractLsb'_toNat]

theorem reservedField_eq_zero_iff (w : Word) : w.extractLsb' 9 23 = 0#23 ↔ w.toNat / 512 = 0 := by
  rw [← BitVec.toNat_inj, BitVec.extractLsb'_toNat, Nat.shiftRight_eq_div_pow]
  have hw := w.isLt
  simp only [BitVec.toNat_ofNat]
  omega

/-! ### The decoder and the encoder -/

/-- The rows of rule R92, read from the opcode: a command is the row of its own opcode and unit, and of no other. -/
theorem decodeOpcode_eq_ok_iff (op : Nat) (u : UnitSel) (i : Instr) :
    decodeOpcode op u = .ok i ↔ op = (opcodeOf i).toNat ∧ u = unitOf i := by
  constructor
  · intro h
    unfold decodeOpcode at h
    split at h
    all_goals
      cases u <;> cases h <;> exact ⟨rfl, rfl⟩
  · rintro ⟨rfl, rfl⟩
    cases i <;> rfl

/-- A command without a unit decodes with U 0 only. -/
theorem unitless_isOk_iff (i : Instr) (u : UnitSel) : (∃ j, unitless i u = .ok j) ↔ u = .u0 := by
  cases u <;> simp [unitless]

/-- The opcodes that decode are those of rule R92, with U 0 unless the opcode is an LFSR one. -/
theorem decodeOpcode_isOk_iff (op : Nat) (u : UnitSel) :
    (∃ i, decodeOpcode op u = .ok i) ↔ op ∈ opcodes ∧ (u = .u0 ∨ op ∈ unitOpcodes) := by
  unfold decodeOpcode
  split
  case h_18 =>
    have hunlisted : op ∉ opcodes := by simp_all [opcodes]
    simp [hunlisted]
  all_goals simp [unitless_isOk_iff, opcodes, unitOpcodes]

/-- A word decodes to a command exactly when its three fields are that command's. -/
theorem decode_eq_ok_iff (w : Word) (i : Instr) :
    decode w = .ok i ↔
      w.extractLsb' 9 23 = 0#23 ∧ w.extractLsb' 8 1 = unitField (unitOf i) ∧ w.extractLsb' 0 8 = opcodeOf i := by
  unfold decode
  split
  · next hreserved =>
    rw [decodeOpcode_eq_ok_iff, BitVec.toNat_inj, unitOfWord_eq_iff, and_comm]
    simp [hreserved]
  · next hreserved => simp [hreserved]

/-- A word is a command's encoding exactly when its three fields are that command's. -/
theorem encode_eq_iff (w : Word) (i : Instr) :
    encode i = w ↔
      w.extractLsb' 9 23 = 0#23 ∧ w.extractLsb' 8 1 = unitField (unitOf i) ∧ w.extractLsb' 0 8 = opcodeOf i := by
  conv_lhs => rw [← word_eq_fields w, encode, eq_comm]
  rw [append_eq_append_iff, append_eq_append_iff, and_assoc]

/-- Settles O2: the decoder and the encoder ask the same of the word's fields. -/
theorem decodeInvertsEncode : Obligations.DecodeInvertsEncode := by
  intro w i
  exact (decode_eq_ok_iff w i).trans (encode_eq_iff w i).symm

/-! ### Legal words (rule R91) -/

/-- A word decodes exactly when its reserved bits are 0 and its opcode decodes with its unit. -/
theorem decode_isOk_iff (w : Word) :
    (∃ i, decode w = .ok i) ↔
      w.toNat / 512 = 0 ∧ ∃ i, decodeOpcode (w.toNat % 256) (unitOfWord w) = .ok i := by
  rw [← reservedField_eq_zero_iff, ← opField_toNat]
  unfold decode
  split
  all_goals next hreserved => simp [hreserved]

/-- Settles O3: the reserved bits are the decoder's own check, the opcode and the unit those of its table. -/
theorem decodableWordsAreTheLegalOnes : Obligations.DecodableWordsAreTheLegalOnes := by
  intro w
  rw [decode_isOk_iff, decodeOpcode_isOk_iff, unitOfWord_eq_u0_iff, and_left_comm]
  simp only [unitOpcodes, opcodes, List.mem_cons, List.not_mem_nil, or_false]

/-- Settles O1: each word is read off as the fields of its command. -/
theorem listedWordsDecode : Obligations.ListedWordsDecode := by
  unfold Obligations.ListedWordsDecode
  simp only [decode_eq_ok_iff]
  decide

end Sys2Proof
end

section
/-! Illegal command words (rule R91): accepted like any other (rule R110), and completed with E_OPCODE whenever the
engine has the turn (rules R113, R261 and R263). -/

namespace Sys2Proof.Machine

/-- A word that decodes to no command is rejected by name. -/
theorem decode_error_of_not_ok {w : Word} (h : ¬∃ i, decode w = .ok i) : ∃ e, decode w = .error e := by
  cases hd : decode w with
  | error e => exact ⟨e, rfl⟩
  | ok i => exact absurd ⟨i, hd⟩ h

/-- A write of CMD while idle is an acceptance, whatever the word (rule R110). -/
theorem State.writeReg_cmd_idle {s : State} (hidle : s.engine = .idle) (w : Word) :
    s.writeReg .cmd w = s.accept w := by
  simp [State.writeReg, State.writeCmd, hidle]

/-- The step on a write of CMD while idle. -/
theorem step_accept {s : State} {w : Word} {rest : List Input} (hidle : s.engine = .idle)
    (hi : s.inputs = .access (.write 0x0C 4 w) :: rest) :
    step s = .next ((({ s with inputs := rest } : State).accept w).respond .written) :=
  (step_write (r := .cmd) hi).trans (by rw [State.writeReg_cmd_idle (by exact hidle)])

/-- With no input left the step is the engine's. -/
theorem step_noInput {s : State} (hi : s.inputs = []) : step s = engineStep s := by
  simp [step, takeStep, hi]

/-- A MEM-window access stalls while the engine runs (rule R66). -/
theorem stalled_of_running {s : State} {w : Word} {sn : Snapshot} {a : Access} (hengine : s.engine = .running w sn)
    (hfrom : 0x01000000 ≤ a.offset) (hend : a.offset < 0x01000000 + s.params.memSize) : stalled s a = true := by
  have hwindow : inMemWindow s.params.memSize a = true := (inMemWindow_iff _ a).2 ⟨hfrom, hend⟩
  simp [stalled, hengine, hwindow]

/-- Settles O4: a word outside rule R91 does not decode (`decodableWordsAreTheLegalOnes`), which its acceptance does not
ask and the engine's turn answers with E_OPCODE. -/
theorem illegalWordCompletesWithOpcodeError : Obligations.IllegalWordCompletesWithOpcodeError := by
  intro s w hillegal
  rw [← decodableWordsAreTheLegalOnes w] at hillegal
  obtain ⟨e, hreject⟩ := decode_error_of_not_ok hillegal
  refine ⟨fun rest hidle hi => ?accepted, fun sn hengine => ⟨fun hi => ?noInput, fun rest hi => ?ownTurn,
    fun a rest hi hfrom hend => ?stalledAccess⟩⟩
  case accepted => exact ⟨_, step_accept hidle hi, rfl, Status.getLsbD_word _ _ 0, rfl⟩
  case noInput => exact (step_noInput hi).trans (engineStep_illegal hengine hreject)
  case ownTurn =>
    exact (step_engineTurn hi).trans (engineStep_illegal (s := { s with inputs := rest }) hengine hreject)
  case stalledAccess =>
    exact (step_stalled hi (stalled_of_running hengine hfrom hend)).trans (engineStep_illegal hengine hreject)

end Sys2Proof.Machine
end

section
/-! What the commands change and leave (rules R29, R36, R98, R113, R141 and R214), and the packed operands of rule
R96. -/

namespace Sys2Proof.Machine

/-! ### The frame of a command -/

/-- No staged write can name CMD, an ARG or CVPOLY. -/
theorem exec_operands {i : Instr} {s t : State} (h : exec i s = .next t) :
    t.cmd = s.cmd ∧ t.args = s.args ∧ t.cvpoly = s.cvpoly := by
  rcases exec_cases h with ⟨w, d, _, rfl⟩ | ⟨e, d, _, rfl⟩
  all_goals exact ⟨rfl, rfl, rfl⟩

/-- Of a unit a command changes LnSTATE alone (rule R141). -/
theorem exec_units {i : Instr} {s t : State} (h : exec i s = .next t) :
    t.u0 = { s.u0 with state := t.u0.state } ∧ t.u1 = { s.u1 with state := t.u1.state } := by
  rcases exec_cases h with ⟨w, d, _, rfl⟩ | ⟨e, d, _, rfl⟩
  · exact ⟨LfsrUnit.commit_keeps .., LfsrUnit.commit_keeps ..⟩
  · exact ⟨rfl, rfl⟩

/-- LnSTATE, CVCAP and MEM change only by the commands that stage them (`commandResult_shape`). -/
theorem exec_shape {i : Instr} {s t : State} (h : exec i s = .next t) :
    (i ∉ [.lfsrFibStep .u0, .lfsrFibGen .u0, .lfsrGalStep .u0, .lfsrGalGen .u0] → t.u0 = s.u0) ∧
    (i ∉ [.lfsrFibStep .u1, .lfsrFibGen .u1, .lfsrGalStep .u1, .lfsrGalGen .u1] → t.u1 = s.u1) ∧
    (i ∉ [.convEncode, .convRelease] → t.cvcap = s.cvcap) ∧
    (i ∉ [.lfsrFibGen .u0, .lfsrFibGen .u1, .lfsrGalGen .u0, .lfsrGalGen .u1, .rcgBuild, .convEncode, .muxDual,
        .muxAltboc, .altSegment] → t.mem = s.mem) := by
  rcases exec_cases h with ⟨w, d, hok, rfl⟩ | ⟨e, d, _, rfl⟩
  · obtain ⟨hu0, hu1, hcap, hmem⟩ := commandResult_shape hok
    refine ⟨fun hi => LfsrUnit.commit_other (hu0 hi), fun hi => LfsrUnit.commit_other (hu1 hi), fun hi => ?_,
      fun hi => ?_⟩
    · exact congrArg (Option.getD · s.cvcap) (hcap hi)
    · exact congrArg s.mem.commit (hmem hi)
  · exact ⟨fun _ => rfl, fun _ => rfl, fun _ => rfl, fun _ => rfl⟩

/-- The result registers change only by the commands that stage them (`commandResult_results`). -/
theorem exec_results {i : Instr} {s t : State} (h : exec i s = .next t) :
    (i ∈ [.nop, .convRelease] → t.res.r0 = s.res.r0) ∧
    (i ∉ [.rcgInfo, .rcgBuild, .convEncode] → t.res.r1 = s.res.r1) ∧
    (i ∉ [.rcgInfo, .rcgBuild] → t.res.r2 = s.res.r2) ∧ (i ≠ .rcgInfo → t.res.r3 = s.res.r3) := by
  rcases exec_cases h with ⟨w, d, hok, rfl⟩ | ⟨e, d, _, rfl⟩
  · obtain ⟨h0, h1, h2, h3⟩ := commandResult_results hok
    exact ⟨fun hi => congrArg (Option.getD · s.res.r0) (h0 hi), fun hi => congrArg (Option.getD · s.res.r1) (h1 hi),
      fun hi => congrArg (Option.getD · s.res.r2) (h2 hi), fun hi => congrArg (Option.getD · s.res.r3) (h3 hi)⟩
  · exact ⟨fun _ => rfl, fun _ => rfl, fun _ => rfl, fun _ => rfl⟩

/-- Only the commands that read MEM spend draws (`commandResult_draws`). -/
theorem exec_draws {i : Instr} {s t : State} (h : exec i s = .next t)
    (hi : i ∉ [.convEncode, .muxDual, .muxAltboc]) : t.draws = s.draws := by
  have hdraws := commandResult_draws i s hi
  rcases exec_cases h with ⟨w, d, hresult, rfl⟩ | ⟨e, d, hresult, rfl⟩
  all_goals rwa [hresult] at hdraws

/-- Settles O10: the fields no command can name, then each field with the commands that stage it. -/
theorem commandFrame : Obligations.CommandFrame := by
  intro i s t h
  obtain ⟨hcmd, hargs, hpoly⟩ := exec_operands h
  obtain ⟨hinputs, hresponses⟩ := exec_port h
  obtain ⟨hkeeps0, hkeeps1⟩ := exec_units h
  obtain ⟨hu0, hu1, hcap, hmem⟩ := exec_shape h
  obtain ⟨hr0, hr1, hr2, hr3⟩ := exec_results h
  exact ⟨hcmd, hargs, hpoly, exec_params h, hinputs, hresponses, hkeeps0, hkeeps1, hu0, hu1, hcap, hmem, hr0, hr1, hr2,
    hr3, exec_draws h⟩

/-! ### Packed operands -/

/-- A word from 2^n on has a bit above its low n. -/
theorem ushiftRight_ne_zero_of_le {v : Word} {n : Nat} (h : 2 ^ n ≤ v.toNat) : v >>> n ≠ 0#32 := by
  rw [Ne, ushiftRight_eq_zero_iff_lt]
  omega

/-- A command that reads no MEM and finds an operand that is no bit completes with code 10 and commits nothing. -/
theorem exec_of_bitVal {i : Instr} {s : State} (h : commandResult i s = (.error .bitVal, s.draws)) :
    exec i s = .next (s.doneErr 10#8) :=
  exec_of_error h

/-- Settles O29: each of the five commands checks its packed operand before anything else. -/
theorem packedOperandErrors : Obligations.PackedOperandErrors := by
  intro s
  refine ⟨fun h => ⟨exec_of_bitVal ?parity, exec_of_bitVal ?encode⟩, fun h => exec_of_bitVal ?encodeIl,
    fun h => exec_of_bitVal ?ham, fun h => exec_of_bitVal ?modidx⟩
  case parity => simp [commandResult, runBchParity, ushiftRight_ne_zero_of_le h]
  case encode => simp [commandResult, runBchEncode, ushiftRight_ne_zero_of_le h]
  case encodeIl => simp [commandResult, runBchEncodeIl, ushiftRight_ne_zero_of_le h]
  case ham => simp [commandResult, runHamCheck, ushiftRight_ne_zero_of_le h]
  case modidx =>
    have hbit : ∀ {v : Word}, 2 ≤ v.toNat → v >>> 1 ≠ 0#32 := ushiftRight_ne_zero_of_le (n := 1)
    have hbad := h.imp hbit (Or.imp hbit (Or.imp hbit hbit))
    simp only [commandResult, runAltModidx, if_pos hbad]

end Sys2Proof.Machine
end

section
/-! Command control (rules R110 to R119): how a command word is accepted or dropped, that the engine's turn completes
it, that nothing of it shows before, and that no run of the block stops. -/

namespace Sys2Proof.Machine

/-! ### A command completes -/

/-- STATUS and the engine after any command (rules R113, R261 and R262). -/
theorem exec_status {i : Instr} {s t : State} (h : exec i s = .next t) :
    t.engine = .idle ∧ t.status.done = true ∧ t.status.overrun = s.status.overrun ∧ t.status.Consistent := by
  rcases exec_cases h with ⟨w, d, _, rfl⟩ | ⟨e, d, _, rfl⟩
  · exact ⟨rfl, rfl, rfl, Status.consistent_of_noError true _⟩
  · obtain ⟨hne, hle⟩ := e.code_range
    exact ⟨rfl, rfl, rfl, Status.consistent_of_error _ hne hle⟩

/-- Settles O8: a completion with or without error leaves a consistent STATUS. -/
theorem everyCommandCompletes : Obligations.EveryCommandCompletes := by
  intro i s
  obtain ⟨hidle, hdone, hoverrun, hstatus⟩ := exec_status (exec_eq i s)
  exact ⟨_, exec_eq i s, hidle, hdone, hoverrun, hstatus.errIffCode, hstatus.codeReported⟩

/-- Settles O11: NOP commits with nothing staged. -/
theorem nopOnlySetsStatus : Obligations.NopOnlySetsStatus := fun s => congrArg Host.Outcome.next s.commit_nothing

/-! ### Whose turn it is -/

/-- The engine's turn while it runs a legal word is that command's meaning. -/
theorem engineStep_eq_exec {s : State} {w : Word} {sn : Snapshot} {i : Instr} (hengine : s.engine = .running w sn)
    (hdecode : decode w = .ok i) : engineStep s = exec i s :=
  (engineStep_running hengine hdecode).trans (exec_eq i s).symm

/-- Settles O5: each of the three inputs gives the engine the turn. -/
theorem stepRunsDecodedCommand : Obligations.StepRunsDecodedCommand := by
  intro s w sn i hengine hdecode
  refine ⟨fun hi => ?noInput, fun rest hi => ?ownTurn, fun a rest hi hfrom hend => ?stalledAccess⟩
  case noInput => exact (step_noInput hi).trans (engineStep_eq_exec hengine hdecode)
  case ownTurn =>
    exact (step_engineTurn hi).trans (engineStep_eq_exec (s := { s with inputs := rest }) hengine hdecode)
  case stalledAccess =>
    exact (step_stalled hi (stalled_of_running hengine hfrom hend)).trans (engineStep_eq_exec hengine hdecode)

/-- An idle engine takes no step (rule R275). -/
theorem engineStep_of_idle {s : State} (hidle : s.engine = .idle) : engineStep s = .next s := by
  rw [engineStep, hidle]

/-- The step on a hardware reset. -/
theorem step_hardwareReset {s : State} {rest : List Input} (hi : s.inputs = .hardwareReset :: rest) :
    step s = .next ({ s with inputs := rest } : State).hardReset := by
  rw [step, takeStep, hi]

/-- Settles O59: with no input the turn is the engine's, and an idle engine takes no step. -/
theorem idleBlockStaysIdle : Obligations.IdleBlockStaysIdle := by
  intro s hidle hi
  exact (step_noInput hi).trans (engineStep_of_idle hidle)

/-- Settles O60: the step of each agent that can have the turn answers a next state. -/
theorem everyStepHasNextState : Obligations.EveryStepHasNextState := by
  intro s
  cases hi : s.inputs with
  | nil => simpa only [step_noInput hi] using engineStep_next s
  | cons input rest =>
    cases input with
    | engineTurn => simpa only [step_engineTurn hi] using engineStep_next { s with inputs := rest }
    | hardwareReset => exact ⟨_, step_hardwareReset hi⟩
    | access a =>
      cases hstall : stalled s a with
      | false => exact ⟨_, step_access hi hstall⟩
      | true => simpa only [step_stalled hi hstall] using engineStep_next s

/-! ### Writes of CMD -/

/-- Settles O6: the write is an acceptance. -/
theorem idleCommandWriteIsAccepted : Obligations.IdleCommandWriteIsAccepted :=
  fun _ _ _ hidle hi => step_accept hidle hi

/-- A write of CMD while BUSY is an overrun, whatever the word (rule R112). -/
theorem State.writeReg_cmd_running {s : State} {w : Word} {sn : Snapshot} (hengine : s.engine = .running w sn)
    (v : Word) : s.writeReg .cmd v = s.overrun := by
  simp [State.writeReg, State.writeCmd, hengine]

/-- Settles O7: the write is an overrun. -/
theorem busyCommandWriteOverruns : Obligations.BusyCommandWriteOverruns := by
  intro s w v sn rest hengine hi
  rw [step_write (r := .cmd) hi, State.writeReg_cmd_running (by exact hengine)]
  rfl

/-! ### A running engine goes idle -/

@[simp] theorem State.writeWindow_inputs (s : State) (o : Nat) (v : Word) : (s.writeWindow o v).inputs = s.inputs := by
  unfold State.writeWindow
  cases regAt o with
  | none => rfl
  | some r =>
    obtain ⟨_, _, _, hinputs, _⟩ := s.writeReg_keeps r v
    exact hinputs

@[simp] theorem State.perform_inputs (s : State) (tg : Target) (a : Access) : (s.perform tg a).inputs = s.inputs := by
  cases tg with
  | register o => cases a <;> simp [State.perform]
  | memory m => cases a <;> simp [State.perform]

theorem Engine.eq_idle_of_not_busy {e : Engine} (h : ¬e.busy = true) : e = .idle := by
  cases e with
  | idle => rfl
  | running w sn => exact absurd rfl h

/-- The engine's turn and a reset leave the engine idle, so a step that leaves it running is an access that does not
stall: performed, or refused. -/
theorem step_cases_of_busy {s t : State} (h : step s = .next t) (hbusy : t.engine.busy = true) :
    ∃ a rest, s.inputs = .access a :: rest ∧ stalled s a = false ∧
      ((∃ tg, portCheck s.params.memSize a = .ok tg ∧ t = ({ s with inputs := rest } : State).perform tg a) ∨
        ∃ f, t = ({ s with inputs := rest } : State).respond (.fault f)) := by
  have hrunning : t.engine ≠ .idle := fun hidle => by simp [hidle] at hbusy
  rcases step_cases h with ⟨hturn, _⟩ | ⟨rest, _, hturn⟩ | ⟨rest, _, rfl⟩ | ⟨a, rest, tg, hi, hstall, hcheck, rfl⟩ |
    ⟨a, rest, e, hi, hstall, _, rfl⟩
  · exact absurd (engineStep_idle hturn) hrunning
  · exact absurd (engineStep_idle hturn) hrunning
  · exact absurd (State.hardReset_engine _) hrunning
  · exact ⟨a, rest, hi, hstall, .inl ⟨tg, hcheck, rfl⟩⟩
  · exact ⟨a, rest, hi, hstall, .inr ⟨_, rfl⟩⟩

/-- A step that leaves the engine running takes an access off the input list. -/
theorem step_inputs_of_busy {s t : State} (h : step s = .next t) (hbusy : t.engine.busy = true) :
    ∃ a, s.inputs = .access a :: t.inputs := by
  obtain ⟨a, rest, hi, _, ⟨tg, _, rfl⟩ | ⟨f, rfl⟩⟩ := step_cases_of_busy h hbusy
  · exact ⟨a, by rw [hi, State.perform_inputs]⟩
  · exact ⟨a, hi⟩

/-- Settles O58, by induction on the input list, which each step that leaves the engine running shortens. -/
theorem runningEngineCompletes : Obligations.RunningEngineCompletes := by
  intro s _
  induction hinputs : s.inputs generalizing s with
  | nil =>
    obtain ⟨t, hstep⟩ := everyStepHasNextState s
    refine ⟨1, t, Nat.le_refl 1, core_run_next hstep 0, Engine.eq_idle_of_not_busy fun hbusy => ?_⟩
    obtain ⟨a, hi⟩ := step_inputs_of_busy hstep hbusy
    exact List.cons_ne_nil _ _ (hi.symm.trans hinputs)
  | cons input rest ih =>
    obtain ⟨t, hstep⟩ := everyStepHasNextState s
    by_cases hbusy : t.engine.busy = true
    · obtain ⟨a, hi⟩ := step_inputs_of_busy hstep hbusy
      have hrest : t.inputs = rest := (List.cons.inj (hi.symm.trans hinputs)).2
      obtain ⟨k, u, hk, hrun, hidle⟩ := ih t hbusy hrest
      exact ⟨k + 1, u, Nat.succ_le_succ hk, (core_run_next hstep k).trans hrun, hidle⟩
    · exact ⟨1, t, Nat.succ_le_succ (Nat.zero_le _), core_run_next hstep 0, Engine.eq_idle_of_not_busy hbusy⟩

/-! ### No partial result -/

/-- What a running command leaves as it is until it completes: the running word with its snapshot, MEM, RES, CVCAP and
CMD; and DONE is not set (rules R111, R282 and R301). -/
structure State.SameRun (s t : State) : Prop where
  engine : t.engine = s.engine
  mem : t.mem = s.mem
  res : t.res = s.res
  cvcap : t.cvcap = s.cvcap
  cmd : t.cmd = s.cmd
  notDone : t.status.done = true → s.status.done = true

/-- A write of the register window that leaves the engine running shows nothing of the command. -/
theorem State.sameRun_writeWindow {s : State} {o : Nat} {v : Word} (hs : s.engine.busy = true)
    (ht : (s.writeWindow o v).engine.busy = true) : s.SameRun (s.writeWindow o v) := by
  rcases s.writeWindow_cases o v with hw | hw | ⟨_, hw⟩ | ⟨hidle, _⟩ | ⟨args, u0, u1, p, hw⟩
  · rw [hw] at ht
    exact absurd ht Bool.false_ne_true
  · rw [hw]
    exact ⟨rfl, rfl, rfl, rfl, rfl, fun hdone => absurd hdone Bool.false_ne_true⟩
  · rw [hw]
    exact ⟨rfl, rfl, rfl, rfl, rfl, id⟩
  · exact absurd (hs.symm.trans hidle) Bool.false_ne_true.symm
  · rw [hw]
    exact ⟨rfl, rfl, rfl, rfl, rfl, id⟩

/-- An access the port performs while the engine runs, and that leaves it running, is one of the register window, since
one of the MEM window stalls (rule R66). -/
theorem State.sameRun_perform {s : State} {tg : Target} {a : Access} (hs : s.engine.busy = true)
    (hstall : stalled s a = false) (hcheck : portCheck s.params.memSize a = .ok tg)
    (ht : (s.perform tg a).engine.busy = true) : s.SameRun (s.perform tg a) := by
  rcases portCheck_ok hcheck with ⟨rfl, _⟩ | ⟨m, _, hoffset, hwidth, _, hend⟩
  · cases a with
    | read o n => exact ⟨rfl, rfl, rfl, rfl, rfl, id⟩
    | write o n v => exact { State.sameRun_writeWindow hs ht with }
  · have hwindow : inMemWindow s.params.memSize a = true := (inMemWindow_iff _ a).2 (by omega)
    simp [idle_of_not_stalled hstall hwindow] at hs

/-- Settles O54: a step that leaves a running engine running is an access, and neither performing nor refusing it shows
anything of the command. -/
theorem noPartialResultsWhileBusy : Obligations.NoPartialResultsWhileBusy := by
  intro s t h hs ht
  have hsame : s.SameRun t := by
    obtain ⟨a, rest, _, hstall, ⟨tg, hcheck, rfl⟩ | ⟨f, rfl⟩⟩ := step_cases_of_busy h ht
    · exact { State.sameRun_perform (s := { s with inputs := rest }) hs hstall hcheck ht with }
    · exact ⟨rfl, rfl, rfl, rfl, rfl, id⟩
  exact ⟨hsame.engine, hsame.mem, hsame.res, hsame.cvcap, hsame.cmd, hsame.notDone⟩

end Sys2Proof.Machine
end

section
/-! Register writes while a command runs (rules R111 and R300): the command works on its snapshot, so a write of a
snapshotted register commutes with Complete, save for the LnSTATE that Complete itself replaces. -/

namespace Sys2Proof.Machine

/-! ### The LFSR commands of a unit -/

/-- The LFSR commands on unit `u`. -/
def lfsrCommands (u : UnitSel) : List Instr := [.lfsrFibStep u, .lfsrFibGen u, .lfsrGalStep u, .lfsrGalGen u]

/-- LuSTATE of unit `u`. -/
def stateReg (u : UnitSel) : Reg := if u = .u0 then .l0state else .l1state

theorem stateReg_injective : Function.Injective stateReg := by
  intro u u' h
  cases u <;> cases u'
  case u0.u0 | u1.u1 => rfl
  case u0.u1 | u1.u0 => cases h

theorem writableBits_stateReg (u : UnitSel) : writableBits (stateReg u) = some 0xFFFFFFFF#32 := by
  cases u <;> rfl

/-- The snapshotted registers other than LnSTATE (rule R111). -/
def operandRegs : List Reg :=
  [.arg0, .arg1, .arg2, .arg3, .arg4, .arg5, .arg6, .arg7, .l0cfg, .l0fb, .l0ot, .l1cfg, .l1fb, .l1ot, .cvpoly]

theorem operandRegs_writable {r : Reg} (hr : r ∈ operandRegs) :
    (∃ mask, writableBits r = some mask) ∧ ∀ u, r ≠ stateReg u := by
  have hlisted : ∀ r ∈ operandRegs, (writableBits r).isSome = true ∧ r ≠ .l0state ∧ r ≠ .l1state := by decide
  obtain ⟨hmask, h0, h1⟩ := hlisted r hr
  refine ⟨Option.isSome_iff_exists.1 hmask, fun u => ?_⟩
  cases u with
  | u0 => exact h0
  | u1 => exact h1

/-- A command stages LuSTATE only if it is an LFSR command on `u`. -/
theorem commandResult_unit_ne {i : Instr} {s : State} {w : Writes} {d : Nat} {u : UnitSel}
    (h : commandResult i s = (.ok w, d)) (hi : i ∉ lfsrCommands u) (x : Word) : w.unit ≠ some (u, x) := by
  obtain ⟨hu0, hu1, _⟩ := commandResult_shape h
  cases u with
  | u0 => exact hu0 hi x
  | u1 => exact hu1 hi x

/-- An LFSR command on `u` that commits stages LuSTATE (rule R141). -/
theorem commandResult_unit_eq {i : Instr} {s : State} {w : Writes} {d : Nat} {u : UnitSel}
    (h : commandResult i s = (.ok w, d)) (hi : i ∈ lfsrCommands u) : ∃ x, w.unit = some (u, x) := by
  have hresult : (commandResult i s).1 = .ok w := by rw [h]
  simp only [lfsrCommands, List.mem_cons, List.not_mem_nil, or_false] at hi
  rcases hi with rfl | rfl | rfl | rfl
  case inl | inr.inr.inl =>
    simp only [commandResult, runLfsrFibStep, runLfsrGalStep] at hresult
    split at hresult <;> cases hresult
    exact ⟨_, rfl⟩
  case inr.inl | inr.inr.inr =>
    simp only [commandResult, runLfsrFibGen, runLfsrGalGen] at hresult
    split at hresult
    · cases hresult
    · split at hresult <;> cases hresult
      exact ⟨_, rfl⟩

/-! ### Committing LuSTATE -/

/-- A change of a unit that leaves LuSTATE alone commutes with a commit of LuSTATE. -/
theorem LfsrUnit.commit_map {f : LfsrUnit → LfsrUnit}
    (hf : ∀ (u : LfsrUnit) (x : Word), f { u with state := x } = { f u with state := x }) (u : LfsrUnit) (sel : UnitSel)
    (w : Option (UnitSel × Word)) : (f u).commit sel w = f (u.commit sel w) := by
  unfold LfsrUnit.commit
  split
  · split
    · exact (hf u _).symm
    · rfl
  · rfl

theorem LfsrUnit.commit_withCfg (u : LfsrUnit) (sel : UnitSel) (w : Option (UnitSel × Word)) (c : LfsrCfg) :
    ({ u with cfg := c } : LfsrUnit).commit sel w = { u.commit sel w with cfg := c } :=
  LfsrUnit.commit_map (f := fun u => { u with cfg := c }) (fun _ _ => rfl) u sel w

theorem LfsrUnit.commit_withFb (u : LfsrUnit) (sel : UnitSel) (w : Option (UnitSel × Word)) (m : Word) :
    ({ u with fb := m } : LfsrUnit).commit sel w = { u.commit sel w with fb := m } :=
  LfsrUnit.commit_map (f := fun u => { u with fb := m }) (fun _ _ => rfl) u sel w

theorem LfsrUnit.commit_withOt (u : LfsrUnit) (sel : UnitSel) (w : Option (UnitSel × Word)) (m : Word) :
    ({ u with ot := m } : LfsrUnit).commit sel w = { u.commit sel w with ot := m } :=
  LfsrUnit.commit_map (f := fun u => { u with ot := m }) (fun _ _ => rfl) u sel w

/-- A unit whose LuSTATE is staged takes the staged value. -/
theorem State.commit_unitNow {s : State} {w : Writes} {u : UnitSel} {x : Word} (h : w.unit = some (u, x)) :
    (s.commit w).unitNow u = { s.unitNow u with state := x } := by
  cases u <;> simp [State.unitNow, LfsrUnit.commit, h]

/-! ### The state after a register write -/

/-- `s` after the step on a host's write of register `r`, with the inputs `rest` still to come (`step_write`). -/
def State.afterWrite (s : State) (r : Reg) (v : Word) (rest : List Input) : State :=
  (({ s with inputs := rest } : State).writeReg r v).respond .written

theorem step_afterWrite (s : State) (r : Reg) (v : Word) (rest : List Input) :
    step { s with inputs := .access (.write (regOffset r) 4 v) :: rest } = .next (s.afterWrite r v rest) :=
  step_write rfl

section
variable {s : State} {r : Reg} {mask : Word} (hr : writableBits r = some mask) (v : Word) (rest : List Input)
include hr

theorem State.afterWrite_engine : (s.afterWrite r v rest).engine = s.engine :=
  State.writeReg_engine _ hr v

/-- The engine's turn after the write finds the inputs that were to come. -/
theorem step_afterWrite_engineTurn :
    step (s.afterWrite r v (.engineTurn :: rest)) = engineStep (s.afterWrite r v rest) := by
  cases r <;> cases hr <;> exact step_engineTurn rfl

/-- A write while a command runs is no write of what the command works on. -/
theorem commandResult_afterWrite {w : Word} {sn : Snapshot} (hengine : s.engine = .running w sn) (i : Instr) :
    commandResult i (s.afterWrite r v rest) = commandResult i s := by
  obtain ⟨hmem, hparams, hdraws, _⟩ := ({ s with inputs := rest } : State).writeReg_keeps r v
  have hsnap := State.snap_running _ w sn ((State.afterWrite_engine hr v rest).trans hengine)
  exact commandResult_congr (hsnap.trans (s.snap_running w sn hengine).symm) hparams hmem hdraws

/-- The draws are no register. -/
theorem State.afterWrite_withDraws (d : Nat) :
    ({ s with draws := d } : State).afterWrite r v rest = { s.afterWrite r v rest with draws := d } := by
  cases r <;> cases hr <;> rfl

/-- A write and a completion with an error commute. -/
theorem State.afterWrite_doneErr (code : Byte) :
    (s.doneErr code).afterWrite r v rest = (s.afterWrite r v rest).doneErr code := by
  cases r <;> cases hr <;> rfl

/-- A write and a commit that do not both name the same LnSTATE commute. -/
theorem State.afterWrite_commit {w : Writes} (hfree : ∀ u, r = stateReg u → ∀ x, w.unit ≠ some (u, x)) :
    (s.commit w).afterWrite r v rest = (s.afterWrite r v rest).commit w := by
  cases r <;> cases hr
  case l0state =>
    simp [State.afterWrite, State.respond, State.writeReg, State.commit, LfsrUnit.commit_other (hfree .u0 rfl)]
  case l1state =>
    simp [State.afterWrite, State.respond, State.writeReg, State.commit, LfsrUnit.commit_other (hfree .u1 rfl)]
  case l0cfg | l0fb | l0ot | l1cfg | l1fb | l1ot =>
    simp [State.afterWrite, State.respond, State.writeReg, State.commit, LfsrUnit.commit_withCfg,
      LfsrUnit.commit_withFb, LfsrUnit.commit_withOt]
  all_goals rfl

/-- Complete and a write commute, save for LuSTATE while an LFSR command runs on `u`. -/
theorem engineStep_afterWrite {t : State} {w : Word} {sn : Snapshot} (hengine : s.engine = .running w sn)
    (hfree : ∀ u, r = stateReg u → ∀ i, decode w = .ok i → i ∉ lfsrCommands u) (hturn : engineStep s = .next t) :
    engineStep (s.afterWrite r v rest) = .next (t.afterWrite r v rest) := by
  have hengine' := (State.afterWrite_engine hr v rest).trans hengine
  cases hdecode : decode w with
  | error e =>
    rw [engineStep_illegal hengine hdecode] at hturn
    cases hturn
    exact (engineStep_illegal hengine' hdecode).trans (congrArg _ (State.afterWrite_doneErr hr v rest 1#8).symm)
  | ok i =>
    rw [engineStep_eq_exec hengine hdecode] at hturn
    rw [engineStep_eq_exec hengine' hdecode]
    have hsame := commandResult_afterWrite hr v rest hengine i
    rcases exec_cases hturn with ⟨ws, d, hok, rfl⟩ | ⟨e, d, herror, rfl⟩
    · have hunit := fun u hu => commandResult_unit_ne hok (hfree u hu i hdecode)
      rw [exec_of_ok (hsame.trans hok), State.afterWrite_withDraws (s := s.commit ws) hr,
        State.afterWrite_commit hr v rest hunit]
    · rw [exec_of_error (hsame.trans herror), State.afterWrite_withDraws (s := s.doneErr e.code) hr,
        State.afterWrite_doneErr hr]

end

/-! ### The two orders -/

/-- Settles O56: either order ends in the state Complete leaves, with the write made in it (`engineStep_afterWrite`). -/
theorem runningCommandIgnoresRegisterWrites : Obligations.RunningCommandIgnoresRegisterWrites := by
  intro s w v sn r rest hengine hcase
  have hwrite : (∃ mask, writableBits r = some mask) ∧
      ∀ u, r = stateReg u → ∀ i, decode w = .ok i → i ∉ lfsrCommands u := by
    rcases hcase with hr | ⟨rfl, hfree⟩ | ⟨rfl, hfree⟩
    · obtain ⟨hmask, hother⟩ := operandRegs_writable hr
      exact ⟨hmask, fun u hu => absurd hu (hother u)⟩
    · exact ⟨⟨_, rfl⟩, fun u hu => stateReg_injective (a₁ := .u0) hu ▸ hfree⟩
    · exact ⟨⟨_, rfl⟩, fun u hu => stateReg_injective (a₁ := .u1) hu ▸ hfree⟩
  obtain ⟨⟨mask, hmask⟩, hfree⟩ := hwrite
  obtain ⟨s2, hturn⟩ := engineStep_next { s with inputs := .access (.write (regOffset r) 4 v) :: rest }
  have hinputs : s2.inputs = .access (.write (regOffset r) 4 v) :: rest := (engineStep_port hturn).1
  have hcommutes := engineStep_afterWrite hmask v rest (by exact hengine) hfree hturn
  refine ⟨_, s2, s2.afterWrite r v rest, step_afterWrite s r v _, ?_, (step_engineTurn rfl).trans hturn,
    step_write hinputs⟩
  rw [step_afterWrite_engineTurn hmask]
  exact hcommutes

/-- A write of LuSTATE stores the word in that unit. -/
theorem State.afterWrite_unitNow (s : State) (u : UnitSel) (v : Word) (rest : List Input) :
    (s.afterWrite (stateReg u) v rest).unitNow u = { s.unitNow u with state := v } := by
  cases u <;> rfl

/-- Settles O57: with the write or without it the command stages the same LuSTATE, which its commit puts in the place of
the written one. -/
theorem seedWriteWhileBusyIsLost : Obligations.SeedWriteWhileBusyIsLost := by
  intro s t w v sn u i rest hengine hdecode hi hstep hnoError
  have hmask := writableBits_stateReg u
  rw [step_engineTurn rfl, engineStep_eq_exec (by exact hengine) hdecode] at hstep
  rcases exec_cases hstep with ⟨ws, d, hok, rfl⟩ | ⟨e, d, _, rfl⟩
  · have hok' := (commandResult_afterWrite hmask v rest hengine i).trans hok
    obtain ⟨x, hunit⟩ := commandResult_unit_eq hok hi
    refine ⟨_, { (s.afterWrite (stateReg u) v rest).commit ws with draws := d }, step_afterWrite s (stateReg u) v _,
      congrArg _ (State.afterWrite_unitNow ..), ?_, ?_⟩
    · rw [step_afterWrite_engineTurn hmask,
        engineStep_eq_exec ((State.afterWrite_engine hmask v rest).trans hengine) hdecode, exec_of_ok hok']
    · calc ((s.afterWrite (stateReg u) v rest).commit ws).unitNow u
        _ = { (s.afterWrite (stateReg u) v rest).unitNow u with state := x } := State.commit_unitNow hunit
        _ = { s.unitNow u with state := x } := by rw [State.afterWrite_unitNow]
        _ = (({ s with inputs := rest } : State).commit ws).unitNow u := (State.commit_unitNow hunit).symm
  · exact absurd hnoError Bool.noConfusion

end Sys2Proof.Machine
end

section
/-! The LFSR commands (41_lfsr.md): each of the two forms and of the two units gives one step or a run of steps of the
unit's own step function, or the first error of its checks. -/

namespace Sys2Proof.Machine

/-! ### Completion -/

/-- Committing staged regions, a RES0 and a LuSTATE, which is all an LFSR command stages, changes those and STATUS. -/
theorem State.commit_lfsr (s : State) (regions : List (Nat × List Byte)) (r : Word) (u : UnitSel) (y : Word) :
    s.commit { mem := regions, r0 := some r, unit := some (u, y) } =
      { s.doneOk.withUnitState u y with res := { s.res with r0 := r }, mem := s.mem.commit regions } := by
  cases u <;> rfl

/-- A step command on a legal unit. -/
theorem exec_lfsrStep {fib : Bool} {u : UnitSel} {s : State} (hlegal : (s.snap.unit u).legalFor fib) :
    exec (if fib then .lfsrFibStep u else .lfsrGalStep u) s =
      .next { s.doneOk.withUnitState u ((s.snap.unit u).stepOf fib (s.snap.unit u).state).2 with
        res := { s.res with r0 := bitWord ((s.snap.unit u).stepOf fib (s.snap.unit u).state).1 } } := by
  rw [exec_of_ok (commandResult_lfsrStep fib u s hlegal), lfsrStepWrites, State.commit_lfsr]
  rfl

/-- A generation command on a legal unit and region. -/
theorem exec_lfsrGen {fib : Bool} {u : UnitSel} {s : State} (hlegal : (s.snap.unit u).legalFor fib)
    (hmem : s.inMem s.snap.args.a0.toNat s.snap.args.a1.toNat) :
    exec (if fib then .lfsrFibGen u else .lfsrGalGen u) s =
      .next { s.doneOk.withUnitState u
            (gen ((s.snap.unit u).stepOf fib) (s.snap.unit u).state s.snap.args.a1.toNat).2 with
        res := { s.res with r0 := s.snap.args.a1 }
        mem := s.mem.pokes s.snap.args.a0.toNat
          ((gen ((s.snap.unit u).stepOf fib) (s.snap.unit u).state s.snap.args.a1.toNat).1.map bitByte) } := by
  rw [exec_of_ok (commandResult_lfsrGen fib u s hlegal hmem), lfsrGenWrites, State.commit_lfsr]
  rfl

/-- Settles O13: the step function of either form gives the output of the state and the state that follows
(`LfsrUnit.stepOf_spec`). -/
theorem lfsrStepResult : Obligations.LfsrStepResult := by
  intro fib u s hlegal
  obtain ⟨houtput, hfollows⟩ := LfsrUnit.stepOf_spec (fib := fib) hlegal.1 (s.snap.unit u).state
  refine ⟨_, hfollows, ?_⟩
  rw [exec_lfsrStep hlegal, houtput, bitWord]

/-! ### Generation -/

/-- What the bytes of a run read as: the output of the state after as many steps as the byte is above `a`. -/
theorem Memory.peek_pokes_gen (m : Memory) (a : Nat) (step : Word → Bool × Word) (x : Word) (n k : Nat) :
    (m.pokes a ((gen step x n).1.map bitByte)).peek k =
      if a ≤ k ∧ k < a + n then some (bitByte (step (stateAfter step x (k - a))).1) else m.peek k := by
  rw [Memory.peek_pokes, List.length_map, length_gen]
  split
  · next hin => rw [List.getElem?_map, gen_output step x (by omega : k - a < n), Option.map_some]
  · rfl

/-- Settles O14: the states are those of the run, `stateAfter`. -/
theorem lfsrGenResult : Obligations.LfsrGenResult := by
  rintro fib u s _ _ hlegal rfl rfl hmem
  have hspec := LfsrUnit.stepOf_spec (fib := fib) hlegal.1
  refine ⟨stateAfter ((s.snap.unit u).stepOf fib) (s.snap.unit u).state, _, rfl, fun i => (hspec _).2,
    exec_lfsrGen hlegal hmem, ?_, fun a => ?_⟩
  · rw [gen_state]
  · rw [Memory.peek_pokes_gen, (hspec _).1, bitByte]

/-! ### Errors -/

/-- A failed check of the unit is the error of both the step and the generation command, which commit nothing. -/
theorem exec_lfsr_of_check {fib : Bool} {u : UnitSel} {s : State} {i : Instr} {e : CmdError}
    (hi : i = (if fib then .lfsrFibStep u else .lfsrGalStep u) ∨ i = (if fib then .lfsrFibGen u else .lfsrGalGen u))
    (hcheck : (s.snap.unit u).checkOf fib = some e) : exec i s = .next (s.doneErr e.code) := by
  suffices hresult : commandResult i s = (.error e, s.draws) from exec_of_error hresult
  cases fib with
  | false =>
    have hgal : (s.snap.unit u).galCheck = some e := hcheck
    rcases hi with rfl | rfl
    · simp [commandResult, runLfsrGalStep, hgal]
    · simp [commandResult, runLfsrGalGen, hgal]
  | true =>
    have hfib : (s.snap.unit u).fibCheck = some e := hcheck
    rcases hi with rfl | rfl
    · simp [commandResult, runLfsrFibStep, hfib]
    · simp [commandResult, runLfsrFibGen, hfib]

/-- A generation command whose unit passes its checks and whose region does not lie in MEM. -/
theorem exec_lfsrGen_of_range {fib : Bool} {u : UnitSel} {s : State} (hlegal : (s.snap.unit u).legalFor fib)
    (hmem : ¬s.inMem s.snap.args.a0.toNat s.snap.args.a1.toNat) :
    exec (if fib then .lfsrFibGen u else .lfsrGalGen u) s = .next (s.doneErr CmdError.range.code) := by
  refine exec_of_error (d := s.draws) ?_
  obtain ⟨_, _, _, hcheck⟩ := (s.snap.unit u).checkOf_spec fib
  have hregion := mt (legal_eq_inMem _ _ _).1 hmem
  cases fib with
  | false =>
    have hgal : (s.snap.unit u).galCheck = none := hcheck hlegal
    simp [commandResult, runLfsrGalGen, hgal, hregion]
  | true =>
    have hfib : (s.snap.unit u).fibCheck = none := hcheck hlegal
    simp [commandResult, runLfsrFibGen, hfib, hregion]

/-- Settles O15: the checks answer the first error in their order (`LfsrUnit.checkOf_spec`), and the region is looked
at last. -/
theorem lfsrErrorsInOrder : Obligations.LfsrErrorsInOrder := by
  intro fib u s i hi
  obtain ⟨hsize, hseed, htap, _⟩ := (s.snap.unit u).checkOf_spec fib
  refine ⟨fun h => exec_lfsr_of_check hi (hsize h), fun h h1 => exec_lfsr_of_check hi (hseed h h1),
    fun h h1 h2 => exec_lfsr_of_check hi (htap h h1 h2), ?_⟩
  rintro rfl hlegal hmem
  exact exec_lfsrGen_of_range hlegal hmem

/-! ### Continuation -/

/-- The unit with the state it has after a run of `n` steps. -/
def LfsrUnit.afterRun (fib : Bool) (c : LfsrUnit) (n : Nat) : LfsrUnit :=
  { c with state := (gen (c.stepOf fib) c.state n).2 }

/-- The bytes a run of `n` steps of the unit writes. -/
def LfsrUnit.runBytes (fib : Bool) (c : LfsrUnit) (n : Nat) : List Byte :=
  (gen (c.stepOf fib) c.state n).1.map bitByte

@[simp] theorem LfsrUnit.length_runBytes (fib : Bool) (c : LfsrUnit) (n : Nat) : (c.runBytes fib n).length = n := by
  simp [LfsrUnit.runBytes]

/-- The step function rests on the configuration and the taps, not on LuSTATE. -/
theorem LfsrUnit.stepOf_afterRun (fib : Bool) (c : LfsrUnit) (n : Nat) :
    (c.afterRun fib n).stepOf fib = c.stepOf fib := by
  cases fib <;> rfl

/-- A run leaves a legal unit legal: the taps are as they were, and the state fits. -/
theorem LfsrUnit.legalFor.afterRun {fib : Bool} {c : LfsrUnit} (h : c.legalFor fib) (n : Nat) :
    (c.afterRun fib n).legalFor fib := by
  obtain ⟨hsize, hstate, htaps⟩ := h
  have hrun : c.fits (gen (c.stepOf fib) c.state n).2 := by
    rw [gen_state]
    exact LfsrUnit.fits_stateAfter hsize htaps.1 hstate n
  exact ⟨hsize, hrun, htaps⟩

/-- A run of `a + b` steps writes what a run of `a` and one of `b` from there write. -/
theorem LfsrUnit.runBytes_add (fib : Bool) (c : LfsrUnit) (a b : Nat) :
    c.runBytes fib (a + b) = c.runBytes fib a ++ (c.afterRun fib a).runBytes fib b := by
  unfold runBytes
  rw [stepOf_afterRun, gen_add, List.map_append]
  rfl

theorem LfsrUnit.afterRun_add (fib : Bool) (c : LfsrUnit) (a b : Nat) :
    c.afterRun fib (a + b) = (c.afterRun fib a).afterRun fib b := by
  rw [afterRun, afterRun, stepOf_afterRun, gen_add]
  rfl

/-- Writing two byte sequences, the second where the first ends, is writing them as one. -/
theorem Memory.pokes_append (m : Memory) (a : Nat) (xs ys : List Byte) :
    m.pokes a (xs ++ ys) = (m.pokes a xs).pokes (a + xs.length) ys := by
  induction xs generalizing m a with
  | nil => rfl
  | cons x xs ih =>
    rw [List.cons_append, Memory.pokes, ih, Memory.pokes, List.length_cons]
    congr 1
    omega

/-- A generation command, accepted with ARG0 and ARG1 written before, on a legal unit and region: what it does to MEM
and the unit. -/
theorem exec_lfsrGen_accept {fib : Bool} {u : UnitSel} {s : State} {dst count : Word} {d n : Nat}
    (hlegal : (s.unitNow u).legalFor fib) (hdst : dst.toNat = d) (hcount : count.toNat = n) (hmem : s.inMem d n)
    (w : Word) :
    ∃ t, exec (if fib then .lfsrFibGen u else .lfsrGalGen u)
        ({ s with args := { s.args with a0 := dst, a1 := count } }.accept w) = .next t ∧
      t.status.err = false ∧ t.params = s.params ∧ t.mem = s.mem.pokes d ((s.unitNow u).runBytes fib n) ∧
      t.unitNow u = (s.unitNow u).afterRun fib n := by
  subst hdst hcount
  have hunit : (({ s with args := { s.args with a0 := dst, a1 := count } } : State).accept w).snap.unit u =
      s.unitNow u := by
    cases u <;> rfl
  refine ⟨_, exec_lfsrGen (hunit ▸ hlegal) hmem, rfl, rfl, ?_, ?_⟩
  · rw [hunit]; rfl
  · rw [hunit]; cases u <;> rfl

/-- A region in MEM in two parts: both parts lie in MEM, and neither a length nor the start of the second part wraps
around 2^32. -/
theorem State.inMem_add {s : State} {dst : Word} {a b : Nat} (h : s.inMem dst.toNat (a + b)) :
    (BitVec.ofNat 32 a).toNat = a ∧ (BitVec.ofNat 32 b).toNat = b ∧ (BitVec.ofNat 32 (a + b)).toNat = a + b ∧
      s.inMem dst.toNat a ∧ s.inMem (dst.toNat + a) b ∧ (dst + BitVec.ofNat 32 a).toNat = dst.toNat + a := by
  have hsize := memSize_le s.params
  have hdst := dst.isLt
  simp only [State.inMem, BitVec.toNat_add, BitVec.toNat_ofNat] at h ⊢
  omega

/-- Settles O16: the second run starts in the state and at the address the first ends with. -/
theorem lfsrGenContinues : Obligations.LfsrGenContinues := by
  intro fib u s w dst a b hlegal hmem
  obtain ⟨ha, hb, hab, hmemA, hmemB, hdst⟩ := State.inMem_add hmem
  obtain ⟨t1, hexec1, _, hparams1, hmem1, hunit1⟩ := exec_lfsrGen_accept hlegal rfl ha hmemA w
  have hlegal1 : (t1.unitNow u).legalFor fib := hunit1 ▸ hlegal.afterRun a
  have hmemB1 : t1.inMem (dst.toNat + a) b := by rwa [State.inMem, hparams1]
  obtain ⟨t2, hexec2, _, _, hmem2, hunit2⟩ := exec_lfsrGen_accept hlegal1 hdst hb hmemB1 w
  obtain ⟨t, hexec, hok, _, hmemT, hunitT⟩ := exec_lfsrGen_accept hlegal rfl hab hmem w
  have hmemory : t2.mem = t.mem := by
    rw [hmem2, hmem1, hunit1, hmemT, LfsrUnit.runBytes_add, Memory.pokes_append, LfsrUnit.length_runBytes]
  have hunit : t2.unitNow u = t.unitNow u := by rw [hunit2, hunit1, hunitT, LfsrUnit.afterRun_add]
  exact ⟨t1, t2, t, hexec1, hexec2, hexec, hok, fun x => by rw [hmemory], hunit⟩

end Sys2Proof.Machine
end

section
/-! The descriptor checks (rules R161 and R163): which check a descriptor fails first, and that it passes them all
exactly when it is well-formed. -/

namespace Sys2Proof.Machine

/-! ### The named signals -/

/-- Settles O17: each named signal's constructor holds the facts; every satellite of B1I is one of its tap lists. -/
theorem namedSignalFacts : Obligations.NamedSignalFacts := by
  refine ⟨fun g1 segs g2 taps => ⟨rfl, ?nSat, fun e he => ?entry⟩, fun _ _ _ => ⟨rfl, rfl⟩,
    fun _ => ⟨rfl, rfl, rfl, rfl⟩⟩
  case nSat => simp [descriptorOf]
  case entry =>
    obtain ⟨l, _, rfl⟩ := List.mem_map.1 he
    exact ⟨l, rfl⟩

/-! ### The checks past the sizes and the seeds -/

section
variable {d : Descriptor} (hsizes : d.sizesOk) (hseeds : d.seedsOk)
include hsizes hseeds

theorem checkDescriptor_of_not_tapsOk (hg2 : d.entriesHaveG2) (htaps : ¬d.tapsOk) : checkDescriptor d = some .tap := by
  obtain ⟨_, _, hcheck⟩ := checkDescriptor_order d
  have hbad : descTapBad d = true := by simpa using mt (descTapBad_eq_false hg2).1 htaps
  rw [hcheck hsizes hseeds, if_pos hbad]

theorem checkDescriptor_of_tapsOk (hg2 : d.entriesHaveG2) (htaps : d.tapsOk) :
    checkDescriptor d = if descEntriesBad d then some .desc else none := by
  obtain ⟨_, _, hcheck⟩ := checkDescriptor_order d
  rw [hcheck hsizes hseeds, (descTapBad_eq_false hg2).2 htaps]
  rfl

theorem checkDescriptor_of_not_entriesOk (hg2 : d.entriesHaveG2) (htaps : d.tapsOk) (hentries : ¬d.entriesOk) :
    checkDescriptor d = some .desc := by
  have hbad : descEntriesBad d = true := by simpa using mt descEntriesBad_eq_false.1 hentries
  rw [checkDescriptor_of_tapsOk hsizes hseeds hg2 htaps, if_pos hbad]

/-- An entry without its G2 fails the check of the taps or that of the entries (log 11). -/
theorem checkDescriptor_of_not_entriesHaveG2 (hg2 : ¬d.entriesHaveG2) :
    checkDescriptor d = some .tap ∨ checkDescriptor d = some .desc := by
  obtain ⟨_, _, hcheck⟩ := checkDescriptor_order d
  have hbad : descEntriesBad d = true := by simpa using mt descEntriesBad_eq_false.1 fun h => hg2 h.1
  rw [hcheck hsizes hseeds, if_pos hbad]
  split
  · exact .inl rfl
  · exact .inr rfl

end

/-! ### All the checks -/

theorem checkDescriptor_of_wellFormed {d : Descriptor} (h : d.WellFormed) : checkDescriptor d = none := by
  rw [checkDescriptor_of_tapsOk h.sizes h.seeds h.entries.1 h.taps, descEntriesBad_eq_false.2 h.entries]
  rfl

/-- A descriptor that is not well-formed fails some check: the first of the five cases that applies. -/
theorem checkDescriptor_of_not_wellFormed {d : Descriptor} (h : ¬d.WellFormed) : ∃ e, checkDescriptor d = some e := by
  obtain ⟨hsize, hseed, _⟩ := checkDescriptor_order d
  by_cases hsizes : d.sizesOk
  · by_cases hseeds : d.seedsOk
    · by_cases hg2 : d.entriesHaveG2
      · by_cases htaps : d.tapsOk
        · have hentries : ¬d.entriesOk := fun hentries => h ⟨hsizes, hseeds, htaps, hentries⟩
          exact ⟨_, checkDescriptor_of_not_entriesOk hsizes hseeds hg2 htaps hentries⟩
        · exact ⟨_, checkDescriptor_of_not_tapsOk hsizes hseeds hg2 htaps⟩
      · rcases checkDescriptor_of_not_entriesHaveG2 hsizes hseeds hg2 with hcheck | hcheck
        all_goals exact ⟨_, hcheck⟩
    · exact ⟨_, hseed hsizes hseeds⟩
  · exact ⟨_, hsize hsizes⟩

/-- Settles O18: a descriptor that is not well-formed fails one of the checks. -/
theorem checkPassesExactlyWellFormed : Obligations.CheckPassesExactlyWellFormed := by
  refine fun d => ⟨fun hpass => ?_, checkDescriptor_of_wellFormed⟩
  by_contra hbad
  obtain ⟨e, he⟩ := checkDescriptor_of_not_wellFormed hbad
  simp [he] at hpass

end Sys2Proof.Machine
end

section
/-! The ranging commands (rules R161, R170 and R172): the error of a signal index, of a descriptor or of a region, and
what the commands write on a well-formed descriptor. -/

namespace Sys2Proof.Machine

theorem signalAt_of_getElem? {p : Params} {sig : Nat} {r : RomEntry} (h : p.signals[sig]? = some r) :
    signalAt p sig = some (descriptorOf r) := by
  rw [signalAt, h, Option.map_some]

/-! ### Errors -/

/-- A signal index of at least NSIG is the error of both commands. -/
theorem exec_ranging_of_index {s : State} {i : Instr} (hi : i = .rcgInfo ∨ i = .rcgBuild)
    (h : s.params.signals.length ≤ s.snap.args.a0.toNat) : exec i s = .next (s.doneErr CmdError.index.code) := by
  suffices hresult : commandResult i s = (.error .index, s.draws) from exec_of_error hresult
  have hsignal : signalAt s.params s.snap.args.a0.toNat = none := by
    rw [signalAt, List.getElem?_eq_none h, Option.map_none]
  rcases hi with rfl | rfl
  · simp [commandResult, runRcgInfo, hsignal]
  · simp [commandResult, runRcgBuild, hsignal]

section
variable {s : State} {d : Descriptor} (hd : signalAt s.params s.snap.args.a0.toNat = some d)
include hd

/-- A failed check of the descriptor is the error of both commands. -/
theorem exec_ranging_of_check {i : Instr} (hi : i = .rcgInfo ∨ i = .rcgBuild) {e : CmdError}
    (hcheck : checkDescriptor d = some e) : exec i s = .next (s.doneErr e.code) := by
  suffices hresult : commandResult i s = (.error e, s.draws) from exec_of_error hresult
  rcases hi with rfl | rfl
  · simp [commandResult, runRcgInfo, hd, hcheck]
  · simp [commandResult, runRcgBuild, hd, hcheck]

/-- A table that does not lie in MEM. -/
theorem exec_rcgBuild_of_range (hwf : d.WellFormed)
    (hmem : ¬s.inMem s.snap.args.a1.toNat (2 * d.len * d.sats.length)) :
    exec .rcgBuild s = .next (s.doneErr CmdError.range.code) := by
  refine exec_of_error (d := s.draws) ?_
  have hregion := mt (legal_eq_inMem _ _ _).1 hmem
  simp [commandResult, runRcgBuild, hd, checkDescriptor_of_wellFormed hwf, hregion]

/-! ### Completion without error -/

theorem exec_rcgInfo (hwf : d.WellFormed) :
    exec .rcgInfo s = .next { s.doneOk with
      res := ⟨countWord d.sats.length, countWord d.len, countWord (regSize d.g1), descKind d⟩ } := by
  refine exec_of_ok (d := s.draws)
    (w := { r0 := some (countWord d.sats.length), r1 := some (countWord d.len), r2 := some (countWord (regSize d.g1)),
            r3 := some (descKind d) }) ?_
  simp [commandResult, runRcgInfo, hd, checkDescriptor_of_wellFormed hwf]

theorem exec_rcgBuild (hwf : d.WellFormed)
    (hmem : s.inMem s.snap.args.a1.toNat (2 * d.len * d.sats.length)) :
    exec .rcgBuild s = .next { s.doneOk with
      res := { s.res with
        r0 := countWord d.sats.length
        r1 := countWord d.len
        r2 := countWord (2 * d.len * d.sats.length) }
      mem := s.mem.pokes s.snap.args.a1.toNat (tableBytes d) } := by
  refine exec_of_ok (d := s.draws)
    (w := { mem := [(s.snap.args.a1.toNat, tableBytes d)], r0 := some (countWord d.sats.length),
            r1 := some (countWord d.len), r2 := some (countWord (2 * d.len * d.sats.length)) }) ?_
  have hregion := (legal_eq_inMem _ _ _).2 hmem
  simp [commandResult, runRcgBuild, hd, checkDescriptor_of_wellFormed hwf, hregion]

/-- A build completes without error only on a well-formed descriptor and with its table in MEM. -/
theorem legal_of_exec_rcgBuild {t : State} (hexec : exec .rcgBuild s = .next t) (hok : t.status.err = false) :
    d.WellFormed ∧ s.inMem s.snap.args.a1.toNat (2 * d.len * d.sats.length) := by
  have noError : ∀ code, exec .rcgBuild s ≠ .next (s.doneErr code) := by
    intro code herr
    obtain rfl : t = s.doneErr code := Host.Outcome.next.inj (hexec.symm.trans herr)
    simp at hok
  have hwf : d.WellFormed := by
    by_contra hbad
    obtain ⟨e, he⟩ := checkDescriptor_of_not_wellFormed hbad
    exact noError _ (exec_ranging_of_check hd (.inr rfl) he)
  refine ⟨hwf, ?_⟩
  by_contra hmem
  exact noError _ (exec_rcgBuild_of_range hd hwf hmem)

end

/-- Settles O22: the index, then the checks in their order, then the region. -/
theorem rangingErrorsInOrder : Obligations.RangingErrorsInOrder := by
  intro s i hi
  refine ⟨exec_ranging_of_index hi, ?_⟩
  rintro r _ hr rfl
  have hd := signalAt_of_getElem? hr
  obtain ⟨hsize, hseed, _⟩ := checkDescriptor_order (descriptorOf r)
  have fails : ∀ {e}, checkDescriptor (descriptorOf r) = some e → exec i s = .next (s.doneErr e.code) :=
    exec_ranging_of_check hd hi
  refine ⟨fun h => fails (hsize h), fun h h1 => fails (hseed h h1),
    fun h h1 hg2 h2 => fails (checkDescriptor_of_not_tapsOk h h1 hg2 h2),
    fun h h1 hg2 h2 h3 => fails (checkDescriptor_of_not_entriesOk h h1 hg2 h2 h3),
    fun h h1 hg2 => .inr ((checkDescriptor_of_not_entriesHaveG2 h h1 hg2).imp fails fails), ?_⟩
  rintro hwf rfl hmem
  exact exec_rcgBuild_of_range hd hwf hmem

/-! ### RCG_INFO -/

/-- The size of a legal G1 register is shown as it is (log 7). -/
theorem countWord_regSize {c : RegCfg} (h : c.sizeOk) : countWord (regSize c) = BitVec.ofNat 32 (regSize c) := by
  refine countWord_of_lt ?_
  cases c with
  | fib n seed fb out => exact Nat.lt_of_le_of_lt h.2 (by decide)
  | gal n seed mask => exact Nat.lt_of_le_of_lt h.2 (by decide)

/-- The kind of a descriptor (rule R170), G2 absent first. -/
theorem descKind_eq (d : Descriptor) :
    descKind d = if d.g2 = none then 0#32 else if d.sats.any isOutTaps then 2#32 else 1#32 := by
  rw [descKind]
  cases d.g2 <;> rfl

/-- Settles O19: the two counts and the size fit a register, so each is shown as it is. -/
theorem rcgInfoReportsSizes : Obligations.RcgInfoReportsSizes := by
  intro s e he hwf hlen hsats
  have htaps : isOutTaps = fun x => match x with
      | .outTaps _ => true
      | _ => false := by
    funext x
    cases x <;> rfl
  rw [exec_rcgInfo (signalAt_of_getElem? he) hwf, countWord_of_lt hsats, countWord_of_lt hlen,
    countWord_regSize hwf.sizes.1, descKind_eq, htaps]
  rfl

end Sys2Proof.Machine
end

section
/-! The code table of RCG_BUILD (rules R162, R167 to R169 and R171 to R173): the runs of G1 and of a satellite's G2, the
signed chips, and where each byte of the table stands. -/

namespace Sys2Proof.Machine

/-! ### The runs of the registers -/

/-- Output `i` of the run of a register from its seed. -/
def runOutput (c : RegCfg) (i : Nat) : Bool := (regStep c (stateAfter (regStep c) (regSeed c) i)).1

/-- The outputs of a run are those `runOutput` names. -/
theorem gen_regStep_getElem? (c : RegCfg) {n i : Nat} (h : i < n) :
    (gen (regStep c) (regSeed c) n).1[i]? = some (runOutput c i) :=
  gen_output _ _ h

theorem g1Seq_getElem? {d : Descriptor} (hsum : d.g1Segments.sum = d.len) {i : Nat} (h : i < d.len) :
    (g1Seq d)[i]? = some (runOutput d.g1 i) := by
  rw [g1Seq, genSegments_eq, hsum, gen_regStep_getElem? _ h]

/-- Output `i` of a satellite's G2 (rule R168): G2 with the satellite's seed or taps is a register of its own. -/
def g2Output (d : Descriptor) (e : SatEntry) (i : Nat) : Bool :=
  match e, d.g2 with
  | .seed v, some g => runOutput (.fib g.n v g.fb none) i
  | .outTaps l, some g => runOutput (.fib g.n g.seed g.fb (some l)) i
  | _, _ => false

theorem g2Seq_getElem? (d : Descriptor) (e : SatEntry) {i : Nat} (h : i < d.len) :
    (g2Seq d e)[i]? = some (g2Output d e i) := by
  have hzeros : (List.replicate d.len false)[i]? = some false := by simp [h]
  unfold g2Seq g2Output
  cases e with
  | single => exact hzeros
  | seed v =>
    cases d.g2 with
    | none => exact hzeros
    | some g => exact gen_regStep_getElem? (.fib g.n v g.fb none) h
  | outTaps l =>
    cases d.g2 with
    | none => exact hzeros
    | some g => exact gen_regStep_getElem? (.fib g.n g.seed g.fb (some l)) h

/-- In a well-formed descriptor G2 with a satellite's taps or seed is a legal register, so its outputs are those of one
run (`outputs_regStep`). -/
theorem g2Outputs_g2Output {d : Descriptor} (hwf : d.WellFormed) {e : SatEntry} (he : e ∈ d.sats) :
    d.g2Outputs e (g2Output d e) := by
  obtain ⟨⟨_, hsize, _⟩, _, ⟨_, htaps⟩, _⟩ := hwf
  unfold Descriptor.g2Outputs g2Output
  cases e with
  | single => exact fun _ => rfl
  | seed v =>
    cases hg : d.g2 with
    | none => exact fun _ => rfl
    | some g =>
      obtain ⟨hfb, _⟩ := htaps g hg
      exact outputs_regStep (c := .fib g.n v g.fb none) (hsize g hg) ⟨hfb, by simp⟩
  | outTaps l =>
    cases hg : d.g2 with
    | none => exact fun _ => rfl
    | some g =>
      obtain ⟨hfb, hout⟩ := htaps g hg
      have hl : ∀ l', some l = some l' → ∀ t ∈ l', tapIn g.n t := fun l' h => Option.some.inj h ▸ hout l he
      exact outputs_regStep (c := .fib g.n g.seed g.fb (some l)) (hsize g hg) ⟨hfb, hl⟩

/-! ### The bytes of the table -/

/-- Chip `i` of a satellite's code as a bit (rule R169). -/
def codeBit (d : Descriptor) (e : SatEntry) (i : Nat) : Bool := runOutput d.g1 i ^^ g2Output d e i

theorem codeBits_getElem? {d : Descriptor} (hsum : d.g1Segments.sum = d.len) (e : SatEntry) {i : Nat} (h : i < d.len) :
    (codeBits d e)[i]? = some (codeBit d e i) := by
  rw [codeBits, List.getElem?_zipWith, g1Seq_getElem? hsum h, g2Seq_getElem? d e h]
  rfl

theorem satBytes_code {d : Descriptor} (hsum : d.g1Segments.sum = d.len) (e : SatEntry) {i : Nat} (h : i < d.len) :
    (satBytes d e)[i]? = some (chipByte (codeBit d e i)) := by
  rw [satBytes, List.getElem?_append_left (by simpa [length_codeBits hsum] using h), List.getElem?_map,
    codeBits_getElem? hsum e h, Option.map_some]

theorem satBytes_negation {d : Descriptor} (hsum : d.g1Segments.sum = d.len) (e : SatEntry) {i : Nat} (h : i < d.len) :
    (satBytes d e)[d.len + i]? = some (chipByte (!codeBit d e i)) := by
  rw [satBytes, List.getElem?_append_right (by simp [length_codeBits hsum]), List.length_map, length_codeBits hsum,
    Nat.add_sub_cancel_left, List.getElem?_map, codeBits_getElem? hsum e h, Option.map_some]

/-- In a concatenation of blocks of `n` entries each, entry `j` of block `k` is entry `n·k + j`. -/
theorem getElem?_flatMap_of_length {α β : Type} {f : α → List β} {n : Nat} (hf : ∀ x, (f x).length = n) {l : List α}
    {k j : Nat} {x : α} (hx : l[k]? = some x) (hj : j < n) : (l.flatMap f)[n * k + j]? = (f x)[j]? := by
  induction l generalizing k with
  | nil => simp at hx
  | cons y l ih =>
    rw [List.flatMap_cons]
    cases k with
    | zero =>
      obtain rfl : y = x := by simpa using hx
      rw [Nat.mul_zero, Nat.zero_add, List.getElem?_append_left (by rwa [hf])]
    | succ k =>
      have hpos : n * (k + 1) + j = n + (n * k + j) := by rw [Nat.mul_succ]; omega
      rw [hpos, List.getElem?_append_right (by rw [hf]; omega), hf, Nat.add_sub_cancel_left]
      exact ih (by simpa using hx)

/-- Byte `j` of the part of satellite `k` stands 2·L·k + j bytes into the table (rule R171). -/
theorem peek_tableBytes (m : Memory) (a : Nat) {d : Descriptor} (hsum : d.g1Segments.sum = d.len) {k j : Nat}
    {e : SatEntry} (he : d.sats[k]? = some e) (hj : j < 2 * d.len) :
    (m.pokes a (tableBytes d)).peek (a + 2 * d.len * k + j) = (satBytes d e)[j]? := by
  have hk : k + 1 ≤ d.sats.length := (List.getElem?_eq_some_iff.1 he).1
  have hblock : 2 * d.len * k + 2 * d.len ≤ 2 * d.len * d.sats.length := Nat.mul_le_mul_left (2 * d.len) hk
  rw [Memory.peek_pokes, length_tableBytes hsum, if_pos (by omega), tableBytes,
    ← getElem?_flatMap_of_length (length_satBytes hsum) he hj]
  congr 1
  omega

theorem peek_code (m : Memory) (a : Nat) {d : Descriptor} (hsum : d.g1Segments.sum = d.len) {k i : Nat} {e : SatEntry}
    (he : d.sats[k]? = some e) (hi : i < d.len) :
    (m.pokes a (tableBytes d)).peek (a + 2 * d.len * k + i) = some (chipByte (codeBit d e i)) := by
  rw [peek_tableBytes m a hsum he (by omega), satBytes_code hsum e hi]

theorem peek_negation (m : Memory) (a : Nat) {d : Descriptor} (hsum : d.g1Segments.sum = d.len) {k i : Nat}
    {e : SatEntry} (he : d.sats[k]? = some e) (hi : i < d.len) :
    (m.pokes a (tableBytes d)).peek (a + 2 * d.len * k + d.len + i) = some (chipByte (!codeBit d e i)) := by
  rw [Nat.add_assoc _ d.len i, peek_tableBytes m a hsum he (by omega), satBytes_negation hsum e hi]

/-! ### RCG_BUILD -/

/-- A signed chip is +1 or −1 (00_scope.md rule R9). -/
theorem chipByte_cases (b : Bool) : chipByte b = 0x01#8 ∨ chipByte b = 0xFF#8 := by cases b <;> decide

/-- The chip of the other bit is the arithmetic negation. -/
theorem chipByte_not (b : Bool) : chipByte (!b) = -chipByte b := by cases b <;> decide

/-- The length of a table in MEM is shown as it is: it is at most MEM_SIZE (log 7). -/
theorem countWord_of_inMem {s : State} {a n : Nat} (h : s.inMem a n) : countWord n = BitVec.ofNat 32 n := by
  have hsize := memSize_le s.params
  have hn : n = 0 ∨ a + n ≤ s.params.memSize := h
  exact countWord_of_lt (by omega)

/-- Settles O20: `runOutput` and `g2Output` are the two runs, and `peek_code` and `peek_negation` say where each chip
stands. -/
theorem rcgBuildWritesTable : Obligations.RcgBuildWritesTable := by
  rintro s r _ _ hr rfl hwf rfl hmem hlen hsats
  obtain ⟨hg1, _, hsum⟩ := hwf.sizes
  refine ⟨_, runOutput (descriptorOf r).g1, exec_rcgBuild (signalAt_of_getElem? hr) hwf hmem,
    outputs_regStep hg1 hwf.taps.1, ?results, fun a ha => ?frame,
    fun k e he => ⟨g2Output (descriptorOf r) e, ?g2, fun i hi => ⟨?code, ?negation⟩⟩⟩
  case results => rw [countWord_of_lt hsats, countWord_of_lt hlen, countWord_of_inMem hmem]
  case frame => exact Memory.peek_pokes_outside _ (by rwa [length_tableBytes hsum])
  case g2 => exact g2Outputs_g2Output hwf (List.mem_of_getElem? he)
  case code => exact peek_code _ _ hsum he hi
  case negation =>
    rw [peek_negation _ _ hsum he hi, chipByte, codeBit]
    cases runOutput (descriptorOf r).g1 i ^^ g2Output (descriptorOf r) e i <;> rfl

/-- Settles O21: a build without error was one on a well-formed descriptor and a region in MEM. -/
theorem rcgTableIsSignedChips : Obligations.RcgTableIsSignedChips := by
  rintro s t r _ _ hr rfl rfl hexec hok k i hk hi
  have hd := signalAt_of_getElem? hr
  obtain ⟨hwf, hmem⟩ := legal_of_exec_rcgBuild hd hexec hok
  obtain rfl := Host.Outcome.next.inj (hexec.symm.trans (exec_rcgBuild hd hwf hmem))
  obtain ⟨_, _, hsum⟩ := hwf.sizes
  have he := List.getElem?_eq_getElem hk
  refine ⟨_, chipByte_cases _, peek_code _ _ hsum he hi, ?_⟩
  rw [← chipByte_not]
  exact peek_negation _ _ hsum he hi

end Sys2Proof.Machine
end

section
/-! The block coders (43_channel_coders.md): BCH(15,11) as polynomial division by x^4 + x + 1 (rules R190 to R197), and
the Hamming-style check bits (rules R199 to R201). -/

namespace Sys2Proof.Machine

/-! ### Completion -/

/-- A command that stages RES0 alone changes RES0 and STATUS. -/
theorem exec_of_r0 {i : Instr} {s : State} {v : Word} (h : commandResult i s = (.ok { r0 := some v }, s.draws)) :
    exec i s = .next { s.doneOk with res := { s.res with r0 := v } } :=
  exec_of_ok h

theorem exec_bchParity {s : State} (h : s.snap.args.a0.toNat < 2 ^ 11) :
    exec .bchParity s =
      .next { s.doneOk with res := { s.res with r0 := (bchParity (s.snap.args.a0.setWidth 11)).setWidth 32 } } :=
  exec_of_r0 (by simp [commandResult, runBchParity, (ushiftRight_eq_zero_iff_lt _ 11).2 h])

theorem exec_bchEncode {s : State} (h : s.snap.args.a0.toNat < 2 ^ 11) :
    exec .bchEncode s =
      .next { s.doneOk with res := { s.res with r0 := (bchCodeword (s.snap.args.a0.setWidth 11)).setWidth 32 } } :=
  exec_of_r0 (by simp [commandResult, runBchEncode, (ushiftRight_eq_zero_iff_lt _ 11).2 h])

theorem exec_bchEncodeIl {s : State} (h : s.snap.args.a0.toNat < 2 ^ 22) :
    exec .bchEncodeIl s =
      .next { s.doneOk with
        res := { s.res with
          r0 := interleave (bchCodeword (s.snap.args.a0.extractLsb' 0 11))
            (bchCodeword (s.snap.args.a0.extractLsb' 11 11)) 15 } } :=
  exec_of_r0 (by simp [commandResult, runBchEncodeIl, (ushiftRight_eq_zero_iff_lt _ 22).2 h])

theorem exec_hamCheck {s : State} (h : s.snap.args.a2.toNat < 2 ^ 13) :
    exec .hamCheck s =
      .next { s.doneOk with
        res := { s.res with r0 := (hamCheckBits s.params.hamTables (hamMessage s.snap.args)).setWidth 32 } } :=
  exec_of_r0 (by simp [commandResult, runHamCheck, (ushiftRight_eq_zero_iff_lt _ 13).2 h])

/-! ### The BCH register as polynomial division -/

/-- The register at its start (rule R190). -/
def BchReg.zero : BchReg := ⟨false, false, false, false⟩

/-- The run over the data word is the run over the list of its bits. -/
theorem bchRun_eq_foldl (a : BitVec 11) (k : Nat) :
    bchRun a k = ((List.range k).map a.getLsbD).foldl bchShift BchReg.zero := by
  induction k with
  | zero => rfl
  | succ k ih => rw [bchRun, ih, List.range_succ, List.map_append, List.foldl_append]; rfl

/-- The register that holds `m·x^4` modulo x^4 + x + 1: the one after the four bits of `m`, highest power first. -/
def bchRegOf (m : BitVec 4) : BchReg :=
  [m.getLsbD 3, m.getLsbD 2, m.getLsbD 1, m.getLsbD 0].foldl bchShift BchReg.zero

/-- Shifting a bit into the register is a step of Horner's rule. -/
theorem bchShift_bchRegOf (m : BitVec 4) (b : Bool) : bchShift (bchRegOf m) b = bchRegOf (remainderMod19 [b] m) := by
  revert m b
  decide

/-- Data with remainder `m` leaves the register of `m`. -/
theorem foldl_bchShift_bchRegOf (xs : List Bool) (m : BitVec 4) :
    xs.foldl bchShift (bchRegOf m) = bchRegOf (remainderMod19 xs m) := by
  induction xs generalizing m with
  | nil => rfl
  | cons b xs ih => rw [List.foldl_cons, bchShift_bchRegOf, ih]; rfl

theorem remainderMod19_append (xs ys : List Bool) (m : BitVec 4) :
    remainderMod19 (xs ++ ys) m = remainderMod19 ys (remainderMod19 xs m) := by
  induction xs generalizing m with
  | nil => rfl
  | cons b xs ih => exact ih _

/-- The parity of remainder `m` takes `m·x^4` to a multiple of x^4 + x + 1. -/
theorem remainderMod19_parityBits (m : BitVec 4) :
    remainderMod19 ((List.range 4).map (bchRegOf m).parityBits.getLsbD) m = 0#4 := by
  revert m
  decide

/-- The data bits followed by their parity bits are a multiple of x^4 + x + 1 (rule R192). -/
theorem remainderMod19_bchParity (a : BitVec 11) :
    remainderMod19 ((List.range 11).map a.getLsbD ++ (List.range 4).map (bchParity a).getLsbD) 0#4 = 0#4 := by
  have hreg : bchRun a 11 = bchRegOf (remainderMod19 ((List.range 11).map a.getLsbD) 0#4) := by
    rw [bchRun_eq_foldl, ← foldl_bchShift_bchRegOf]
    rfl
  rw [remainderMod19_append, bchParity, hreg, remainderMod19_parityBits]

/-- The codeword as a number: the parity above the 11 data bits (rule R194). -/
theorem toNat_bchCodeword (a : BitVec 11) : (bchCodeword a).toNat = (bchParity a).toNat * 2 ^ 11 + a.toNat := by
  rw [bchCodeword, BitVec.toNat_append, ← Nat.shiftLeft_add_eq_or_of_lt a.isLt, Nat.shiftLeft_eq]

/-- The data bits of a word are those of its low 11 bits. -/
theorem map_getLsbD_setWidth (v : Word) :
    (List.range 11).map (v.setWidth 11).getLsbD = (List.range 11).map v.getLsbD := by
  refine List.map_congr_left fun k hk => ?_
  simp [List.mem_range.1 hk]

/-- Settles O23: the register divides by x^4 + x + 1 (`remainderMod19_bchParity`). -/
theorem bchCodewordsAreMultiples : Obligations.BchCodewordsAreMultiples := by
  intro s hdata
  have hlow : (s.snap.args.a0.setWidth 11).toNat = s.snap.args.a0.toNat := by
    rw [BitVec.toNat_setWidth, Nat.mod_eq_of_lt hdata]
  refine ⟨bchParity (s.snap.args.a0.setWidth 11), ?parity, ?encode, ?multiple⟩
  case parity => rw [exec_bchParity hdata, BitVec.ofNat_toNat]
  case encode => rw [exec_bchEncode hdata, ← hlow, ← toNat_bchCodeword, BitVec.ofNat_toNat]
  case multiple => rw [← map_getLsbD_setWidth, remainderMod19_bchParity]

/-- Settles O26: the register's run over the data word is the run over the list of its bits (`bchRun_eq_foldl`). -/
theorem bchShiftIsTheAssignments : Obligations.BchShiftIsTheAssignments := by
  refine ⟨fun _ _ => rfl, fun s hdata => ⟨_, exec_bchParity hdata, ?_⟩⟩
  show (bchRun _ 11).parityBits.setWidth 32 = _
  rw [bchRun_eq_foldl, map_getLsbD_setWidth]
  rfl

/-! ### Linearity of the BCH parity -/

theorem xor_exchange (a b c d : Bool) : ((a ^^ b) ^^ (c ^^ d)) = ((a ^^ c) ^^ (b ^^ d)) := by
  rw [Bool.xor_assoc, Bool.xor_left_comm b, ← Bool.xor_assoc]

/-- The sum of two registers over GF(2), cell by cell. -/
def BchReg.xor (r q : BchReg) : BchReg := ⟨r.r0 ^^ q.r0, r.r1 ^^ q.r1, r.r2 ^^ q.r2, r.r3 ^^ q.r3⟩

theorem bchShift_xor (r q : BchReg) (b c : Bool) :
    bchShift (r.xor q) (b ^^ c) = (bchShift r b).xor (bchShift q c) := by
  simp only [bchShift, BchReg.xor]
  rw [xor_exchange b c, xor_exchange (b ^^ r.r3)]

theorem bchRun_xor (a b : BitVec 11) (k : Nat) : bchRun (a ^^^ b) k = (bchRun a k).xor (bchRun b k) := by
  induction k with
  | zero => rfl
  | succ k ih => rw [bchRun, ih, BitVec.getLsbD_xor, bchShift_xor]; rfl

theorem BchReg.parityBits_xor (r q : BchReg) : (r.xor q).parityBits = r.parityBits ^^^ q.parityBits := by
  simp only [BchReg.parityBits, BchReg.xor, ← BitVec.ofBool_xor_ofBool, ← BitVec.xor_append]

/-- Settles O25: both the shift and the read-out of the register are linear. -/
theorem bchParityIsLinear : Obligations.BchParityIsLinear := by
  intro a b
  rw [bchParity, bchRun_xor, BchReg.parityBits_xor]
  rfl

/-! ### Interleaving -/

theorem getLsbD_bitWord_shiftLeft (b : Bool) (n : Nat) {k : Nat} (hk : k < 32) :
    (bitWord b <<< n).getLsbD k = (decide (k = n) && b) := by
  rw [BitVec.getLsbD_shiftLeft, getLsbD_bitWord]
  by_cases hlt : k < n
  · simp [hk, hlt, Nat.ne_of_lt hlt]
  · simp [hk, hlt, show k - n = 0 ↔ k = n by omega]

/-- Bit 2i of an interleaved word is bit i of word A and bit 2i+1 is bit i of word B, up to bit 2k (rule R196). -/
theorem getLsbD_interleave (a b : BitVec 15) (k : Nat) {i : Nat} (hi : i < 16) :
    (interleave a b k).getLsbD (2 * i) = (decide (i < k) && a.getLsbD i) ∧
      (interleave a b k).getLsbD (2 * i + 1) = (decide (i < k) && b.getLsbD i) := by
  induction k with
  | zero => simp [interleave]
  | succ k ih =>
    obtain ⟨heven, hodd⟩ := ih
    simp only [interleave, BitVec.getLsbD_or, heven, hodd, getLsbD_bitWord_shiftLeft _ _ (show 2 * i < 32 by omega),
      getLsbD_bitWord_shiftLeft _ _ (show 2 * i + 1 < 32 by omega)]
    rcases Nat.lt_trichotomy i k with hlt | rfl | hgt
    · simp [hlt, show i < k + 1 by omega, show i ≠ k by omega, show 2 * i ≠ 2 * k + 1 by omega,
        show 2 * i + 1 ≠ 2 * k by omega]
    · simp
    · simp [show ¬i < k by omega, show ¬i < k + 1 by omega, show i ≠ k by omega, show 2 * i ≠ 2 * k + 1 by omega,
        show 2 * i + 1 ≠ 2 * k by omega]

/-- Settles O24: bits 0 to 29 are those of the two codewords, and no bit is placed above. -/
theorem bchInterleaveAlternatesCodewords : Obligations.BchInterleaveAlternatesCodewords := by
  intro s hdata
  refine ⟨_, exec_bchEncodeIl hdata, fun i hi => ?_, ?_⟩
  · simpa [hi] using getLsbD_interleave _ _ 15 (show i < 16 by omega)
  · exact getLsbD_interleave _ _ 15 (show 15 < 16 by decide)

/-! ### Hamming-style check bits -/

/-- Bit p−9 of the message is the bit of {ARG2, ARG1, ARG0} at that place (rule R199). -/
theorem getLsbD_hamMessage (a : Args) {k : Nat} (hk : k < 77) :
    (hamMessage a).getLsbD k =
      if k < 32 then a.a0.getLsbD k else if k < 64 then a.a1.getLsbD (k - 32) else a.a2.getLsbD (k - 64) := by
  simp only [hamMessage, BitVec.getLsbD_extractLsb', BitVec.getLsbD_append, hk, decide_true, Bool.true_and,
    Nat.zero_add]
  by_cases h0 : k < 32
  · simp [h0]
  · by_cases h1 : k < 64
    · simp [h0, h1, show k - 32 < 32 by omega]
    · simp [h0, h1, show ¬k - 32 < 32 by omega, Nat.sub_sub]

/-- c_j is the parity of the message bits table T_j selects (rule R200). -/
theorem getLsbD_hamTableBits (tables : Vector (BitVec 77) 7) (m : BitVec 77) (j : Fin 7) :
    (hamTableBits tables m).getLsbD j = parity (m &&& tables[j]) := by
  unfold hamTableBits
  fin_cases j <;> simp only [BitVec.getLsbD_append] <;> simp

theorem getLsbD_hamCheckBits (tables : Vector (BitVec 77) 7) (m : BitVec 77) (j : Fin 7) :
    (hamCheckBits tables m).getLsbD j = parity (m &&& tables[j]) := by
  rw [hamCheckBits, BitVec.getLsbD_append, if_pos j.isLt, getLsbD_hamTableBits]

/-- The low 7 check bits are the table parities. -/
theorem setWidth_hamCheckBits (tables : Vector (BitVec 77) 7) (m : BitVec 77) :
    (hamCheckBits tables m).setWidth 7 = hamTableBits tables m := by
  refine BitVec.eq_of_getLsbD_eq fun j hj => ?_
  rw [BitVec.getLsbD_setWidth, getLsbD_hamCheckBits tables m ⟨j, hj⟩, getLsbD_hamTableBits tables m ⟨j, hj⟩]
  simp [hj]

/-- c_8 is the parity of the message and c_1 to c_7 (rule R200). -/
theorem getLsbD_hamCheckBits_seven (tables : Vector (BitVec 77) 7) (m : BitVec 77) :
    (hamCheckBits tables m).getLsbD 7 = (parity m ^^ parity (hamTableBits tables m)) := by
  rw [hamCheckBits, BitVec.getLsbD_append, if_neg (by decide)]
  simp

/-- Settles O27: the message is {ARG2, ARG1, ARG0}, and a parity is a count of ones (`parity_eq_oddOnes`). -/
theorem hamCheckComputesParities : Obligations.HamCheckComputesParities := by
  intro s m hhigh hm
  obtain rfl : hamMessage s.snap.args = m :=
    BitVec.eq_of_getLsbD_eq fun k hk => (getLsbD_hamMessage _ hk).trans (hm k hk).symm
  refine ⟨_, exec_hamCheck hhigh, fun j => ?_, ?_⟩
  · rw [getLsbD_hamCheckBits, parity_eq_oddOnes]
  · rw [getLsbD_hamCheckBits_seven, setWidth_hamCheckBits, parity_eq_oddOnes, parity_eq_oddOnes]

theorem hamTableBits_xor (tables : Vector (BitVec 77) 7) (m m' : BitVec 77) :
    hamTableBits tables (m ^^^ m') = hamTableBits tables m ^^^ hamTableBits tables m' := by
  refine BitVec.eq_of_getLsbD_eq fun j hj => ?_
  have hbit := fun m => getLsbD_hamTableBits tables m ⟨j, hj⟩
  have hselect : (m ^^^ m') &&& tables[j] = (m &&& tables[j]) ^^^ (m' &&& tables[j]) := by
    ext k
    simp [Bool.and_xor_distrib_right]
  calc
    _ = parity ((m ^^^ m') &&& tables[j]) := hbit _
    _ = (parity (m &&& tables[j]) ^^ parity (m' &&& tables[j])) := by rw [hselect, parity_xor]
    _ = _ := by rw [BitVec.getLsbD_xor, hbit, hbit]; rfl

theorem hamCheckBits_xor (tables : Vector (BitVec 77) 7) (m m' : BitVec 77) :
    hamCheckBits tables (m ^^^ m') = hamCheckBits tables m ^^^ hamCheckBits tables m' := by
  rw [hamCheckBits, hamTableBits_xor, parity_xor, parity_xor, xor_exchange,
    ← BitVec.ofBool_xor_ofBool, ← BitVec.xor_append]
  rfl

/-- Settles O28: a parity of selected bits is linear (`parity_xor`), and the zero message is the sum of a message with
itself. -/
theorem hamCheckIsLinear : Obligations.HamCheckIsLinear := by
  intro tables m m'
  refine ⟨hamCheckBits_xor tables m m', ?_⟩
  have hself := hamCheckBits_xor tables 0#77 0#77
  rwa [BitVec.xor_self, BitVec.xor_self] at hself

end Sys2Proof.Machine
end

section
/-! The convolutional encoder (rules R205 to R214): its state is the last six inputs, a symbol is the parity of the
inputs its generator selects, and a captured state resumes the encoding. -/

namespace Sys2Proof.Machine

/-! ### The delayed inputs -/

/-- The input of the current step. -/
theorem delayed_zero (bits : List Bool) (s0 : Word) (i : Nat) : delayed bits s0 i 0 = bits[i]?.getD false := rfl

/-- One step later, the delay is one more. -/
theorem delayed_succ (bits : List Bool) (s0 : Word) (i j : Nat) :
    delayed bits s0 (i + 1) (j + 1) = delayed bits s0 i j := by
  simp only [delayed, Nat.add_le_add_iff_right, Nat.add_sub_add_right]

/-- At the first input, the delayed inputs before it are the bits of the initial state. -/
theorem delayed_initial (bits : List Bool) (s0 : Word) (j : Nat) : delayed bits s0 0 (j + 1) = s0.getLsbD j := rfl

section
variable (p : CvPoly) {bits : List Bool} (s0 : Word)

/-- The encoder's state before input bit `i`. -/
def stateBefore (bits : List Bool) (i : Nat) : BitVec 6 := (convRun p (s0.setWidth 6) (bits.take i)).2

/-- The state after an input bit is its window without the oldest input (rule R205). -/
theorem stateBefore_succ {i : Nat} (hi : i < bits.length) :
    stateBefore p s0 bits (i + 1) = ((stateBefore p s0 bits i).concat bits[i]).setWidth 6 := by
  rw [stateBefore, List.take_succ_eq_append_getElem hi, convRun_append]
  rfl

/-- Bit `j` of the window of input bit `i` is the input `j` steps before it (rule R205). -/
theorem getLsbD_window {i j : Nat} (hi : i < bits.length) (hj : j < 7) :
    ((stateBefore p s0 bits i).concat bits[i]).getLsbD j = delayed bits s0 i j := by
  induction i generalizing j with
  | zero =>
    cases j with
    | zero => simp [delayed_zero, hi]
    | succ j => simp [BitVec.getLsbD_concat_succ, delayed_initial, stateBefore, convRun, show j < 6 by omega]
  | succ i ih =>
    cases j with
    | zero => simp [delayed_zero, hi]
    | succ j =>
      rw [BitVec.getLsbD_concat_succ, delayed_succ, stateBefore_succ p s0 (by omega), BitVec.getLsbD_setWidth,
        ih (by omega) (by omega)]
      simp [show j < 6 by omega]

/-- Bit `j` of the state after input bit `i` is the input `j` steps before it. -/
theorem getLsbD_stateBefore_succ {i j : Nat} (hi : i < bits.length) (hj : j < 6) :
    (stateBefore p s0 bits (i + 1)).getLsbD j = delayed bits s0 i j := by
  rw [stateBefore_succ p s0 hi, BitVec.getLsbD_setWidth, getLsbD_window p s0 hi (by omega)]
  simp [hj]

/-- The parity of the window bits a generator mask selects is the symbol of rule R205. -/
theorem parity_window (mask : BitVec 7) (inv : Bool) {i : Nat} (hi : i < bits.length) :
    (parity ((stateBefore p s0 bits i).concat bits[i] &&& mask) ^^ inv) = symbolAt mask inv bits s0 i := by
  rw [parity_eq_oddOnes, oddOnes, symbolAt, List.countP_congr]
  intro j hj
  rw [BitVec.getLsbD_and, getLsbD_window p s0 hi (List.mem_range.1 hj), Bool.and_comm]

/-- The symbols of input bit `i`, A then B (rules R205 and R206). -/
theorem getElem?_convRun {i : Nat} (hi : i < bits.length) :
    (convRun p (s0.setWidth 6) bits).1[2 * i]? = some (symbolAt p.ga p.inva bits s0 i) ∧
      (convRun p (s0.setWidth 6) bits).1[2 * i + 1]? = some (symbolAt p.gb p.invb bits s0 i) := by
  rw [← parity_window p s0 p.ga p.inva hi, ← parity_window p s0 p.gb p.invb hi]
  exact convRun_symbols p (s0.setWidth 6) hi

end

/-! ### What the command writes -/

/-- The bytes the encoder writes for an input sequence. -/
def symbolBytes (p : CvPoly) (s : BitVec 6) (bits : List Bool) : List Byte := (convRun p s bits).1.map bitByte

@[simp] theorem length_symbolBytes (p : CvPoly) (s : BitVec 6) (bits : List Bool) :
    (symbolBytes p s bits).length = 2 * bits.length := by
  simp [symbolBytes]

/-- Byte `n` of a written sequence stands at `a + n`. -/
theorem Memory.peek_pokes_get (m : Memory) (a : Nat) {bs : List Byte} {n : Nat} {b : Byte} (h : bs[n]? = some b) :
    (m.pokes a bs).peek (a + n) = some b := by
  obtain ⟨hn, _⟩ := List.getElem?_eq_some_iff.1 h
  rw [Memory.peek_pokes, if_pos (by omega), Nat.add_sub_cancel_left, h]

/-- CONV_ENCODE on legal operands, over input bytes that decode. -/
theorem exec_convEncode {s : State} {bytes : List Byte} {bits : List Bool} {d : Nat}
    (hlen : s.snap.args.a1.toNat = bytes.length) (hseed : s.snap.args.a4.toNat < 2 ^ 6)
    (hcap : s.snap.args.a3.toNat < bytes.length) (hin : s.inMem s.snap.args.a0.toNat bytes.length)
    (hout : s.inMem s.snap.args.a2.toNat (2 * bytes.length))
    (hreads : reads s.mem s.draws s.snap.args.a0.toNat bytes d) (hbits : decodesTo bytes bits) :
    exec .convEncode s =
      .next { s.doneOk with
        res := { s.res with
          r0 := (convRun s.snap.cvpoly (s.snap.args.a4.setWidth 6) bits).2.setWidth 32
          r1 := BitVec.ofNat 32 (2 * bytes.length) }
        cvcap := ⟨true, convCapture s.snap.cvpoly (s.snap.args.a4.setWidth 6) bits s.snap.args.a3.toNat⟩
        mem := s.mem.pokes s.snap.args.a2.toNat
          (symbolBytes s.snap.cvpoly (s.snap.args.a4.setWidth 6) bits)
        draws := d } := by
  have hresult : commandResult .convEncode s = (.ok (convWrites s.snap.cvpoly s.snap.args bits), d) := by
    rw [← hlen] at hcap hin hout
    rw [← legal_eq_inMem] at hin hout
    rw [commandResult, runConvEncode, if_neg (not_not.2 ((ushiftRight_eq_zero_iff_lt _ 6).2 hseed)),
      if_neg (by omega), if_neg (not_not.2 ⟨hin, hout⟩), hlen, reads_iff.1 hreads]
    simp only [bitsIn_of_decodesTo hbits]
  rw [exec_of_ok hresult, ← hlen]
  rfl

/-- Settles O30: the window of an input bit holds the delayed inputs (`getLsbD_window`). -/
theorem convEncodeConvolves : Obligations.ConvEncodeConvolves := by
  rintro s _ _ _ d bytes bits rfl hlen rfl rfl hseed hcap hin hout hreads hbits
  have hlength := hbits.length_eq
  refine ⟨_, _, _, exec_convEncode hlen hseed hcap hin hout hreads hbits, rfl, fun j hj => ?final, fun j hj => ?capture,
    fun i hi => ?symbols, fun a ha => ?frame⟩
  case final =>
    rw [← getLsbD_stateBefore_succ s.snap.cvpoly s.snap.args.a4 (by omega) hj, stateBefore,
      List.take_of_length_le (by omega)]
  case capture => exact getLsbD_stateBefore_succ s.snap.cvpoly s.snap.args.a4 (by omega) hj
  case symbols =>
    obtain ⟨hA, hB⟩ := getElem?_convRun s.snap.cvpoly s.snap.args.a4 (hlength ▸ hi : i < bits.length)
    exact ⟨Memory.peek_pokes_get _ _ (by rw [symbolBytes, List.getElem?_map, hA]; rfl),
      Memory.peek_pokes_get _ _ (n := 2 * i + 1) (by rw [symbolBytes, List.getElem?_map, hB]; rfl)⟩
  case frame => exact Memory.peek_pokes_outside _ (by rwa [length_symbolBytes, ← hlength])

/-! ### Resuming from the captured state -/

/-- Reading defined bytes gives them. -/
theorem reads_of_holds {m : Memory} {a : Nat} {bs : List Byte} (d : Nat) (h : holds m a bs) : reads m d a bs d :=
  reads_iff.2 (readBytes_of_holds d h)

theorem holds.take {m : Memory} {a : Nat} {bs : List Byte} (h : holds m a bs) (n : Nat) : holds m a (bs.take n) := by
  intro k hk
  rw [List.length_take] at hk
  rw [h k (by omega), List.getElem?_take_of_lt (by omega)]

theorem holds.drop {m : Memory} {a : Nat} {bs : List Byte} (h : holds m a bs) (n : Nat) :
    holds m (a + n) (bs.drop n) := by
  intro k hk
  rw [List.length_drop] at hk
  rw [Nat.add_assoc, h (n + k) (by omega), List.getElem?_drop]

/-- A write clear of a region leaves the bytes it holds. -/
theorem holds.pokes {m : Memory} {a b : Nat} {bs cs : List Byte} (h : holds m a bs)
    (hclear : a + bs.length ≤ b ∨ b + cs.length ≤ a) : holds (m.pokes b cs) a bs := by
  intro k hk
  rw [Memory.peek_pokes_outside _ (by omega), h k hk]

/-- The operands of CONV_ENCODE name `n` input bytes at `src`, the output at `dst`, the initial state `x` and the last
input bit as the capture index. -/
structure Args.Encodes (a : Args) (src dst n : Nat) (x : BitVec 6) : Prop where
  input : a.a0.toNat = src
  length : a.a1.toNat = n
  output : a.a2.toNat = dst
  captureLast : a.a3.toNat + 1 = n
  seedLegal : a.a4.toNat < 2 ^ 6
  seed : a.a4.setWidth 6 = x

theorem Args.encodes_of_words (a : Args) {src dst s0 : Word} {p q n : Nat} (hsrc : src.toNat = p) (hdst : dst.toNat = q)
    (hpos : 0 < n) (hn : n < 2 ^ 32) (hseed : s0.toNat < 2 ^ 6) :
    Args.Encodes { a with a0 := src, a1 := BitVec.ofNat 32 n, a2 := dst, a3 := BitVec.ofNat 32 (n - 1), a4 := s0 }
      p q n (s0.setWidth 6) where
  input := hsrc
  length := by rw [BitVec.toNat_ofNat, Nat.mod_eq_of_lt hn]
  output := hdst
  captureLast := by
    rw [BitVec.toNat_ofNat, Nat.mod_eq_of_lt (by omega)]
    omega
  seedLegal := hseed
  seed := rfl

/-- CONV_ENCODE, accepted with its operands written before, over defined input bytes and with the state captured at the
last bit: what it does to MEM, RES0 and CVCAP. -/
theorem exec_convEncode_accept {s : State} {a : Args} {src dst n : Nat} {x : BitVec 6} {bytes : List Byte}
    {bits : List Bool} (hops : a.Encodes src dst n x) (hlen : bytes.length = n) (hin : s.inMem src n)
    (hout : s.inMem dst (2 * n)) (hholds : holds s.mem src bytes) (hbits : decodesTo bytes bits) (w : Word) :
    ∃ t, exec .convEncode ({ s with args := a }.accept w) = .next t ∧ t.status.err = false ∧ t.params = s.params ∧
      t.cvpoly = s.cvpoly ∧ t.mem = s.mem.pokes dst (symbolBytes s.cvpoly x bits) ∧
      t.res.r0 = (convRun s.cvpoly x bits).2.setWidth 32 ∧ t.cvcap = ⟨true, (convRun s.cvpoly x bits).2⟩ := by
  subst hlen
  obtain ⟨rfl, hlen, rfl, hlast, hseed, rfl⟩ := hops
  have hindex : a.a3.toNat < bytes.length := by omega
  have hwhole : bits.take (a.a3.toNat + 1) = bits := by rw [hlast, hbits.length_eq, List.take_length]
  refine ⟨_, exec_convEncode (s := ({ s with args := a } : State).accept w) hlen hseed hindex hin hout
    (reads_of_holds _ hholds) hbits, rfl, rfl, rfl, rfl, rfl, ?_⟩
  exact congrArg (fun xs => CvCap.mk true (convRun s.cvpoly (a.a4.setWidth 6) xs).2) hwhole

/-- Two encodings, the second from the state of the first, write what one writes. -/
theorem symbolBytes_append (p : CvPoly) (x : BitVec 6) (xs ys : List Bool) :
    symbolBytes p x (xs ++ ys) = symbolBytes p x xs ++ symbolBytes p (convRun p x xs).2 ys := by
  rw [symbolBytes, convRun_append, List.map_append]
  rfl

theorem convRun_append_state (p : CvPoly) (x : BitVec 6) (xs ys : List Bool) :
    (convRun p x (xs ++ ys)).2 = (convRun p (convRun p x xs).2 ys).2 := by rw [convRun_append]

/-- A captured state written to ARG4 is a legal initial state. -/
theorem toNat_setWidth_lt (x : BitVec 6) : (x.setWidth 32).toNat < 2 ^ 6 := by
  rw [BitVec.toNat_setWidth_of_le (by decide)]
  exact x.isLt

/-- Settles O31: the second command starts in the state, at the input and at the output the first ends with, and the
bytes it reads are as they were. -/
theorem convEncodeResumes : Obligations.ConvEncodeResumes := by
  intro s w src dst s0 a b bytes bits ha hb hlen hseed hsrcEnd hdstEnd hclear hholds hbits
  have hsize := memSize_le s.params
  have hin : s.inMem src.toNat (a + b) := .inr hsrcEnd
  have hout : s.inMem dst.toNat (2 * a + 2 * b) := .inr (by omega)
  obtain ⟨_, _, _, hinA, hinB, hsrcB⟩ := State.inMem_add hin
  obtain ⟨_, _, _, houtA, houtB, hdstB⟩ := State.inMem_add hout
  have hlenA : (bytes.take a).length = a := by rw [List.length_take]; omega
  have hlenB : (bytes.drop a).length = b := by rw [List.length_drop]; omega
  have hbitsA : decodesTo (bytes.take a) (bits.take a) := List.forall₂_take a hbits
  have hbitsB : decodesTo (bytes.drop a) (bits.drop a) := List.forall₂_drop a hbits
  have hsymbolsA (p : CvPoly) (x : BitVec 6) : (symbolBytes p x (bits.take a)).length = 2 * a := by
    rw [length_symbolBytes, ← hbitsA.length_eq, hlenA]
  obtain ⟨t1, hexec1, _, hparams1, hpoly1, hmem1, _, hcvcap1⟩ :=
    exec_convEncode_accept (s.args.encodes_of_words rfl rfl ha (by omega) hseed) hlenA hinA houtA (hholds.take a)
      hbitsA w
  have hinB1 : t1.inMem (src.toNat + a) b := by rwa [State.inMem, hparams1]
  have houtB1 : t1.inMem (dst.toNat + 2 * a) (2 * b) := by rwa [State.inMem, hparams1]
  have hholds1 : holds t1.mem (src.toNat + a) (bytes.drop a) := by
    rw [hmem1]
    exact (hholds.drop a).pokes (by rw [hsymbolsA]; omega)
  obtain ⟨t2, hexec2, _, _, _, hmem2, hr2, hcvcap2⟩ :=
    exec_convEncode_accept (s.args.encodes_of_words hsrcB hdstB hb (by omega) (toNat_setWidth_lt t1.cvcap.state)) hlenB
      hinB1 houtB1 hholds1 hbitsB w
  obtain ⟨t, hexec, hok, _, _, hmem, hr, hcvcap⟩ :=
    exec_convEncode_accept (s.args.encodes_of_words rfl rfl (by omega) (by omega) hseed) hlen hin
      (.inr (by omega)) hholds hbits w
  have hstate1 : (t1.cvcap.state.setWidth 32).setWidth 6 = (convRun s.cvpoly (s0.setWidth 6) (bits.take a)).2 := by
    simp [hcvcap1]
  have hstate : (convRun s.cvpoly (s0.setWidth 6) bits).2 =
      (convRun s.cvpoly (convRun s.cvpoly (s0.setWidth 6) (bits.take a)).2 (bits.drop a)).2 := by
    rw [← convRun_append_state, List.take_append_drop]
  have hmemory : t2.mem = t.mem := by
    rw [hmem2, hpoly1, hstate1, hmem1, hmem, ← hsymbolsA, ← Memory.pokes_append, ← symbolBytes_append,
      List.take_append_drop]
  rw [hpoly1, hstate1, ← hstate] at hr2 hcvcap2
  exact ⟨t1, t2, t, hexec1, by rw [hcvcap1], hexec2, hexec, hok, fun x => by rw [hmemory], hr2.trans hr.symm,
    hcvcap2.trans hcvcap.symm⟩

/-! ### Errors -/

/-- Settles O32: the operands are checked in order before any byte is read, and a defined byte that is no bit is among
those read (`commandResult_convEncode`). -/
theorem convEncodeErrorsInOrder : Obligations.ConvEncodeErrorsInOrder := by
  intro s
  have hseedOk (h : s.snap.args.a4.toNat < 2 ^ 6) : s.snap.args.a4 >>> 6 = 0#32 := (ushiftRight_eq_zero_iff_lt _ 6).2 h
  refine ⟨fun hbad => ?seed, fun hseed hbad => ?capIdx, fun hseed hcap hbad => ?range,
    fun k b hseed hcap hin hout hk hb h0 h1 hFF => ?bitVal⟩
  case seed =>
    refine exec_of_error (e := .seed) (d := s.draws) ?_
    rw [commandResult, runConvEncode, if_pos (ushiftRight_ne_zero_of_le hbad)]
  case capIdx =>
    refine exec_of_error (e := .capIdx) (d := s.draws) ?_
    rw [commandResult, runConvEncode, if_neg (not_not.2 (hseedOk hseed)), if_pos hbad]
  case range =>
    refine exec_of_error (e := .range) (d := s.draws) ?_
    rw [← legal_eq_inMem, ← legal_eq_inMem] at hbad
    rw [commandResult, runConvEncode, if_neg (not_not.2 (hseedOk hseed)), if_neg (Nat.not_le.2 hcap), if_pos hbad]
  case bitVal =>
    obtain ⟨r, hresult, ⟨hbits, _⟩ | ⟨_, rfl⟩⟩ := commandResult_convEncode hseed hcap hin hout
    · have hbit : isBit b := hbits b (List.mem_of_getElem? (readBytes_get s.draws hk hb))
      exact absurd hbit (by simp [isBit, h0, h1, hFF])
    · exact ⟨_, exec_of_error hresult⟩

/-! ### CONV_RELEASE -/

theorem exec_convRelease (s : State) : exec .convRelease s = .next { s.doneOk with cvcap := ⟨false, 0#6⟩ } := rfl

/-- Settles O12: a release after a release finds what it would write. -/
theorem convReleaseClearsCapture : Obligations.ConvReleaseClearsCapture :=
  fun s => ⟨exec_convRelease s, exec_convRelease { s.doneOk with cvcap := ⟨false, 0#6⟩ }⟩

end Sys2Proof.Machine
end

section
/-! The multiplexers (44_multiplexers.md): which pattern of its set each chip pair of MUX_DUAL selects (rules R233 and
R234), which segment each chip pair of MUX_ALTBOC and which one ALT_SEGMENT reads (rules R236 to R245), and the first
error of each command. -/

namespace Sys2Proof.Machine

/-! ### Input codes -/

/-- A code of `n` bytes, read as `reads` says. -/
theorem readBytes_of_reads {m : Memory} {d a n d' : Nat} {bs : List Byte} (hlen : bs.length = n)
    (h : reads m d a bs d') : readBytes m d a n = (bs, d') :=
  hlen ▸ reads_iff.1 h

/-! ### MUX_DUAL -/

/-- Sample `n` of chip pair `i` is sample `n` of the pattern the pair selects (rule R234). -/
theorem dualSamples_getElem? (ps : PatternSet) {as bs : List Bool} {i : Nat} {a b : Bool} (ha : as[i]? = some a)
    (hb : bs[i]? = some b) (n : Fin 12) : (dualSamples ps as bs)[12 * i + n.val]? = some ps[dualIndex a b][n] := by
  have hindex : (List.zipWith dualIndex as bs)[i]? = some (dualIndex a b) := by
    rw [List.getElem?_zipWith, ha, hb]
  rw [dualSamples, getElem?_flatMap_of_length (fun _ => Vector.length_toList) hindex n.isLt]
  simp

/-- MUX_DUAL on legal operands, over input bytes that decode. -/
theorem exec_muxDual {s : State} {ps : PatternSet} {ba bb : List Byte} {as bs : List Bool} {d1 d2 : Nat}
    (hps : s.params.dualPatsets[s.snap.args.a0.toNat]? = some ps) (hlen : s.snap.args.a3.toNat = ba.length)
    (hsame : bb.length = ba.length) (hinA : s.inMem s.snap.args.a1.toNat ba.length)
    (hinB : s.inMem s.snap.args.a2.toNat ba.length) (hout : s.inMem s.snap.args.a4.toNat (12 * ba.length))
    (hreadsA : reads s.mem s.draws s.snap.args.a1.toNat ba d1) (hreadsB : reads s.mem d1 s.snap.args.a2.toNat bb d2)
    (hbitsA : decodesTo ba as) (hbitsB : decodesTo bb bs) :
    exec .muxDual s =
      .next { s.doneOk with
        res := { s.res with r0 := BitVec.ofNat 32 (12 * ba.length) }
        mem := s.mem.pokes s.snap.args.a4.toNat (dualSamples ps as bs)
        draws := d2 } := by
  rw [← legal_eq_inMem] at hinA hinB hout
  refine exec_of_ok (d := d2)
    (w := { mem := [(_, dualSamples ps as bs)], r0 := some (BitVec.ofNat 32 (12 * ba.length)) }) ?_
  simp only [commandResult, runMuxDual, hps, hlen, readBytes_of_reads rfl hreadsA,
    readBytes_of_reads hsame hreadsB, bitsIn_of_decodesTo hbitsA, bitsIn_of_decodesTo hbitsB]
  rw [if_neg (not_not.2 ⟨hinA, hinB, hout⟩)]

/-- Settles O33: the samples stand in the order of the chip pairs (`dualSamples_getElem?`). -/
theorem muxDualSelectsPatterns : Obligations.MuxDualSelectsPatterns := by
  rintro s ps _ _ _ d1 d2 ba bb as bs hps rfl rfl hlen hsame rfl hinA hinB hout hreadsA hreadsB hbitsA hbitsB
  refine ⟨_, exec_muxDual hps hlen hsame hinA hinB hout hreadsA hreadsB hbitsA hbitsB, rfl,
    fun i a b j n ha hb hj => ?sample, fun x hx => ?frame⟩
  case sample =>
    obtain rfl : j = dualIndex a b := Fin.ext hj
    rw [Nat.add_assoc]
    exact Memory.peek_pokes_get _ _ (dualSamples_getElem? ps ha hb n)
  case frame =>
    have hlengthA := hbitsA.length_eq
    have hlengthB := hbitsB.length_eq
    exact Memory.peek_pokes_outside _ (by rwa [length_dualSamples ps (by omega), ← hlengthA])

/-! ### The I and Q regions -/

/-- What the two regions of a sequence of samples read as: Q where it stands, else I, else as before (log 8). -/
theorem Memory.peek_commit_iqRegions (m : Memory) (dstI dstQ : Word) {l : List IQ} {sample : Nat → IQ} {n : Nat}
    (hlen : l.length = n) (hl : ∀ k, k < n → l[k]? = some (sample k)) (x : Nat) :
    (m.commit (iqRegions dstI dstQ l)).peek x =
      if dstQ.toNat ≤ x ∧ x < dstQ.toNat + n then some (sample (x - dstQ.toNat)).q
      else if dstI.toNat ≤ x ∧ x < dstI.toNat + n then some (sample (x - dstI.toNat)).i
      else m.peek x := by
  simp only [iqRegions, Memory.commit_cons, Memory.commit_nil, Memory.peek_pokes, List.length_map, hlen,
    List.getElem?_map]
  split
  · rw [hl _ (by omega), Option.map_some]
  split
  · rw [hl _ (by omega), Option.map_some]
  · rfl

/-! ### MUX_ALTBOC -/

/-- The pattern index of position `i` combines the chips of the four codes there (rules R238 and R239). -/
theorem altIndices_getElem? (m : Word) {as bs cs ds : List Bool} {i : Nat} {a b c d : Bool} (ha : as[i]? = some a)
    (hb : bs[i]? = some b) (hc : cs[i]? = some c) (hd : ds[i]? = some d) :
    (altIndices m as bs cs ds)[i]? =
      some (nibbleIndex (a ^^ m.getLsbD 3) (b ^^ m.getLsbD 2) (c ^^ m.getLsbD 1) (d ^^ m.getLsbD 0)) := by
  induction i generalizing as bs cs ds with
  | zero =>
    match as, bs, cs, ds with
    | _ :: _, _ :: _, _ :: _, _ :: _ =>
      simp only [List.getElem?_cons_zero, Option.some.injEq] at ha hb hc hd
      subst ha hb hc hd
      rfl
  | succ i ih =>
    match as, bs, cs, ds with
    | _ :: _, _ :: _, _ :: _, _ :: _ => exact ih ha hb hc hd

/-- Sample `t` of chip pair `j` is sample `t` of the segment of the pair's pattern indices (rules R238 and R241). -/
theorem altComposite_getElem? (p : Params) {qs : List (Fin 16)} {j t : Nat} {a b : Fin 16} (ha : qs[2 * j]? = some a)
    (hb : qs[2 * j + 1]? = some b) (ht : t < 24) :
    (altComposite p qs)[24 * j + t]? = some (segmentSample p a b t) := by
  induction j generalizing qs with
  | zero =>
    match qs with
    | _ :: _ :: rest =>
      simp only [Nat.mul_zero, Nat.zero_add, List.getElem?_cons_zero, List.getElem?_cons_succ,
        Option.some.injEq] at ha hb
      subst ha hb
      rw [altComposite, Nat.mul_zero, Nat.zero_add, List.getElem?_append_left (by simpa using ht),
        altSegmentOf_get p _ _ ht]
  | succ j ih =>
    match qs with
    | _ :: _ :: rest =>
      have hskip : 24 * (j + 1) + t = 24 + (24 * j + t) := by omega
      rw [altComposite, hskip, List.getElem?_append_right (by simp), length_altSegmentOf, Nat.add_sub_cancel_left]
      exact ih ha hb

/-- Sample `k` of the composite of the pattern indices `q`. -/
def compositeSample (p : Params) (q : Nat → Fin 16) (k : Nat) : IQ :=
  segmentSample p (q (2 * (k / 24))) (q (2 * (k / 24) + 1)) (k % 24)

/-- The composite of an even number `n` of pattern indices, twelve samples per index (rule R241). -/
theorem altComposite_getElem?_of_lt (p : Params) {qs : List (Fin 16)} {q : Nat → Fin 16} {n : Nat}
    (heven : n % 2 = 0) (hq : ∀ i, i < n → qs[i]? = some (q i)) {k : Nat} (hk : k < 12 * n) :
    (altComposite p qs)[k]? = some (compositeSample p q k) := by
  have hsample := altComposite_getElem? p (hq (2 * (k / 24)) (by omega)) (hq (2 * (k / 24) + 1) (by omega))
    (Nat.mod_lt k (by decide : 0 < 24))
  rwa [Nat.div_add_mod] at hsample

/-- The six regions of MUX_ALTBOC lie in MEM. -/
theorem altRegionsLegal_iff (s : State) (a : Args) :
    altRegionsLegal s.params.memSize a = true ↔
      s.inMem a.a0.toNat a.a4.toNat ∧ s.inMem a.a1.toNat a.a4.toNat ∧ s.inMem a.a2.toNat a.a4.toNat ∧
        s.inMem a.a3.toNat a.a4.toNat ∧ s.inMem a.a5.toNat (12 * a.a4.toNat) ∧
        s.inMem a.a6.toNat (12 * a.a4.toNat) := by
  simp only [altRegionsLegal, Bool.and_eq_true, legal_eq_inMem, and_assoc]

/-- MUX_ALTBOC on legal operands, over four codes that are read as bytes that decode. -/
theorem exec_muxAltboc {s : State} {b0 b1 b2 b3 : List Byte} {aI bI aQ bQ : List Bool} {d : Nat}
    (hindex : s.snap.args.a7.toNat < 16) (heven : s.snap.args.a4.toNat % 2 = 0)
    (hregions : altRegionsLegal s.params.memSize s.snap.args = true)
    (hcodes : readCodes s.mem s.draws s.snap.args = ((b0, b1, b2, b3), d)) (hbits0 : decodesTo b0 aI)
    (hbits1 : decodesTo b1 bI) (hbits2 : decodesTo b2 aQ) (hbits3 : decodesTo b3 bQ) :
    exec .muxAltboc s =
      .next { s.doneOk with
        res := { s.res with r0 := BitVec.ofNat 32 (12 * s.snap.args.a4.toNat) }
        mem := s.mem.commit (iqRegions s.snap.args.a5 s.snap.args.a6
          (altComposite s.params (altIndices s.snap.args.a7 aI bI aQ bQ)))
        draws := d } := by
  obtain ⟨hin0, hin1, hin2, hin3, houtI, houtQ⟩ := (altRegionsLegal_iff s _).1 hregions
  have hresult := commandResult_muxAltboc hindex heven hin0 hin1 hin2 hin3 houtI houtQ
  rw [hcodes, altWrites, bitsIn_of_decodesTo hbits0, bitsIn_of_decodesTo hbits1, bitsIn_of_decodesTo hbits2,
    bitsIn_of_decodesTo hbits3] at hresult
  exact exec_of_ok hresult

/-- Each code read from where the one before it left the draws. -/
theorem readCodes_of_reads {m : Memory} {a : Args} {d0 d1 d2 d3 d4 : Nat} {b0 b1 b2 b3 : List Byte}
    (h0 : b0.length = a.a4.toNat) (h1 : b1.length = a.a4.toNat) (h2 : b2.length = a.a4.toNat)
    (h3 : b3.length = a.a4.toNat) (hreads0 : reads m d0 a.a0.toNat b0 d1) (hreads1 : reads m d1 a.a1.toNat b1 d2)
    (hreads2 : reads m d2 a.a2.toNat b2 d3) (hreads3 : reads m d3 a.a3.toNat b3 d4) :
    readCodes m d0 a = ((b0, b1, b2, b3), d4) := by
  simp only [readCodes, readBytes_of_reads h0 hreads0, readBytes_of_reads h1 hreads1, readBytes_of_reads h2 hreads2,
    readBytes_of_reads h3 hreads3]

/-- Settles O34: `altIndices_getElem?` gives the pattern index of a position, `altComposite_getElem?_of_lt` the
samples of a pair of positions, and `Memory.peek_commit_iqRegions` where they stand. -/
theorem muxAltbocComposesSegments : Obligations.MuxAltbocComposesSegments := by
  rintro s _ d1 d2 d3 d4 b0 b1 b2 b3 aI bI aQ bQ q rfl heven hindex h0 h1 h2 h3 hin0 hin1 hin2 hin3 houtI houtQ hreads0
    hreads1 hreads2 hreads3 hbits0 hbits1 hbits2 hbits3 hq
  have hregions := (altRegionsLegal_iff s _).2 ⟨hin0, hin1, hin2, hin3, houtI, houtQ⟩
  have hcodes := readCodes_of_reads h0 h1 h2 h3 hreads0 hreads1 hreads2 hreads3
  have hlen0 : aI.length = s.snap.args.a4.toNat := hbits0.length_eq.symm.trans h0
  have hlen1 : bI.length = s.snap.args.a4.toNat := hbits1.length_eq.symm.trans h1
  have hlen2 : aQ.length = s.snap.args.a4.toNat := hbits2.length_eq.symm.trans h2
  have hlen3 : bQ.length = s.snap.args.a4.toNat := hbits3.length_eq.symm.trans h3
  have hindices : ∀ i, i < s.snap.args.a4.toNat →
      (altIndices s.snap.args.a7 aI bI aQ bQ)[i]? = some (q i) := by
    intro i hi
    have hchip0 := List.getElem?_eq_getElem (hlen0 ▸ hi : i < aI.length)
    have hchip1 := List.getElem?_eq_getElem (hlen1 ▸ hi : i < bI.length)
    have hchip2 := List.getElem?_eq_getElem (hlen2 ▸ hi : i < aQ.length)
    have hchip3 := List.getElem?_eq_getElem (hlen3 ▸ hi : i < bQ.length)
    have hqi := hq i hi
    rw [hchip0, hchip1, hchip2, hchip3] at hqi
    rw [altIndices_getElem? _ hchip0 hchip1 hchip2 hchip3]
    exact congrArg some (Fin.ext hqi.symm)
  have hlength : (altComposite s.params (altIndices s.snap.args.a7 aI bI aQ bQ)).length =
      12 * s.snap.args.a4.toNat := by
    rw [length_altComposite, length_altIndices _ hlen0 hlen1 hlen2 hlen3]
    omega
  exact ⟨_, exec_muxAltboc hindex heven hregions hcodes hbits0 hbits1 hbits2 hbits3, rfl,
    Memory.peek_commit_iqRegions _ _ _ hlength (fun _ => altComposite_getElem?_of_lt s.params heven hindices)⟩

/-! ### ALT_SEGMENT and ALT_MODIDX -/

/-- The segment of the index 16·A + B (rule R237). -/
theorem altSegmentAt_setWidth (p : Params) {v : Word} {a b : Fin 16} (hv : v.toNat = 16 * a.val + b.val) :
    altSegmentAt p (v.setWidth 8) = altSegmentOf p a b := by
  have hj : (v.setWidth 8).toNat = 16 * a.val + b.val := by
    rw [BitVec.toNat_setWidth, hv]
    omega
  rw [altSegmentAt]
  congr 1 <;> simp only [Fin.ext_iff, hj] <;> omega

/-- ALT_SEGMENT on legal operands. -/
theorem exec_altSegment {s : State} (hindex : s.snap.args.a0.toNat < 256) (hinI : s.inMem s.snap.args.a1.toNat 24)
    (hinQ : s.inMem s.snap.args.a2.toNat 24) :
    exec .altSegment s =
      .next { s.doneOk with
        res := { s.res with r0 := 24#32 }
        mem := s.mem.commit (iqRegions s.snap.args.a1 s.snap.args.a2
          (altSegmentAt s.params (s.snap.args.a0.setWidth 8))) } := by
  rw [← legal_eq_inMem] at hinI hinQ
  refine exec_of_ok (d := s.draws) (w := { mem := iqRegions _ _ _, r0 := some 24#32 }) ?_
  rw [commandResult, runAltSegment, if_neg (not_not.2 ((ushiftRight_eq_zero_iff_lt _ 8).2 hindex)),
    if_neg (not_not.2 ⟨hinI, hinQ⟩)]

/-- Settles O35: the samples of a segment (`altSegmentOf_get`) and where they stand
(`Memory.peek_commit_iqRegions`). -/
theorem altSegmentReadsSegment : Obligations.AltSegmentReadsSegment := by
  intro s a b hindex hinI hinQ
  refine ⟨_, exec_altSegment (by omega) hinI hinQ, rfl, ?_⟩
  rw [altSegmentAt_setWidth s.params hindex]
  exact Memory.peek_commit_iqRegions _ _ _ (length_altSegmentOf s.params a b)
    (fun _ => altSegmentOf_get s.params a b)

/-- A bit operand is its lowest bit (rule R96). -/
theorem toNat_getLsbD_zero {v : Word} (h : v.toNat < 2) : (v.getLsbD 0).toNat = v.toNat := by
  rw [BitVec.getLsbD, Nat.testBit_zero]
  rcases (by omega : v.toNat = 0 ∨ v.toNat = 1) with hv | hv <;> rw [hv] <;> rfl

theorem nibbleIndex_val (a b c d : Bool) :
    (nibbleIndex a b c d).val = 8 * a.toNat + 4 * b.toNat + 2 * c.toNat + d.toNat := rfl

/-- Settles O36: four operands that pass the check of rule R96 are their lowest bits. -/
theorem altModidxPacksBits : Obligations.AltModidxPacksBits := by
  intro s h0 h1 h2 h3
  have hbit : ∀ {v : Word}, v.toNat < 2 → v >>> 1 = 0#32 := (ushiftRight_eq_zero_iff_lt _ 1).2
  refine exec_of_r0 ?_
  rw [commandResult, runAltModidx, if_neg (by simp [hbit h0, hbit h1, hbit h2, hbit h3]), nibbleIndex_val,
    toNat_getLsbD_zero h0, toNat_getLsbD_zero h1, toNat_getLsbD_zero h2, toNat_getLsbD_zero h3]

/-! ### Errors -/

/-- A byte that is no bit, at an address of the region `(a, n)`, is among the bytes read from there. -/
theorem exists_not_isBit_readBytes {m : Memory} (d : Nat) {a n k : Nat} {x : Byte} (hk : k < n)
    (hx : m.peek (a + k) = some x) (hbad : ¬isBit x) : ¬∀ y ∈ (readBytes m d a n).1, isBit y :=
  fun hbits => hbad (hbits x (List.mem_of_getElem? (readBytes_get d hk hx)))

/-- A command that checks its input bytes and reads one that is no bit completes with code 10. -/
theorem exec_of_bitChecked_bad {i : Instr} {s : State} {r : ExecResult} {bs : List Byte} {d : Nat}
    (hresult : commandResult i s = (r, d)) (hchecked : bitChecked r bs) (hbad : ¬∀ y ∈ bs, isBit y) :
    exec i s = .next { s.doneErr 10#8 with draws := d } := by
  rcases hchecked with ⟨hbits, _⟩ | ⟨_, rfl⟩
  · exact absurd hbits hbad
  · exact exec_of_error hresult

section
variable {s : State}

theorem exec_muxDual_of_index (h : 1 + s.params.dualRest.length ≤ s.snap.args.a0.toNat) :
    exec .muxDual s = .next (s.doneErr CmdError.index.code) := by
  refine exec_of_error (d := s.draws) ?_
  have hnone : s.params.dualPatsets[s.snap.args.a0.toNat]? = none :=
    List.getElem?_eq_none (by rw [Params.dualPatsets, List.length_cons]; omega)
  simp only [commandResult, runMuxDual, hnone]

theorem exec_muxDual_of_range (hindex : s.snap.args.a0.toNat < 1 + s.params.dualRest.length)
    (hbad : ¬(s.inMem s.snap.args.a1.toNat s.snap.args.a3.toNat ∧ s.inMem s.snap.args.a2.toNat s.snap.args.a3.toNat ∧
      s.inMem s.snap.args.a4.toNat (12 * s.snap.args.a3.toNat))) :
    exec .muxDual s = .next (s.doneErr CmdError.range.code) := by
  refine exec_of_error (d := s.draws) ?_
  have hlist : s.snap.args.a0.toNat < s.params.dualPatsets.length := by
    rw [Params.dualPatsets, List.length_cons]
    omega
  simp only [← legal_eq_inMem] at hbad
  simp only [commandResult, runMuxDual, List.getElem?_eq_getElem hlist, if_pos hbad]

theorem exec_muxAltboc_of_index (h : 16 ≤ s.snap.args.a7.toNat) :
    exec .muxAltboc s = .next (s.doneErr CmdError.index.code) := by
  refine exec_of_error (d := s.draws) ?_
  rw [commandResult, runMuxAltboc, if_pos (ushiftRight_ne_zero_of_le h)]

theorem exec_muxAltboc_of_oddLen (hindex : s.snap.args.a7.toNat < 16) (hodd : s.snap.args.a4.toNat % 2 = 1) :
    exec .muxAltboc s = .next (s.doneErr CmdError.oddLen.code) := by
  refine exec_of_error (d := s.draws) ?_
  rw [commandResult, runMuxAltboc, if_neg (not_not.2 ((ushiftRight_eq_zero_iff_lt _ 4).2 hindex)), if_pos (by omega)]

theorem exec_muxAltboc_of_range (hindex : s.snap.args.a7.toNat < 16) (heven : s.snap.args.a4.toNat % 2 = 0)
    (hbad : ¬altRegionsLegal s.params.memSize s.snap.args = true) :
    exec .muxAltboc s = .next (s.doneErr CmdError.range.code) := by
  refine exec_of_error (d := s.draws) ?_
  rw [commandResult, runMuxAltboc, if_neg (not_not.2 ((ushiftRight_eq_zero_iff_lt _ 4).2 hindex)),
    if_neg (not_not.2 heven), if_pos (Bool.eq_false_iff.2 hbad)]

theorem exec_altSegment_of_index (h : 256 ≤ s.snap.args.a0.toNat) :
    exec .altSegment s = .next (s.doneErr CmdError.index.code) := by
  refine exec_of_error (d := s.draws) ?_
  rw [commandResult, runAltSegment, if_pos (ushiftRight_ne_zero_of_le h)]

theorem exec_altSegment_of_range (hindex : s.snap.args.a0.toNat < 256)
    (hbad : ¬(s.inMem s.snap.args.a1.toNat 24 ∧ s.inMem s.snap.args.a2.toNat 24)) :
    exec .altSegment s = .next (s.doneErr CmdError.range.code) := by
  refine exec_of_error (d := s.draws) ?_
  rw [← legal_eq_inMem, ← legal_eq_inMem] at hbad
  rw [commandResult, runAltSegment, if_neg (not_not.2 ((ushiftRight_eq_zero_iff_lt _ 8).2 hindex)), if_pos hbad]

end

/-- Settles O37: the operands are checked in order before any byte is read, and the bytes last, all of them
(`commandResult_muxDual`, `altWrites_bitChecked`). -/
theorem multiplexerErrorsInOrder : Obligations.MultiplexerErrorsInOrder := by
  intro s
  refine ⟨exec_muxDual_of_index, exec_muxDual_of_range, exec_muxAltboc_of_index, exec_muxAltboc_of_oddLen,
    fun hindex heven hbad => exec_muxAltboc_of_range hindex heven (mt (altRegionsLegal_iff s _).1 hbad),
    exec_altSegment_of_index, exec_altSegment_of_range, fun k x hindex hin0 hin1 hout hk hx hx0 hx1 hxFF => ?dual,
    fun k x hindex heven ⟨hin0, hin1, hin2, hin3, houtI, houtQ⟩ hk hx hx0 hx1 hxFF => ?altboc⟩
  all_goals have hnotBit : ¬isBit x := by simp [isBit, hx0, hx1, hxFF]
  case dual =>
    obtain ⟨r, hresult, hchecked⟩ := commandResult_muxDual hindex hin0 hin1 hout rfl rfl
    refine ⟨_, exec_of_bitChecked_bad hresult hchecked ?_⟩
    rw [List.forall_mem_append]
    rintro ⟨hbits0, hbits1⟩
    rcases hx with hx | hx
    · exact exists_not_isBit_readBytes _ hk hx hnotBit hbits0
    · exact exists_not_isBit_readBytes _ hk hx hnotBit hbits1
  case altboc =>
    refine ⟨_, exec_of_bitChecked_bad (commandResult_muxAltboc hindex heven hin0 hin1 hin2 hin3 houtI houtQ)
      (altWrites_bitChecked s.params s.snap.args _ _ _ _) ?_⟩
    simp only [List.forall_mem_append]
    rintro ⟨⟨⟨hbits0, hbits1⟩, hbits2⟩, hbits3⟩
    rcases hx with hx | hx | hx | hx
    · exact exists_not_isBit_readBytes _ hk hx hnotBit hbits0
    · exact exists_not_isBit_readBytes _ hk hx hnotBit hbits1
    · exact exists_not_isBit_readBytes _ hk hx hnotBit hbits2
    · exact exists_not_isBit_readBytes _ hk hx hnotBit hbits3

end Sys2Proof.Machine
end

section
/-! Command errors and CTRL.CLR (60_exceptions.md rules R263 and R265): a command that raises an error commits nothing,
and CLR clears STATUS and nothing else. -/

namespace Sys2Proof.Machine

/-! ### A command that raises an error -/

/-- A command that completes with ERR took the error branch: a commit leaves ERR clear (rules R261 and R262). -/
theorem exec_error_of_err {i : Instr} {s t : State} (h : exec i s = .next t) (herr : t.status.err = true) :
    ∃ (e : CmdError) (d : Nat), t = { s.doneErr e.code with draws := d } := by
  rcases exec_cases h with ⟨w, d, _, rfl⟩ | ⟨e, d, _, rfl⟩
  · have hclear : s.status.completed.err = false := rfl
    exact absurd (hclear.symm.trans herr) Bool.false_ne_true
  · exact ⟨e, d, rfl⟩

/-- Settles O9: the error branch is a failure with some code, and that code is the ERRCODE it leaves. -/
theorem errorCommitsNothing : Obligations.ErrorCommitsNothing := by
  intro i s t h herr
  obtain ⟨e, d, rfl⟩ := exec_error_of_err h herr
  rfl

/-! ### CTRL.CLR -/

/-- A write of CTRL with CLR and not SRST clears STATUS (rule R25). -/
theorem State.writeReg_ctrl_clr (s : State) {v : Word} (hclr : v.getLsbD 1 = true) (hsrst : v.getLsbD 0 = false) :
    s.writeReg .ctrl v = { s with status := s.status.cleared } := by
  simp only [State.writeReg, State.writeCtrl, hsrst, hclr, Bool.false_eq_true, if_false, if_true]

/-- Settles O47: the write is CTRL's and acts as CLR, whatever the engine does. -/
theorem clrClearsStatus : Obligations.ClrClearsStatus := by
  intro s v rest hclr hsrst hi
  rw [step_write (r := .ctrl) hi, State.writeReg_ctrl_clr _ hclr hsrst]
  rfl

end Sys2Proof.Machine
end

section
/-! Reset (70_reset_and_hazards.md rules R290 to R292): what the registers read after a soft and after a hardware reset,
and that the state after reset meets the invariant. -/

namespace Sys2Proof.Machine

/-! ### The reset words of the registers with fields (10_state.md rules R26, R31, R35 and R36) -/

/-- STATUS reads 0 once the engine is idle: BUSY, the one bit that is not stored, is 0 too. -/
theorem Status.word_reset_idle : Status.reset.word false = 0#32 := by decide

theorem LfsrCfg.word_reset : LfsrUnit.reset.cfg.word = 0#32 := by decide

theorem CvPoly.word_reset : CvPoly.reset.word = 0#32 := by decide

theorem CvCap.word_reset : CvCap.reset.word = 0#32 := by decide

/-! ### The registers after a reset -/

/-- After a soft reset every register reads 0 but those that are constants of the block (rules R290 and R291). -/
theorem State.readReg_softReset (s : State) {r : Reg} (hr : r ∉ [Reg.id, .memsize, .nsig, .ndual]) :
    s.softReset.readReg r = 0#32 := by
  cases r with
  | id | memsize | nsig | ndual => exact absurd hr (by decide)
  | status => exact Status.word_reset_idle
  | l0cfg | l1cfg => exact LfsrCfg.word_reset
  | cvpoly => exact CvPoly.word_reset
  | cvcap => exact CvCap.word_reset
  | _ => rfl

/-- No register shows MEM. -/
theorem State.readReg_withMem (s : State) (m : Memory) (r : Reg) : { s with mem := m }.readReg r = s.readReg r := by
  cases r <;> rfl

/-- A hardware reset leaves the registers as a soft reset does (rule R292). -/
theorem State.readReg_hardReset (s : State) (r : Reg) : s.hardReset.readReg r = s.softReset.readReg r :=
  s.softReset.readReg_withMem [] r

/-- The answer of the port is in no register. -/
theorem State.readReg_respond (s : State) (a : Response) (r : Reg) : (s.respond a).readReg r = s.readReg r := by
  cases r <;> rfl

/-- The state after reset is one that a further hardware reset leaves as it is. -/
theorem State.hardReset_reset : State.reset.hardReset = State.reset := rfl

/-! ### The resets as steps -/

/-- A write of CTRL with SRST is a soft reset, whatever CLR is (rules R25 and R291). -/
theorem State.writeReg_ctrl_srst (s : State) {v : Word} (hsrst : v.getLsbD 0 = true) :
    s.writeReg .ctrl v = s.softReset := by
  simp only [State.writeReg, State.writeCtrl, hsrst, if_true]

/-- Settles O48: the write's step is a soft reset and an acknowledgement, which shows in no register. -/
theorem softResetKeepsMem : Obligations.SoftResetKeepsMem := by
  intro s v rest hsrst hi
  have hstep := step_write (r := .ctrl) hi
  rw [State.writeReg_ctrl_srst _ hsrst] at hstep
  refine ⟨_, hstep, rfl, rfl, rfl, rfl, rfl, fun r hr => ?_⟩
  rw [State.readReg_respond, State.readReg_softReset _ hr]

/-- Settles O49: the registers are those of a soft reset, and an empty MEM has no defined byte. -/
theorem hardwareResetUndefinesMem : Obligations.HardwareResetUndefinesMem := by
  intro s rest hi
  refine ⟨_, step_hardwareReset hi, rfl, rfl, rfl, Memory.peek_nil, rfl, fun r hr => ?_⟩
  rw [State.readReg_hardReset, State.readReg_softReset _ hr]

/-! ### The state after reset -/

/-- Settles O50: the state after reset is a hardware reset's result, so its registers read as after one. -/
theorem resetRegisterValues : Obligations.ResetRegisterValues := by
  refine ⟨rfl, rfl, rfl, fun r hr => ?_, Memory.peek_nil⟩
  rw [← State.hardReset_reset, State.readReg_hardReset, State.readReg_softReset _ hr]

/-- Settles O51: the state after reset is a hardware reset's result, which meets the invariant from any state. -/
theorem resetMeetsInvariant : Obligations.ResetMeetsInvariant := State.inv_hardReset State.reset

end Sys2Proof.Machine
end
